-- ==== Sys2Proof/Word.lean ====
section
/-! DEFINITION. Word.lean: the words the ports carry (30_encoding.md R120), the exact real numbers every
signal value is (00_scope.md R12) and the two-lane values made of them (R13). The operations on numbers stand in
Machine/Num.lean. -/

namespace Sys2Proof

/-- One port word: 32 bits, bit 0 least significant (R11, R120). -/
abbrev Word := BitVec 32

/-- One 16-bit block of an RDS group (R130). -/
abbrev Block := BitVec 16

/-- One character: an 8-bit code carried unchanged (R32, R33). -/
abbrev Byte := BitVec 8

/-- An exact real number, written as an expression, so that a state which holds it is plain data. The spec computes
in the real numbers with exact arithmetic (R12, R162); `RNum.toReal` says which real number an expression is. The
smart operations of Machine/Num.lean fold every rational result to `rat`. -/
inductive RNum where
  /-- a rational number -/
  | rat (q : Rat)
  /-- the circle constant -/
  | pi
  /-- `a + b` -/
  | sum (a b : RNum)
  /-- `a * b` -/
  | prod (a b : RNum)
  /-- `1 / a` -/
  | recip (a : RNum)
  /-- the larger of two -/
  | larger (a b : RNum)
  /-- the smaller of two -/
  | smaller (a b : RNum)
  /-- the absolute value -/
  | modulus (a : RNum)
  /-- the n-th root, `a ^ (1 / n)` -/
  | root (n : Nat) (a : RNum)
  /-- the cosine of an angle in radians -/
  | cosine (a : RNum)
  /-- the sine of an angle in radians -/
  | sine (a : RNum)
  /-- the logarithm to base ten -/
  | logTen (a : RNum)
  /-- the power `10 ^ a` -/
  | powTen (a : RNum)
  /-- an angle brought into `[0, 2π)` by whole turns -/
  | turn (a : RNum)
deriving DecidableEq, Repr, Inhabited

/-- The real number an expression stands for (R12, R14: the functions with their usual definitions). The step never
evaluates it; it is what the number operations are proved against (Laws/Num.lean). -/
noncomputable def RNum.toReal : RNum → ℝ
  | .rat q => (q : ℝ)
  | .pi => Real.pi
  | .sum a b => a.toReal + b.toReal
  | .prod a b => a.toReal * b.toReal
  | .recip a => a.toReal⁻¹
  | .larger a b => Max.max a.toReal b.toReal
  | .smaller a b => Min.min a.toReal b.toReal
  | .modulus a => |a.toReal|
  | .root n a => a.toReal ^ ((1 : ℝ) / (n : ℝ))
  | .cosine a => Real.cos a.toReal
  | .sine a => Real.sin a.toReal
  | .logTen a => Real.logb 10 a.toReal
  | .powTen a => (10 : ℝ) ^ a.toReal
  | .turn a => a.toReal - 2 * Real.pi * (⌊a.toReal / (2 * Real.pi)⌋ : ℝ)

/-- A complex sample `(i, q)`, or a value of the complex domain `(re, im)` (R12, R13). -/
structure Cplx where
  re : RNum
  im : RNum
deriving DecidableEq, Repr, Inhabited

/-- The pair of real numbers a complex value stands for. -/
noncomputable def Cplx.toReals (z : Cplx) : ℝ × ℝ := (z.re.toReal, z.im.toReal)

/-- A PCM frame, left lane first (R13). -/
structure Frame where
  l : RNum
  r : RNum
deriving DecidableEq, Repr, Inhabited

end Sys2Proof
end

