-- ==== Sys2Proof/Config.lean ====
section
/-! DEFINITION. Config.lean: what construction fixes (00_scope.md R6 to R9; R59 says they are arguments of the
model, not state), the component states of 41_demodulator.md R201 to R203, and the free values: the opaque constants
behind the rounding function and the components of which only the listed properties are assumed. -/

namespace Sys2Proof

/-- How a configuration component is instantiated (R9): the spec's reference instantiation, or implementation number
`id`, of which the model assumes nothing but the properties R9's section files list. -/
inductive Component where
  | reference
  | other (id : Nat)
deriving DecidableEq, Repr, Inhabited

/-- The rounding function `rnd` (R12): the identity, for which the spec's rules and vectors are stated and which is the
default (93_implementation_defined.md U9), or the rounding of implementation number `id`. -/
inductive Rounding where
  | exact
  | other (id : Nat)
deriving DecidableEq, Repr, Inhabited

/-- How `PilotTracker` is instantiated: R201's reference, a stub whose three observers are constant (a legal
instantiation of R180's interface, used by program P5 of 95_test_vectors.md), or another implementation. -/
inductive PilotKind where
  | reference
  | constant (level floor phase : RNum)
  | other (id : Nat)
deriving DecidableEq, Repr, Inhabited

/-- The state type of `PilotTracker` (R180), with the fields of the reference (R201). -/
structure PilotState where
  dl : List RNum
  pl : RNum
  nl : RNum
  phi : RNum
  omega : RNum
deriving DecidableEq, Repr, Inhabited

/-- The state type of `NoiseMeter` (R189), with the fields of the reference (R202). -/
structure NoiseState where
  dl : List RNum
  lvl : RNum
deriving DecidableEq, Repr, Inhabited

/-- The state type of `RdsFront` (R191), with the fields of the reference (R203); `rdsPh` is `RDS_PH` (R30). -/
structure FrontState where
  dlh : List RNum
  nco : RNum
  dlr : List Cplx
  rdsPh : Nat
deriving DecidableEq, Repr, Inhabited

/-- `n` coefficients `1 / n`: the reference instantiation of `H_AUD` is this for `n = R_AUD` (41_demodulator.md R204).
That `rnd` is not applied to the quotient is the model's choice (log entry 2). -/
def meanFilter (n : Nat) : List RNum := List.replicate n (.rat (mkRat 1 n))

/-- The construction parameters. Where the source gives a literal the field's default is that literal (R8); where it
gives none the default is a value of this model's own choosing, used by `State.reset` only (DESIGN CHOICE, log entry
3: taken from program P3 of 95_test_vectors.md where P3 gives one). -/
structure Config where
  /-- `INPUT_RATE`, samples per second (R6) -/
  inputRate : Nat := 16
  /-- `FM_RATE` (R6) -/
  fmRate : Nat := 16
  /-- `AUDIO_RATE` (R6) -/
  audioRate : Nat := 16
  /-- `ARB_CAP`, in samples (R7) -/
  arbCap : Nat := 16
  /-- `N_FFT` (R7) -/
  nFft : Nat := 8
  /-- `MAX_READERS` (R7) -/
  maxReaders : Nat := 2
  /-- `PEAK_WINDOW` (R8, R176): `floor(FM_RATE / 2)`, at least 1 for every rate that passes R371; its type, the positive
  naturals, is the model's choice (log entry 25) -/
  peakWindow : PNat := (fmRate / 2).toPNat'
  /-- `R_RDS` (R6, R8); its type, the positive naturals, is the model's choice (log entry 25) -/
  rRds : PNat := 8
  /-- `GAIN_FLOOR` (R8) -/
  gainFloor : RNum := .rat (1/10)
  /-- `EMA_OLD` (R8) -/
  emaOld : RNum := .rat (4/5)
  /-- `EMA_NEW` (R8) -/
  emaNew : RNum := .rat (1/5)
  /-- `PILOT_FREQ` in Hz (R8), any real number: the type is the model's choice (log entry 25) -/
  pilotFreq : RNum := .rat 19000
  /-- `PILOT_MARGIN_DB` (R8), any real number of dB; R8 gives no type, and Real is the model's choice (log entry 25) -/
  pilotMarginDb : RNum := .rat 3
  /-- `TAU_50` in seconds (R8), any real number: the type is the model's choice, as for the next two (log entry 25) -/
  tau50 : RNum := .rat (1/20000)
  /-- `TAU_75` in seconds (R8) -/
  tau75 : RNum := .rat (3/40000)
  /-- `TAU_FLAT` in seconds (R8) -/
  tauFlat : RNum := .rat (1/1000000)
  /-- `READ_TIMEOUT_MS` (R8), a natural number by the model's choice (log entry 25); no rule reads it (R431) -/
  readTimeoutMs : Nat := 30000
  /-- `H_IN` (R173) -/
  hIn : List RNum := [.rat 1]
  /-- `MAX_DEV` (R177) -/
  maxDev : RNum := .rat 1
  /-- `NORM_DEV` (R177) -/
  normDev : RNum := .rat 1
  /-- `DELTA_F` in Hz (R178) -/
  deltaF : RNum := .rat 1
  /-- `F_G` in Hz (R178), any real number: R9 calls it positive and no check of R372 keeps it so; it cancels in K and no
  rule reads it (log entry 25) -/
  guardF : RNum := .rat 1
  /-- `G_DIFF` (R183) -/
  gDiff : RNum := .rat 2
  /-- `PILOT_DELAY` in radians (R183) -/
  pilotDelay : RNum := .rat 0
  /-- `H_AUD` (R188), by default the mean of the group (R204) -/
  hAud : List RNum := meanFilter (fmRate / audioRate)
  /-- `TEXT_END` (R133) -/
  textEnd : Byte := 0x0D#8
  /-- `ATT_RESET` (R22) -/
  attReset : Word := 1#32
  /-- `SQ_LEVEL_RESET` (R22) -/
  sqLevelReset : RNum := .rat 0
  /-- `FREQ_RESET` (R50) -/
  freqReset : Word := 100000000#32
  /-- `SIG_LO` (R265) -/
  sigLo : Nat := 2
  /-- `SIG_HI` (R265) -/
  sigHi : Nat := 2
  /-- `NOISE_LO` (R265) -/
  noiseLo : Nat := 1
  /-- `NOISE_HI` (R265) -/
  noiseHi : Nat := 1
  /-- `LOG_FLOOR` (R266) -/
  logFloor : RNum := .rat (1/1000000)
  /-- `rnd` (R12) -/
  rnd : Rounding := .exact
  /-- which `FmDemod` (R179, R200) -/
  fmDemod : Component := .reference
  /-- which `PilotTracker` (R180, R201) -/
  pilot : PilotKind := .reference
  /-- which `NoiseMeter` (R189, R202) -/
  noise : Component := .reference
  /-- which `RdsFront` (R191, R203) -/
  front : Component := .reference
  /-- which `TmcValid` (R239) -/
  tmc : Component := .reference
  /-- which `LogMag` (R266) -/
  logMag : Component := .reference
  /-- `H_PILOT` of the reference `PilotTracker` (R201); here and below no check keeps a parameter of the reference
  components in the ranges R201 to R203 state (log entry 26) -/
  hPilot : List RNum := [.rat 1]
  /-- `H_NOISE` of the reference `PilotTracker` (R201) -/
  hNoise : List RNum := [.rat 1]
  /-- `LEVEL_GAMMA` (R201) -/
  levelGamma : RNum := .rat 1
  /-- `PLL_ALPHA` (R201) -/
  pllAlpha : RNum := .rat 0
  /-- `PLL_BETA` (R201) -/
  pllBeta : RNum := .rat 0
  /-- `OMEGA_MIN` (R201) -/
  omegaMin : RNum := .rat 0
  /-- `OMEGA_MAX` (R201) -/
  omegaMax : RNum := .rat 8000
  /-- `H_SQ` of the reference `NoiseMeter` (R202) -/
  hSq : List RNum := [.rat 1]
  /-- `SQ_GAMMA` (R202) -/
  sqGamma : RNum := .rat 1
  /-- `H_HILB` of the reference `RdsFront` (R203) -/
  hHilb : List RNum := [.rat 1]
  /-- `H_RDS` of the reference `RdsFront` (R203) -/
  hRds : List RNum := [.rat 1]
deriving DecidableEq, Repr, Inhabited

/-- `R_IN = INPUT_RATE / FM_RATE` (R6). -/
def Config.rIn (c : Config) : Nat := c.inputRate / c.fmRate

/-- `R_AUD = FM_RATE / AUDIO_RATE` (R6). -/
def Config.rAud (c : Config) : Nat := c.fmRate / c.audioRate

/-- `FILL`, the space character (R7). -/
def Config.fill : Byte := 0x20#8

/-- `LABEL_LEN` and `TEXT_LEN` (R7). -/
def Config.labelLen : Nat := 8
/-- See `Config.labelLen`. -/
def Config.textLen : Nat := 64

/-! ## Free values (no body: nothing in Lean can evaluate them) -/

/-- `rnd` of implementation `id` (R12): some function of the real number that is the exact result (log entry 2). -/
opaque Config.otherRnd : Nat → ℝ → RNum

/-- `FmDemod` of implementation `id`: total in `K`, the sample and the previous sample, nothing else (R179). -/
opaque Config.otherFmDemod : Nat → ℝ → ℝ × ℝ → ℝ × ℝ → RNum

/-- `PilotTracker.init` of implementation `id` (R180). -/
opaque Config.otherPilotInit : Nat → PilotState

/-- `PilotTracker.step` of implementation `id` (R180). -/
opaque Config.otherPilotStep : Nat → PilotState → ℝ → PilotState

/-- The observers of implementation `id` of `PilotTracker`, before the model imposes R180's ranges on them. -/
opaque Config.otherPilotLevel : Nat → PilotState → RNum
/-- See `Config.otherPilotLevel`. -/
opaque Config.otherNoiseFloor : Nat → PilotState → RNum
/-- See `Config.otherPilotLevel`. -/
opaque Config.otherPhase : Nat → PilotState → RNum

/-- `NoiseMeter` of implementation `id` (R189). -/
opaque Config.otherNoiseInit : Nat → NoiseState
/-- See `Config.otherNoiseInit`. -/
opaque Config.otherNoiseStep : Nat → NoiseState → ℝ → NoiseState
/-- See `Config.otherNoiseInit`. -/
opaque Config.otherNoiseLevel : Nat → NoiseState → RNum

/-- `RdsFront` of implementation `id` (R191): its new state and its baseband value; the model counts `RDS_PH` for it,
so that a value comes out on exactly every `R_RDS`-th call, the 8th by default. -/
opaque Config.otherFrontInit : Nat → FrontState
/-- See `Config.otherFrontInit`. -/
opaque Config.otherFrontStep : Nat → FrontState → Bool → ℝ → ℝ → FrontState × Cplx

/-- `TmcValid` of implementation `id` (R239). -/
opaque Config.otherTmcValid : Nat → BitVec 11 → BitVec 16 → Bool

/-- The de-emphasis coefficient where `FM_RATE · tau + 1` is 0, for which R185 states none (log entry 16). -/
opaque Config.alphaOverZero : Nat → RNum

/-- `LogMag` of implementation `id` below `LOG_FLOOR`, where R266 fixes no value. -/
opaque Config.otherLogMag : Nat → ℝ → RNum

end Sys2Proof
end

