-- ==== Sys2Proof/Machine/Enclose.lean ====
section
/-! DEFINITION. Machine/Enclose.lean: rational bounds of an exact real number. They decide the comparisons of the
rules (41_demodulator.md R176, R181, R189, 43_station_scanner.md R264, R268) where a value is not rational; that the
bounds hold is proved in Laws/Enclose.lean. -/

namespace Sys2Proof

/-- The greatest `m` with `m ^ n ≤ x`, found bit by bit from bit `k - 1` down. -/
def rootBits (n x : Nat) : Nat → Nat → Nat
  | 0, m => m
  | k + 1, m => rootBits n x k (if Nat.pow (m + Nat.pow 2 k) n ≤ x then m + Nat.pow 2 k else m)

/-- The integer part of the n-th root of `x`. -/
def rootFloor (n x : Nat) : Nat := rootBits n x (x.log2 / n + 1) 0

/-- The grid the root bounds are read on: `10 ^ -18`. -/
def rootGrid : Nat := 1000000000000000000

/-- A rational `r` with `r ^ n ≤ q`, for `q ≥ 0`; none if the candidate fails its own check. -/
def rootBelow (n : Nat) (q : Rat) : Option Rat :=
  let a := q.num.toNat
  let m := rootFloor n (a * Nat.pow rootGrid n / q.den)
  if Nat.pow m n * q.den ≤ a * Nat.pow rootGrid n then some (mkRat m rootGrid) else none

/-- A rational `r` with `q ≤ r ^ n`, for `q ≥ 0`; none if the candidate fails its own check. -/
def rootAbove (n : Nat) (q : Rat) : Option Rat :=
  let a := q.num.toNat
  let m := rootFloor n (a * Nat.pow rootGrid n / q.den) + 1
  if a * Nat.pow rootGrid n ≤ Nat.pow m n * q.den then some (mkRat m rootGrid) else none

/-- Twenty digits of π from below and from above. -/
def piBelow : Rat := 314159265358979323846 / 100000000000000000000
/-- See `piBelow`. -/
def piAbove : Rat := 314159265358979323847 / 100000000000000000000

/-- `q` moved down, or up, to a multiple of `10 ^ -30`. -/
def gridBelow (q : Rat) : Rat := mkRat (q * 1000000000000000000000000000000).floor 1000000000000000000000000000000
/-- See `gridBelow`. -/
def gridAbove (q : Rat) : Rat := - gridBelow (-q)

/-- Bounds of `x * x` from bounds of `x`. -/
def squareBounds (l h : Rat) : Rat × Rat :=
  if 0 ≤ l then (l * l, h * h)
  else if h ≤ 0 then (h * h, l * l)
  else (0, max (l * l) (h * h))

/-- `k` doublings of an angle whose cosine lies in the given bounds: `cos 2x = 2 cos² x - 1`. -/
def doubleCos : Nat → Rat × Rat → Rat × Rat
  | 0, b => b
  | k + 1, b =>
    let s := squareBounds b.1 b.2
    doubleCos k (gridBelow (2 * s.1 - 1), gridAbove (2 * s.2 - 1))

/-- Bounds of the cosine of a rational angle: the angle is halved 20 times, bounded by its second order polynomial,
and doubled back. -/
def cosBounds (m : Rat) : Rat × Rat :=
  let c := m / 1048576
  let s := c * c
  doubleCos 20 (gridBelow (1 - s / 2), gridAbove (if s ≤ 1 then 1 - s / 2 + s * s * (5 / 96) else 1))

/-- Bounds of the cosine of an angle that lies in `[l, h]`. -/
def cosSpread (l h : Rat) : Rat × Rat :=
  let b := cosBounds ((l + h) / 2)
  (b.1 - (h - l) / 2, b.2 + (h - l) / 2)

/-- The power the logarithm's digits are read from. -/
def logPower : Nat := 4096

/-- `10 ^ n ≤ (a / b) ^ logPower`, in the naturals. -/
def tenPowLe (n : Int) (a b : Nat) : Bool :=
  match n with
  | .ofNat k => decide (Nat.pow 10 k * Nat.pow b logPower ≤ Nat.pow a logPower)
  | .negSucc k => decide (Nat.pow b logPower ≤ Nat.pow a logPower * Nat.pow 10 (k + 1))

/-- `(a / b) ^ logPower ≤ 10 ^ n`, in the naturals. -/
def lePowTen (n : Int) (a b : Nat) : Bool :=
  match n with
  | .ofNat k => decide (Nat.pow a logPower ≤ Nat.pow 10 k * Nat.pow b logPower)
  | .negSucc k => decide (Nat.pow a logPower * Nat.pow 10 (k + 1) ≤ Nat.pow b logPower)

/-- About `logPower * log10 (a / b)`. -/
def logGuess (a b : Nat) : Int :=
  (((Nat.pow a logPower).log2 : Int) - ((Nat.pow b logPower).log2 : Int)) * 30103 / 100000

/-- A rational at most `log10 q`, for `q > 0`. -/
def logBelow (q : Rat) : Option Rat :=
  let a := q.num.toNat
  let g := logGuess a q.den
  (([g + 2, g + 1, g, g - 1, g - 2].find? fun n => tenPowLe n a q.den)).map fun n => mkRat n logPower

/-- A rational at least `log10 q`, for `q > 0`. -/
def logAbove (q : Rat) : Option Rat :=
  let a := q.num.toNat
  let g := logGuess a q.den
  (([g - 2, g - 1, g, g + 1, g + 2].find? fun n => lePowTen n a q.den)).map fun n => mkRat n logPower

/-- Bounds of `a * b` from the bounds of each. -/
def productBounds (l h l' h' : Rat) : Rat × Rat :=
  (min (min (l * l') (l * h')) (min (h * l') (h * h')), max (max (l * l') (l * h')) (max (h * l') (h * h')))

/-- Bounds of `2 π k`. -/
def turnsBounds (k : Int) : Rat × Rat :=
  if 0 ≤ k then (2 * piBelow * (k : Rat), 2 * piAbove * (k : Rat)) else (2 * piAbove * (k : Rat), 2 * piBelow * (k : Rat))

/-- How many whole turns an angle in `[l, h]` holds, where the bounds settle it. -/
def wholeTurns (l h : Rat) : Option Int :=
  let kl := (if 0 ≤ l then l / (2 * piAbove) else l / (2 * piBelow)).floor
  let kh := (if 0 ≤ h then h / (2 * piBelow) else h / (2 * piAbove)).floor
  if kl = kh then some kl else none

/-- Rational bounds of an exact real number, or none where this arithmetic has none. -/
def RNum.bounds : RNum → Option (Rat × Rat)
  | .rat q => some (q, q)
  | .pi => some (piBelow, piAbove)
  | .sum a b =>
    match a.bounds, b.bounds with
    | some x, some y => some (x.1 + y.1, x.2 + y.2)
    | _, _ => none
  | .prod a b =>
    match a.bounds, b.bounds with
    | some x, some y => if a = b then some (squareBounds x.1 x.2) else some (productBounds x.1 x.2 y.1 y.2)
    | _, _ => none
  | .recip a =>
    match a.bounds with
    | some x => if 0 < x.1 ∨ x.2 < 0 then some (x.2⁻¹, x.1⁻¹) else none
    | none => none
  | .larger a b =>
    match a.bounds, b.bounds with
    | some x, some y => some (max x.1 y.1, max x.2 y.2)
    | _, _ => none
  | .smaller a b =>
    match a.bounds, b.bounds with
    | some x, some y => some (min x.1 y.1, min x.2 y.2)
    | _, _ => none
  | .modulus a =>
    match a.bounds with
    | some x => if 0 ≤ x.1 then some x else if x.2 ≤ 0 then some (-x.2, -x.1) else some (0, max (-x.1) x.2)
    | none => none
  | .root n a =>
    match a.bounds with
    | some x =>
      if 0 < n ∧ 0 ≤ x.1 then
        match rootBelow n x.1, rootAbove n x.2 with
        | some l, some h => some (l, h)
        | _, _ => none
      else none
    | none => none
  | .cosine a =>
    match a.bounds with
    | some x => some (cosSpread x.1 x.2)
    | none => none
  | .sine a =>
    match a.bounds with
    | some x => some (cosSpread (piBelow / 2 - x.2) (piAbove / 2 - x.1))
    | none => none
  | .logTen a =>
    match a.bounds with
    | some x =>
      if 0 < x.1 then
        match logBelow x.1, logAbove x.2 with
        | some l, some h => some (l, h)
        | _, _ => none
      else none
    | none => none
  | .powTen _ => none
  | .turn a =>
    match a.bounds with
    | some x =>
      match wholeTurns x.1 x.2 with
      | some k => some (x.1 - (turnsBounds k).2, x.2 - (turnsBounds k).1)
      | none => some (0, 2 * piAbove)
    | none => some (0, 2 * piAbove)

end Sys2Proof
end

