-- ==== Sys2Proof/Machine/Num.lean ====
section
/-! DEFINITION. Machine/Num.lean: the arithmetic of the rules, exact in the real numbers (00_scope.md R12, R14,
40_common_semantics.md R162, R163). Every operation folds a rational result to `rat`; Laws/Num.lean proves that each
denotes the real operation of its name. -/

namespace Sys2Proof

/-- A number as a rational coefficient and what it multiplies (none: the number is rational). -/
def RNum.split : RNum → Rat × Option RNum
  | .rat q => (q, none)
  | .prod (.rat q) x => (q, some x)
  | x => (1, some x)

/-- The product of a rational and an atom. -/
def RNum.join (q : Rat) : Option RNum → RNum
  | none => .rat q
  | some x => if q = 0 then .rat 0 else if q = 1 then x else .prod (.rat q) x

/-- The product of two atoms, as a coefficient and an atom; `π` and `1 / π` cancel, and so do two equal square roots
of a rational. -/
def RNum.joinAtoms : RNum → RNum → Rat × Option RNum
  | .pi, .recip .pi => (1, none)
  | .recip .pi, .pi => (1, none)
  | .root 2 (.rat p), .root 2 (.rat q) =>
    if p = q ∧ 0 ≤ p then (p, none) else (1, some (.prod (.root 2 (.rat p)) (.root 2 (.rat q))))
  | x, y => (1, some (.prod x y))

/-- A rational times a number, term by term. -/
def RNum.scale (q : Rat) : RNum → RNum
  | .sum a b => if q = 0 then .rat 0 else .sum (a.scale q) (b.scale q)
  | x => RNum.join (q * x.split.1) x.split.2

/-- One term added to a sum of terms, to the term of the same atom where there is one. -/
def RNum.addTerm (t : RNum) : RNum → RNum
  | .sum a b =>
    if a.split.2 = t.split.2 then
      if a.split.1 + t.split.1 = 0 then b else .sum (RNum.join (a.split.1 + t.split.1) a.split.2) b
    else .sum a (RNum.addTerm t b)
  | b =>
    if b.split.2 = t.split.2 then RNum.join (b.split.1 + t.split.1) b.split.2
    else if b.split.1 = 0 then t
    else if t.split.1 = 0 then b
    else .sum b t

/-- Zero and one. -/
def RNum.zero : RNum := .rat 0
/-- See `RNum.zero`. -/
def RNum.one : RNum := .rat 1
/-- A natural number as a real. -/
def RNum.ofNat (n : Nat) : RNum := .rat (n : Rat)

/-- `a + b`. -/
def RNum.add (a b : RNum) : RNum :=
  match a with
  | .sum x y => RNum.addTerm x (RNum.add y b)
  | x => RNum.addTerm x b

/-- `a * b`. -/
def RNum.mul (a b : RNum) : RNum :=
  match a.split.2, b.split.2 with
  | none, _ => b.scale a.split.1
  | _, none => a.scale b.split.1
  | some x, some y =>
    RNum.join (a.split.1 * b.split.1 * (RNum.joinAtoms x y).1) (RNum.joinAtoms x y).2

/-- `- a`. -/
def RNum.neg (a : RNum) : RNum := a.scale (-1)

/-- `a - b`. -/
def RNum.sub (a b : RNum) : RNum := if a = b then .rat 0 else a.add b.neg

/-- `1 / a`; the rules never divide by zero (R12), and `1 / 0` is 0 here (log entry 16). -/
def RNum.inv (a : RNum) : RNum :=
  match a.split.2 with
  | none => .rat (a.split.1)⁻¹
  | some (.recip y) => RNum.join (a.split.1)⁻¹ (some y)
  | some x => RNum.join (a.split.1)⁻¹ (some (.recip x))

/-- `a / b`. -/
def RNum.div (a b : RNum) : RNum := a.mul b.inv

/-- The value a property determines. Nothing in it is chosen by the model where the property has one solution, as every
use below has; no evaluation finds the value, so a computation that needs it does not end, and the kernel knows of it
what the property says. It stands for what the spec defines and no arithmetic of this model decides (log entry 1). -/
def determinedOf {α : Type} [Nonempty α] (u : Unit) : α := determinedOf u
partial_fixpoint

theorem nonempty_of_exists {α : Type} {P : α → Prop} (h : ∃ x, P x) : Nonempty { x // P x } :=
  h.elim fun x hx => ⟨⟨x, hx⟩⟩

/-- See `determinedOf`. -/
def determined {α : Type} (P : α → Prop) (h : ∃ x, P x) : { x // P x } := @determinedOf _ (nonempty_of_exists h) ()

theorem exists_bool (p : Prop) : ∃ r : Bool, (r = true ↔ p) := by
  by_cases h : p
  · exact ⟨true, by simp [h]⟩
  · exact ⟨false, by simp [h]⟩

/-- Whether `a < b` in the real numbers. -/
def RNum.trueLess (a b : RNum) : { r : Bool // r = true ↔ a.toReal < b.toReal } := determined _ (exists_bool _)

/-- Whether `a < b`, where the enclosures settle it. -/
def RNum.decideLt (a b : RNum) : Option Bool :=
  match b.sub a with
  | .rat q => some (decide (0 < q))
  | d =>
    match d.bounds with
    | some x => if 0 < x.1 then some true else if x.2 ≤ 0 then some false else none
    | none => none

/-- `a < b` in the real numbers (R12): by the enclosures where they separate the two, else as the real numbers do (log
entry 1). -/
def RNum.lt (a b : RNum) : Bool :=
  match a.decideLt b with
  | some r => r
  | none => (RNum.trueLess a b).1

/-- `a ≤ b`. -/
def RNum.le (a b : RNum) : Bool := !(b.lt a)

/-- `a = b` as real numbers. -/
def RNum.eqv (a b : RNum) : Bool := !(a.lt b) && !(b.lt a)

/-- `max a b`. -/
def RNum.max (a b : RNum) : RNum :=
  match a.decideLt b with
  | some true => b
  | some false => a
  | none => .larger a b

/-- `min a b`. -/
def RNum.min (a b : RNum) : RNum :=
  match b.decideLt a with
  | some true => b
  | some false => a
  | none => .smaller a b

/-- `|a|`. -/
def RNum.abs (a : RNum) : RNum :=
  match a.decideLt RNum.zero with
  | some true => a.neg
  | some false => a
  | none => .modulus a

/-- The n-th root: exact where it is rational. -/
def RNum.nroot (n : Nat) (a : RNum) : RNum :=
  match a with
  | .rat q =>
    let m := rootFloor n q.num.toNat
    let d := rootFloor n q.den
    if 0 < n ∧ 0 ≤ q ∧ 0 < d ∧ Nat.pow m n = q.num.toNat ∧ Nat.pow d n = q.den then .rat (mkRat m d) else .root n a
  | _ => .root n a

/-- The square root. -/
def RNum.sqrt (a : RNum) : RNum := RNum.nroot 2 a

/-- `q` where the number is `q π`. -/
def RNum.asPi : RNum → Option Rat
  | .pi => some 1
  | .prod (.rat q) .pi => some q
  | .rat q => if q = 0 then some 0 else none
  | _ => none

/-- The cosine of `q π` for `0 ≤ q ≤ 1/2`: exact at 0, π/4, π/3 and π/2. -/
def cosFirst (q : Rat) : RNum :=
  if q = 0 then .rat 1
  else if q = 1/2 then .rat 0
  else if q = 1/3 then .rat (1/2)
  else if q = 1/4 then .root 2 (.rat (1/2))
  else .cosine (RNum.join q (some .pi))

/-- The cosine of `q π`, brought to the first quarter turn by symmetry. -/
def cosTurns (q : Rat) : RNum :=
  let r := q - 2 * ((q / 2).floor : Rat)
  let r := if 1 < r then 2 - r else r
  if 1/2 < r then (cosFirst (1 - r)).neg else cosFirst r

/-- `cos a`. -/
def RNum.cos (a : RNum) : RNum :=
  match a.asPi with
  | some q => cosTurns q
  | none => .cosine a

/-- `sin a`. -/
def RNum.sin (a : RNum) : RNum :=
  match a.asPi with
  | some q => cosTurns (1/2 - q)
  | none => .sine a

/-- `log10 a`. -/
def RNum.log10 (a : RNum) : RNum := if a = .rat 1 then .rat 0 else .logTen a

/-- `10 ^ a`: a root of a power of ten where `a` is rational. -/
def RNum.tenPow (a : RNum) : RNum :=
  match a with
  | .rat q =>
    match q.num with
    | .ofNat k => RNum.nroot q.den (RNum.ofNat (Nat.pow 10 k))
    | .negSucc k => (RNum.nroot q.den (RNum.ofNat (Nat.pow 10 (k + 1)))).inv
  | _ => .powTen a

/-- `a mod 2π`, in `[0, 2π)` (R14). -/
def RNum.modTurn (a : RNum) : RNum :=
  match a.asPi with
  | some q => RNum.join (q - 2 * ((q / 2).floor : Rat)) (some .pi)
  | none => .turn a

/-! ## Rounded arithmetic (R12): `rnd` applied to the result of an operation (log entry 2) -/

/-- `rnd` of implementation `id` at the real number `x` is. -/
def roundedBy (id : Nat) (x : RNum) : { y // y = Config.otherRnd id x.toReal } := determined _ ⟨_, rfl⟩

/-- `rnd`. -/
def Config.round (c : Config) (x : RNum) : RNum :=
  match c.rnd with
  | .exact => x
  | .other id => (roundedBy id x).1

/-- `a + b`, rounded. -/
def Config.add (c : Config) (a b : RNum) : RNum := c.round (a.add b)
/-- `a - b`, rounded. -/
def Config.sub (c : Config) (a b : RNum) : RNum := c.round (a.sub b)
/-- `a * b`, rounded. -/
def Config.mul (c : Config) (a b : RNum) : RNum := c.round (a.mul b)
/-- `a / b`, rounded. -/
def Config.div (c : Config) (a b : RNum) : RNum := c.round (a.div b)
/-- `- a`, rounded. -/
def Config.neg (c : Config) (a : RNum) : RNum := c.round a.neg
/-- `sqrt a`, rounded. -/
def Config.sqrt (c : Config) (a : RNum) : RNum := c.round a.sqrt
/-- `cos a`, rounded. -/
def Config.cos (c : Config) (a : RNum) : RNum := c.round a.cos
/-- `sin a`, rounded. -/
def Config.sin (c : Config) (a : RNum) : RNum := c.round a.sin
/-- `log10 a`, rounded. -/
def Config.log10 (c : Config) (a : RNum) : RNum := c.round a.log10
/-- `10 ^ a`, rounded. -/
def Config.tenPow (c : Config) (a : RNum) : RNum := c.round a.tenPow
/-- `a mod 2π`, rounded. -/
def Config.modTurn (c : Config) (a : RNum) : RNum := c.round a.modTurn

/-! ## Two-lane values (R13, R163) -/

/-- `(0, 0)`. -/
def Cplx.zero : Cplx := ⟨.rat 0, .rat 0⟩
/-- Lane-wise sum. -/
def Cplx.add (c : Config) (a b : Cplx) : Cplx := ⟨c.add a.re b.re, c.add a.im b.im⟩
/-- A real times a complex value. -/
def Cplx.smul (c : Config) (k : RNum) (a : Cplx) : Cplx := ⟨c.mul k a.re, c.mul k a.im⟩
/-- The complex product (R163). -/
def Cplx.mul (c : Config) (a b : Cplx) : Cplx :=
  ⟨c.sub (c.mul a.re b.re) (c.mul a.im b.im), c.add (c.mul a.re b.im) (c.mul a.im b.re)⟩
/-- `re² + im²`. -/
def Cplx.normSq (c : Config) (a : Cplx) : RNum := c.add (c.mul a.re a.re) (c.mul a.im a.im)
/-- `|z| = sqrt (re² + im²)` (R12). -/
def Cplx.abs (c : Config) (a : Cplx) : RNum := c.sqrt (a.normSq c)
/-- `exp (i θ) = (cos θ, sin θ)` (R14). -/
def Cplx.cis (c : Config) (θ : RNum) : Cplx := ⟨c.cos θ, c.sin θ⟩

/-- `(0, 0)`. -/
def Frame.zero : Frame := ⟨.rat 0, .rat 0⟩
/-- Lane-wise sum. -/
def Frame.add (c : Config) (a b : Frame) : Frame := ⟨c.add a.l b.l, c.add a.r b.r⟩
/-- A real times a frame. -/
def Frame.smul (c : Config) (k : RNum) (a : Frame) : Frame := ⟨c.mul k a.l, c.mul k a.r⟩

/-! ## Filters: `sum over k of H[k] * dl[k]`, the newest sample at `dl[0]` -/

/-- `[x] ++ dl[0 .. L-2]`: the newest value first, the oldest falls out (R173). -/
def shiftIn {α : Type} (len : Nat) (x : α) (dl : List α) : List α := (x :: dl).take len

/-- A FIR over reals. -/
def firReal (c : Config) : List RNum → List RNum → RNum
  | h :: hs, x :: xs => c.add (c.mul h x) (firReal c hs xs)
  | _, _ => .rat 0

/-- A FIR over complex values, lane by lane. -/
def firCplx (c : Config) : List RNum → List Cplx → Cplx
  | h :: hs, x :: xs => Cplx.add c (Cplx.smul c h x) (firCplx c hs xs)
  | _, _ => Cplx.zero

/-- A FIR over frames, lane by lane. -/
def firFrame (c : Config) : List RNum → List Frame → Frame
  | h :: hs, x :: xs => Frame.add c (Frame.smul c h x) (firFrame c hs xs)
  | _, _ => Frame.zero

end Sys2Proof
end

