-- ==== Sys2Proof/Machine/Float.lean ====
section
/-! DEFINITION. Machine/Float.lean: the binary32 words of the ports (30_encoding.md R123, R148;
40_common_semantics.md R162; 93_implementation_defined.md G4). Inside the block every value is an exact real. -/

namespace Sys2Proof

/-- Exponent field of a binary32 word. -/
def f32Exp (w : Word) : Nat := (w.extractLsb' 23 8).toNat

/-- Fraction field of a binary32 word. -/
def f32Frac (w : Word) : Nat := (w.extractLsb' 0 23).toNat

/-- Exponent field 0xFF is an infinity or a NaN and no value (R123). -/
def f32Finite (w : Word) : Bool := f32Exp w != 255

/-- The magnitude of a finite binary32 word; subnormals are ordinary values. -/
def f32Magnitude (w : Word) : Rat :=
  if f32Exp w = 0 then mkRat (f32Frac w) (Nat.pow 2 149)
  else if 150 ≤ f32Exp w then mkRat ((8388608 + f32Frac w) * Nat.pow 2 (f32Exp w - 150)) 1
  else mkRat (8388608 + f32Frac w) (Nat.pow 2 (150 - f32Exp w))

/-- The exact value of a finite binary32 word; -0 converts to 0 (R123). -/
def f32Value (w : Word) : Rat := if w.getLsbD 31 then - f32Magnitude w else f32Magnitude w

/-- An f32 operand as a real, none where the pattern is not a value (R123, R140). -/
def f32Operand (w : Word) : Option RNum := if f32Finite w then some (.rat (f32Value w)) else none

/-- `a / b` rounded to the nearest natural, ties to even. -/
def roundEven (a b : Nat) : Nat :=
  let q := a / b
  let r := a % b
  if b < 2 * r ∨ (2 * r = b ∧ q % 2 = 1) then q + 1 else q

/-- The exponent `e` with `2 ^ e ≤ a / b < 2 ^ (e + 1)`, for positive `a`, `b`. -/
def binaryExp (a b : Nat) : Int :=
  let e : Int := (a.log2 : Int) - (b.log2 : Int)
  let below : Bool := match e with
    | .ofNat k => decide (Nat.pow 2 k * b ≤ a)
    | .negSucc k => decide (b ≤ a * Nat.pow 2 (k + 1))
  if below then e else e - 1

/-- The low 31 bits of the binary32 nearest to the positive rational `a / b`, ties to even (R148). A value that rounds
past the largest finite one gives the infinity pattern (log entry 13). -/
def f32Bits (a b : Nat) : Nat :=
  let e := max (binaryExp a b) (-126)
  let n := match e - 23 with
    | .ofNat k => roundEven a (Nat.pow 2 k * b)
    | .negSucc k => roundEven (a * Nat.pow 2 (k + 1)) b
  min ((e + 126).toNat * 8388608 + n) 2139095040

/-- The binary32 word nearest to a rational, ties to even (R148). 0 gives +0, and a negative value that rounds to zero
gives -0: both are the model's choice (log entry 13). -/
def f32OfRat (q : Rat) : Word :=
  if q = 0 then 0#32
  else if q < 0 then BitVec.ofNat 32 (2147483648 + f32Bits q.num.natAbs q.den)
  else BitVec.ofNat 32 (f32Bits q.num.natAbs q.den)

open Classical in
/-- A real rounded to the nearest natural, ties to even. -/
noncomputable def roundEvenReal (x : ℝ) : Nat :=
  if 1 / 2 < Int.fract x ∨ (Int.fract x = 1 / 2 ∧ ⌊x⌋₊ % 2 = 1) then ⌊x⌋₊ + 1 else ⌊x⌋₊

/-- The low 31 bits of the binary32 nearest to a positive real, ties to even: `f32Bits` in the real numbers. -/
noncomputable def f32BitsReal (m : ℝ) : Nat :=
  min ((max (Int.log 2 m) (-126) + 126).toNat * 8388608 + roundEvenReal (m / 2 ^ (max (Int.log 2 m) (-126) - 23)))
    2139095040

open Classical in
/-- The binary32 word nearest to a real, ties to even (R148): `f32OfRat` in the real numbers. The sign of a zero and the
pattern past the largest finite value are the model's choice (log entry 13). -/
noncomputable def f32OfReal (x : ℝ) : Word :=
  if x = 0 then 0#32
  else if x < 0 then BitVec.ofNat 32 (2147483648 + f32BitsReal (-x))
  else BitVec.ofNat 32 (f32BitsReal x)

/-- The nearest word of the real number an expression stands for is. -/
def nearestWord (x : RNum) : { w : Word // w = f32OfReal x.toReal } := determined _ ⟨_, rfl⟩

/-- The word an output port carries for a real (R148): nearest, ties to even. -/
def f32Word (x : RNum) : Word :=
  match x with
  | .rat q => f32OfRat q
  | y => (nearestWord y).1

end Sys2Proof
end

