-- ==== Sys2Proof/Syntax.lean ====
section
/-! DEFINITION. Syntax.lean: the ports, the enumerations of 30_encoding.md R129, and the operations: one constructor
of `Instr` per row of spec/opcode_table.json. -/

namespace Sys2Proof

/-- The ports an operation can be presented at (R121, R385), and the block's own internal path, which carries the
operations one unit takes on another (R128) and is no port (log entry 6). -/
inductive Port where
  | cp | ap | sp | gp | tk | fn
  | inside
deriving DecidableEq, Repr, Inhabited

/-- `MODE` (R21, R129). -/
inductive Mode where
  | mono | stereo
deriving DecidableEq, Repr, Inhabited

/-- `CHAN` (R21, R129). -/
inductive Chan where
  | stereo | left | right | sum | diff
deriving DecidableEq, Repr, Inhabited

/-- `DEEMPH` (R21, R129). -/
inductive Deemph where
  | flat | t50 | t75
deriving DecidableEq, Repr, Inhabited

/-- `RDS_MODE` (R21, R129). -/
inductive RdsMode where
  | off | v1 | v2
deriving DecidableEq, Repr, Inhabited

/-- The operations. An operand of type f32 is kept as its port word (R123); a reader id is the header's `imm16`. -/
inductive Instr where
  -- control port (R125)
  | start
  | stop
  | tune (freq : Word)
  | getfreq
  | seek (thr fmin fmax step interval token : Word)
  | cancelseek
  | setchan (chan : Chan)
  | setdeemph (deemph : Deemph)
  | setsquelch (en : Bool) (level : Word)
  | setgain (level : Word)
  | setrdsmode (mode : RdsMode)
  | setmode (mode : Mode)
  -- audio port (R126)
  | read (r : BitVec 16) (frames : Word)
  | waiting
  | cancel
  | flush
  -- environment (R127)
  | sample (i q : Word)
  | group (ab cd : Word)
  | tick
  | timeout (r : BitVec 16)
  | freqchg (freq : Word)
  | wake (r : BitVec 16)
  -- internal (R128)
  | write (samples : List Word)
  | scanstart (thr token : Word)
  | scanstop
  | scanq
  | scanfeed (i q : Word)
  | rdsreset
  -- group types (R131 to R135); fields FMRX does not use are carried and change nothing (R142)
  | rdsGB (pi : Block) (gtype : BitVec 4) (tp : BitVec 1) (pty rest : BitVec 5) (c d : Block)
  | rdsG0A (pi : Block) (tp : BitVec 1) (pty : BitVec 5) (taMsDi : BitVec 3) (idx : BitVec 2) (af : Block) (c0 c1 : Byte)
  | rdsG1A (pi : Block) (tp : BitVec 1) (pty rest : BitVec 5) (c d : Block)
  | rdsG2A (pi : Block) (tp : BitVec 1) (pty : BitVec 5) (ab : BitVec 1) (idx : BitVec 4) (t0 t1 t2 t3 : Byte)
  | rdsG3A (pi : Block) (tp : BitVec 1) (pty rest : BitVec 5) (c d : Block)
  | rdsG4A (pi : Block) (tp : BitVec 1) (pty : BitVec 5) (spare : BitVec 3) (day : BitVec 17) (hour : BitVec 5) (minute : BitVec 6) (offset : BitVec 6)
  | rdsG5A (pi : Block) (tp : BitVec 1) (pty rest : BitVec 5) (c d : Block)
  | rdsG6A (pi : Block) (tp : BitVec 1) (pty rest : BitVec 5) (c d : Block)
  | rdsG7A (pi : Block) (tp : BitVec 1) (pty rest : BitVec 5) (c d : Block)
  | rdsG8A (pi : Block) (tp : BitVec 1) (pty : BitVec 5) (t f : BitVec 1) (dp : BitVec 3) (d dir : BitVec 1) (extent : BitVec 3) (event : BitVec 11) (location : BitVec 16)
  | rdsG9A (pi : Block) (tp : BitVec 1) (pty rest : BitVec 5) (c d : Block)
  | rdsG10A (pi : Block) (tp : BitVec 1) (pty rest : BitVec 5) (c d : Block)
  | rdsG11A (pi : Block) (tp : BitVec 1) (pty rest : BitVec 5) (c d : Block)
  | rdsG12A (pi : Block) (tp : BitVec 1) (pty rest : BitVec 5) (c d : Block)
  | rdsG13A (pi : Block) (tp : BitVec 1) (pty rest : BitVec 5) (c d : Block)
  | rdsG14A (pi : Block) (tp : BitVec 1) (pty rest : BitVec 5) (c d : Block)
  | rdsG15A (pi : Block) (tp : BitVec 1) (pty rest : BitVec 5) (c d : Block)
deriving DecidableEq, Repr, Inhabited

end Sys2Proof
end

