-- ==== Sys2Proof/WellFormed.lean ====
section
/-! DEFINITION. WellFormed.lean: what an operation must be to have an encoding the block accepts (30_encoding.md
R140): finite f32 operands, and an even `WRITE` count that fits `imm16`. -/

namespace Sys2Proof

/-- `WRITE`'s samples: an even count that fits `imm16`, every word a value (R128, R140). -/
def writeWellFormed (ws : List Word) : Bool :=
  decide (ws.length < 65536) && decide (ws.length % 2 = 0) && ws.all f32Finite

/-- The operation is well formed: some word sequence encodes it and no argument check of R140 refuses it. -/
def Instr.wellFormed : Instr → Bool
  | .seek thr _ _ _ _ _ => f32Finite thr
  | .setsquelch _ level => f32Finite level
  | .sample i q => f32Finite i && f32Finite q
  | .write ws => writeWellFormed ws
  | .scanstart thr _ => f32Finite thr
  | .scanfeed i q => f32Finite i && f32Finite q
  | .start => true
  | .stop => true
  | .tune _ => true
  | .getfreq => true
  | .cancelseek => true
  | .setchan _ => true
  | .setdeemph _ => true
  | .setgain _ => true
  | .setrdsmode _ => true
  | .setmode _ => true
  | .read _ _ => true
  | .waiting => true
  | .cancel => true
  | .flush => true
  | .group _ _ => true
  | .tick => true
  | .timeout _ => true
  | .freqchg _ => true
  | .wake _ => true
  | .scanstop => true
  | .scanq => true
  | .rdsreset => true
  | .rdsGB _ _ _ _ _ _ _ => true
  | .rdsG0A _ _ _ _ _ _ _ _ => true
  | .rdsG1A _ _ _ _ _ _ => true
  | .rdsG2A _ _ _ _ _ _ _ _ _ => true
  | .rdsG3A _ _ _ _ _ _ => true
  | .rdsG4A _ _ _ _ _ _ _ _ => true
  | .rdsG5A _ _ _ _ _ _ => true
  | .rdsG6A _ _ _ _ _ _ => true
  | .rdsG7A _ _ _ _ _ _ => true
  | .rdsG8A _ _ _ _ _ _ _ _ _ _ _ => true
  | .rdsG9A _ _ _ _ _ _ => true
  | .rdsG10A _ _ _ _ _ _ => true
  | .rdsG11A _ _ _ _ _ _ => true
  | .rdsG12A _ _ _ _ _ _ => true
  | .rdsG13A _ _ _ _ _ _ => true
  | .rdsG14A _ _ _ _ _ _ => true
  | .rdsG15A _ _ _ _ _ _ => true

end Sys2Proof
end

