-- ==== Sys2Proof/Decode.lean ====
section
/-! DEFINITION. Decode.lean: operation words and RDS groups read into `Instr` (30_encoding.md R120 to R142), every
malformed one rejected by name, and the encoder written from the same tables. -/

namespace Sys2Proof

/-- Why a word sequence is not an operation the block performs (R140, R373). -/
inductive Reject where
  /-- the opcode is in none of the tables of R125 to R128: ERR_OP -/
  | unassigned
  /-- `rsv` is not 0: ERR_ARG -/
  | reserved
  /-- `imm16` is not 0 where it must be: ERR_ARG -/
  | immediate
  /-- an enumeration code outside its table: ERR_ARG -/
  | enumeration
  /-- bits [15:1] of `SETSQUELCH`'s `imm16` are not 0: ERR_ARG -/
  | squelchBits
  /-- an f32 operand that is an infinity or a NaN, of an operation that has a status: ERR_ARG -/
  | nonFinite
  /-- the same of `SAMPLE`, `SCANFEED` and `WRITE`, which R373 drops without a response -/
  | nonFiniteStream
  /-- `WRITE`'s `imm16` is odd: ERR_ARG -/
  | oddCount
  /-- operand words are missing: the operation has not arrived whole (log entry 10) -/
  | truncated
deriving DecidableEq, Repr, Inhabited

/-- What one port delivery carries: the words of an operation, or the 64 bits of a group as format G numbers them
(R130, log entry 7). -/
inductive Wire where
  | op (ws : List Word)
  | group (g : BitVec 64)
deriving DecidableEq, Repr, Inhabited

/-! ## Format H (R122 to R129) -/

/-- `op`, header bits [31:24]. -/
def opOf (h : Word) : BitVec 8 := h.extractLsb' 24 8
/-- `rsv`, header bits [23:16]. -/
def rsvOf (h : Word) : BitVec 8 := h.extractLsb' 16 8
/-- `imm16`, header bits [15:0]. -/
def immOf (h : Word) : BitVec 16 := h.extractLsb' 0 16

/-- The header of an operation. -/
def header (op : BitVec 8) (imm : BitVec 16) : Word := op ++ 0#8 ++ imm

/-- Operand count and accepting ports of an opcode (R124 to R128), none where it is unassigned (R142). -/
def opInfo (op : Nat) (imm : BitVec 16) : Option (Nat × List Port) :=
  match op with
  | 0x01 => some (0, [.cp])
  | 0x02 => some (0, [.cp])
  | 0x10 => some (1, [.cp])
  | 0x11 => some (0, [.cp])
  | 0x12 => some (6, [.cp])
  | 0x13 => some (0, [.cp])
  | 0x20 => some (0, [.cp])
  | 0x21 => some (0, [.cp])
  | 0x22 => some (1, [.cp])
  | 0x23 => some (1, [.cp])
  | 0x24 => some (0, [.cp])
  | 0x25 => some (0, [.cp])
  | 0x40 => some (1, [.ap])
  | 0x41 => some (0, [.ap])
  | 0x42 => some (0, [.ap, .cp])
  | 0x43 => some (0, [.ap, .cp])
  | 0x80 => some (2, [.sp])
  | 0x81 => some (2, [.gp])
  | 0x82 => some (0, [.tk])
  | 0x83 => some (0, [.tk])
  | 0x84 => some (1, [.fn])
  | 0x85 => some (0, [.ap])
  | 0x90 => some (imm.toNat, [.inside])
  | 0x91 => some (2, [.inside])
  | 0x92 => some (0, [.inside])
  | 0x93 => some (0, [.inside])
  | 0x94 => some (2, [.inside])
  | 0x95 => some (0, [.inside])
  | _ => none

/-- The info of a header word. -/
def headerInfo (h : Word) : Option (Nat × List Port) := opInfo (opOf h).toNat (immOf h)

/-- The length of an operation in words; an unassigned opcode has no operands (R124, log entry 10). -/
def opLength (h : Word) : Nat :=
  match headerInfo h with
  | some x => 1 + x.1
  | none => 1

/-- Whether a port accepts an operation (R125 to R128, R385). -/
def portAccepts (p : Port) (h : Word) : Bool :=
  match headerInfo h with
  | some x => x.2.contains p
  | none => false

/-- The port an operation belongs to; CP for an unassigned opcode. -/
def homePort (h : Word) : Port :=
  match headerInfo h with
  | some x => x.2.headD .cp
  | none => .cp

/-- Enumeration codes (R129). -/
def chanOf (imm : BitVec 16) : Option Chan :=
  match imm.toNat with
  | 0 => some .stereo
  | 1 => some .left
  | 2 => some .right
  | 3 => some .sum
  | 4 => some .diff
  | _ => none

/-- See `chanOf`. -/
def deemphOf (imm : BitVec 16) : Option Deemph :=
  match imm.toNat with
  | 0 => some .flat
  | 1 => some .t50
  | 2 => some .t75
  | _ => none

/-- See `chanOf`. -/
def rdsModeOf (imm : BitVec 16) : Option RdsMode :=
  match imm.toNat with
  | 0 => some .off
  | 1 => some .v1
  | 2 => some .v2
  | _ => none

/-- See `chanOf`. -/
def modeOf (imm : BitVec 16) : Option Mode :=
  match imm.toNat with
  | 0 => some .mono
  | 1 => some .stereo
  | _ => none

/-- The code of an enumeration value (R129). -/
def Chan.code : Chan → BitVec 16
  | .stereo => 0#16
  | .left => 1#16
  | .right => 2#16
  | .sum => 3#16
  | .diff => 4#16

/-- See `Chan.code`. -/
def Deemph.code : Deemph → BitVec 16
  | .flat => 0#16
  | .t50 => 1#16
  | .t75 => 2#16

/-- See `Chan.code`. -/
def RdsMode.code : RdsMode → BitVec 16
  | .off => 0#16
  | .v1 => 1#16
  | .v2 => 2#16

/-- See `Chan.code`. -/
def Mode.code : Mode → BitVec 16
  | .mono => 0#16
  | .stereo => 1#16

/-- An operation whose `imm16` must be 0, tested before what `r` tests (log entry 23). -/
def immZero (imm : BitVec 16) (r : Except Reject Instr) : Except Reject Instr :=
  if imm = 0#16 then r else .error .immediate

/-- An operation whose `imm16` must be 0 and of which nothing else is tested. -/
def noImm (imm : BitVec 16) (i : Instr) : Except Reject Instr := immZero imm (.ok i)

/-- An operation whose `imm16` is an enumeration code. -/
def byCode {α : Type} (x : Option α) (mk : α → Instr) : Except Reject Instr :=
  match x with
  | some a => .ok (mk a)
  | none => .error .enumeration

/-- An operation without operand words. -/
def args0 (ws : List Word) (r : Except Reject Instr) : Except Reject Instr :=
  match ws with
  | [] => r
  | _ => .error .truncated

/-- An operation with one operand word. -/
def args1 (ws : List Word) (r : Word → Except Reject Instr) : Except Reject Instr :=
  match ws with
  | [a] => r a
  | _ => .error .truncated

/-- An operation with two operand words. -/
def args2 (ws : List Word) (r : Word → Word → Except Reject Instr) : Except Reject Instr :=
  match ws with
  | [a, b] => r a b
  | _ => .error .truncated

/-- An operation with six operand words. -/
def args6 (ws : List Word) (r : Word → Word → Word → Word → Word → Word → Except Reject Instr) :
    Except Reject Instr :=
  match ws with
  | [a, b, c, d, e, f] => r a b c d e f
  | _ => .error .truncated

/-- An operation with f32 operands: their patterns must be values (R123, R140). -/
def ifFinite (ok : Bool) (e : Reject) (r : Except Reject Instr) : Except Reject Instr := if ok then r else .error e

/-- `SETSQUELCH`'s arguments: `en` in bit 0 of `imm16`, the other bits 0 (R125, R140). -/
def squelchArgs (imm : BitVec 16) (level : Word) : Except Reject Instr :=
  if imm.extractLsb' 1 15 = 0#15 then ifFinite (f32Finite level) .nonFinite (.ok (.setsquelch (imm.getLsbD 0) level))
  else .error .squelchBits

/-- `WRITE`'s arguments: `imm16` samples, an even count (R128, R140); the count is tested before the samples (log entry
23). -/
def writeArgs (imm : BitVec 16) (ws : List Word) : Except Reject Instr :=
  if imm.toNat % 2 = 1 then .error .oddCount
  else ifFinite (ws.all f32Finite) .nonFiniteStream (.ok (.write ws))

/-- Operation `op` with its immediate and its operand words (R125 to R128); `rsv` has been checked. The
immediate is tested before the operand words, which is the model's choice (log entry 23). -/
def decodeArgs (op : Nat) (imm : BitVec 16) (ws : List Word) : Except Reject Instr :=
  match op with
  | 0x01 => args0 ws (noImm imm .start)
  | 0x02 => args0 ws (noImm imm .stop)
  | 0x10 => args1 ws fun f => noImm imm (.tune f)
  | 0x11 => args0 ws (noImm imm .getfreq)
  | 0x12 => args6 ws fun thr lo hi step interval token =>
      immZero imm (ifFinite (f32Finite thr) .nonFinite (.ok (.seek thr lo hi step interval token)))
  | 0x13 => args0 ws (noImm imm .cancelseek)
  | 0x20 => args0 ws (byCode (chanOf imm) .setchan)
  | 0x21 => args0 ws (byCode (deemphOf imm) .setdeemph)
  | 0x22 => args1 ws (squelchArgs imm)
  | 0x23 => args1 ws fun level => noImm imm (.setgain level)
  | 0x24 => args0 ws (byCode (rdsModeOf imm) .setrdsmode)
  | 0x25 => args0 ws (byCode (modeOf imm) .setmode)
  | 0x40 => args1 ws fun frames => .ok (.read imm frames)
  | 0x41 => args0 ws (noImm imm .waiting)
  | 0x42 => args0 ws (noImm imm .cancel)
  | 0x43 => args0 ws (noImm imm .flush)
  | 0x80 => args2 ws fun i q => immZero imm (ifFinite (f32Finite i && f32Finite q) .nonFiniteStream (.ok (.sample i q)))
  | 0x81 => args2 ws fun ab cd => noImm imm (.group ab cd)
  | 0x82 => args0 ws (noImm imm .tick)
  | 0x83 => args0 ws (.ok (.timeout imm))
  | 0x84 => args1 ws fun f => noImm imm (.freqchg f)
  | 0x85 => args0 ws (.ok (.wake imm))
  | 0x90 => writeArgs imm ws
  | 0x91 => args2 ws fun thr token => immZero imm (ifFinite (f32Finite thr) .nonFinite (.ok (.scanstart thr token)))
  | 0x92 => args0 ws (noImm imm .scanstop)
  | 0x93 => args0 ws (noImm imm .scanq)
  | 0x94 => args2 ws fun i q => immZero imm (ifFinite (f32Finite i && f32Finite q) .nonFiniteStream (.ok (.scanfeed i q)))
  | 0x95 => args0 ws (noImm imm .rdsreset)
  | _ => .error .unassigned

/-- An operation's words (R122 to R124, R140): the opcode is looked up first, then `rsv`, then the arguments (R381:
ERR_OP before ERR_ARG). Words past the operation's length are not looked at. -/
def decodeOp (ws : List Word) : Except Reject Instr :=
  match ws with
  | [] => .error .truncated
  | h :: rest =>
    match headerInfo h with
    | none => .error .unassigned
    | some info =>
      if rest.length < info.1 then .error .truncated
      else if rsvOf h ≠ 0#8 then .error .reserved
      else decodeArgs (opOf h).toNat (immOf h) (rest.take info.1)

/-! ## Format G (R130 to R135) -/

/-- `pi`, bits [63:48]. -/
def gPi (g : BitVec 64) : Block := g.extractLsb' 48 16
/-- `gtype`, bits [47:44]. -/
def gType (g : BitVec 64) : BitVec 4 := g.extractLsb' 44 4
/-- `tp`, bit 42. -/
def gTp (g : BitVec 64) : BitVec 1 := g.extractLsb' 42 1
/-- `pty`, bits [41:37]. -/
def gPty (g : BitVec 64) : BitVec 5 := g.extractLsb' 37 5

/-- A group: bit 43 (`ver`) set is the B version, otherwise the type code selects the rule (R131). -/
def decodeGroup (g : BitVec 64) : Instr :=
  if g.getLsbD 43 then
    .rdsGB (gPi g) (gType g) (gTp g) (gPty g) (g.extractLsb' 32 5) (g.extractLsb' 16 16) (g.extractLsb' 0 16)
  else
    match (gType g).toNat with
    | 0 => .rdsG0A (gPi g) (gTp g) (gPty g) (g.extractLsb' 34 3) (g.extractLsb' 32 2) (g.extractLsb' 16 16) (g.extractLsb' 8 8) (g.extractLsb' 0 8)
    | 1 => .rdsG1A (gPi g) (gTp g) (gPty g) (g.extractLsb' 32 5) (g.extractLsb' 16 16) (g.extractLsb' 0 16)
    | 2 => .rdsG2A (gPi g) (gTp g) (gPty g) (g.extractLsb' 36 1) (g.extractLsb' 32 4) (g.extractLsb' 24 8) (g.extractLsb' 16 8) (g.extractLsb' 8 8) (g.extractLsb' 0 8)
    | 3 => .rdsG3A (gPi g) (gTp g) (gPty g) (g.extractLsb' 32 5) (g.extractLsb' 16 16) (g.extractLsb' 0 16)
    | 4 => .rdsG4A (gPi g) (gTp g) (gPty g) (g.extractLsb' 34 3) (g.extractLsb' 17 17) (g.extractLsb' 12 5) (g.extractLsb' 6 6) (g.extractLsb' 0 6)
    | 5 => .rdsG5A (gPi g) (gTp g) (gPty g) (g.extractLsb' 32 5) (g.extractLsb' 16 16) (g.extractLsb' 0 16)
    | 6 => .rdsG6A (gPi g) (gTp g) (gPty g) (g.extractLsb' 32 5) (g.extractLsb' 16 16) (g.extractLsb' 0 16)
    | 7 => .rdsG7A (gPi g) (gTp g) (gPty g) (g.extractLsb' 32 5) (g.extractLsb' 16 16) (g.extractLsb' 0 16)
    | 8 => .rdsG8A (gPi g) (gTp g) (gPty g) (g.extractLsb' 36 1) (g.extractLsb' 35 1) (g.extractLsb' 32 3) (g.extractLsb' 31 1) (g.extractLsb' 30 1) (g.extractLsb' 27 3) (g.extractLsb' 16 11) (g.extractLsb' 0 16)
    | 9 => .rdsG9A (gPi g) (gTp g) (gPty g) (g.extractLsb' 32 5) (g.extractLsb' 16 16) (g.extractLsb' 0 16)
    | 10 => .rdsG10A (gPi g) (gTp g) (gPty g) (g.extractLsb' 32 5) (g.extractLsb' 16 16) (g.extractLsb' 0 16)
    | 11 => .rdsG11A (gPi g) (gTp g) (gPty g) (g.extractLsb' 32 5) (g.extractLsb' 16 16) (g.extractLsb' 0 16)
    | 12 => .rdsG12A (gPi g) (gTp g) (gPty g) (g.extractLsb' 32 5) (g.extractLsb' 16 16) (g.extractLsb' 0 16)
    | 13 => .rdsG13A (gPi g) (gTp g) (gPty g) (g.extractLsb' 32 5) (g.extractLsb' 16 16) (g.extractLsb' 0 16)
    | 14 => .rdsG14A (gPi g) (gTp g) (gPty g) (g.extractLsb' 32 5) (g.extractLsb' 16 16) (g.extractLsb' 0 16)
    | _ => .rdsG15A (gPi g) (gTp g) (gPty g) (g.extractLsb' 32 5) (g.extractLsb' 16 16) (g.extractLsb' 0 16)

/-- The first 27 bits of a group: `pi`, `gtype`, `ver`, `tp`, `pty`. -/
def groupHead (pi : Block) (gtype : BitVec 4) (ver tp : BitVec 1) (pty : BitVec 5) : BitVec 27 :=
  pi ++ gtype ++ ver ++ tp ++ pty

/-- The operation or group a delivery carries. -/
def decode : Wire → Except Reject Instr
  | .op ws => decodeOp ws
  | .group g => .ok (decodeGroup g)

/-! ## The encoder -/

/-- The words of a well-formed operation (R122 to R129), the bits of a group (R130 to R135). -/
def encode : Instr → Wire
  | .start => .op [header 0x01#8 0#16]
  | .stop => .op [header 0x02#8 0#16]
  | .tune f => .op [header 0x10#8 0#16, f]
  | .getfreq => .op [header 0x11#8 0#16]
  | .seek thr lo hi step interval token => .op [header 0x12#8 0#16, thr, lo, hi, step, interval, token]
  | .cancelseek => .op [header 0x13#8 0#16]
  | .setchan chan => .op [header 0x20#8 chan.code]
  | .setdeemph deemph => .op [header 0x21#8 deemph.code]
  | .setsquelch en level => .op [header 0x22#8 (if en then 1#16 else 0#16), level]
  | .setgain level => .op [header 0x23#8 0#16, level]
  | .setrdsmode mode => .op [header 0x24#8 mode.code]
  | .setmode mode => .op [header 0x25#8 mode.code]
  | .read r frames => .op [header 0x40#8 r, frames]
  | .waiting => .op [header 0x41#8 0#16]
  | .cancel => .op [header 0x42#8 0#16]
  | .flush => .op [header 0x43#8 0#16]
  | .sample i q => .op [header 0x80#8 0#16, i, q]
  | .group ab cd => .op [header 0x81#8 0#16, ab, cd]
  | .tick => .op [header 0x82#8 0#16]
  | .timeout r => .op [header 0x83#8 r]
  | .freqchg f => .op [header 0x84#8 0#16, f]
  | .wake r => .op [header 0x85#8 r]
  | .write samples => .op (header 0x90#8 (BitVec.ofNat 16 samples.length) :: samples)
  | .scanstart thr token => .op [header 0x91#8 0#16, thr, token]
  | .scanstop => .op [header 0x92#8 0#16]
  | .scanq => .op [header 0x93#8 0#16]
  | .scanfeed i q => .op [header 0x94#8 0#16, i, q]
  | .rdsreset => .op [header 0x95#8 0#16]
  | .rdsGB pi gtype tp pty rest c d => .group (groupHead pi gtype 1#1 tp pty ++ rest ++ c ++ d)
  | .rdsG0A pi tp pty taMsDi idx af c0 c1 => .group (groupHead pi 0#4 0#1 tp pty ++ taMsDi ++ idx ++ af ++ c0 ++ c1)
  | .rdsG2A pi tp pty ab idx t0 t1 t2 t3 =>
    .group (groupHead pi 2#4 0#1 tp pty ++ ab ++ idx ++ t0 ++ t1 ++ t2 ++ t3)
  | .rdsG4A pi tp pty spare day hour minute offset =>
    .group (groupHead pi 4#4 0#1 tp pty ++ spare ++ day ++ hour ++ minute ++ offset)
  | .rdsG8A pi tp pty t f dp d dir extent event location =>
    .group (groupHead pi 8#4 0#1 tp pty ++ t ++ f ++ dp ++ d ++ dir ++ extent ++ event ++ location)
  | .rdsG1A pi tp pty rest c d => .group (groupHead pi 1#4 0#1 tp pty ++ rest ++ c ++ d)
  | .rdsG3A pi tp pty rest c d => .group (groupHead pi 3#4 0#1 tp pty ++ rest ++ c ++ d)
  | .rdsG5A pi tp pty rest c d => .group (groupHead pi 5#4 0#1 tp pty ++ rest ++ c ++ d)
  | .rdsG6A pi tp pty rest c d => .group (groupHead pi 6#4 0#1 tp pty ++ rest ++ c ++ d)
  | .rdsG7A pi tp pty rest c d => .group (groupHead pi 7#4 0#1 tp pty ++ rest ++ c ++ d)
  | .rdsG9A pi tp pty rest c d => .group (groupHead pi 9#4 0#1 tp pty ++ rest ++ c ++ d)
  | .rdsG10A pi tp pty rest c d => .group (groupHead pi 10#4 0#1 tp pty ++ rest ++ c ++ d)
  | .rdsG11A pi tp pty rest c d => .group (groupHead pi 11#4 0#1 tp pty ++ rest ++ c ++ d)
  | .rdsG12A pi tp pty rest c d => .group (groupHead pi 12#4 0#1 tp pty ++ rest ++ c ++ d)
  | .rdsG13A pi tp pty rest c d => .group (groupHead pi 13#4 0#1 tp pty ++ rest ++ c ++ d)
  | .rdsG14A pi tp pty rest c d => .group (groupHead pi 14#4 0#1 tp pty ++ rest ++ c ++ d)
  | .rdsG15A pi tp pty rest c d => .group (groupHead pi 15#4 0#1 tp pty ++ rest ++ c ++ d)

/-! ## The words of spec/opcode_table.json -/

/-- `k` words of a number, the low one first. -/
def splitWords : Nat → Nat → List Word
  | 0, _ => []
  | k + 1, v => BitVec.ofNat 32 v :: splitWords k (v / 4294967296)

/-- The operation whose header is the low 32 bits of `w`: operand words follow in the higher bits, and those the table
gives no bits are 0. -/
def tableWords (nbits w : Nat) : List Word :=
  let v := w % Nat.pow 2 nbits
  splitWords (opLength (BitVec.ofNat 32 v)) v

/-- A row of the table as a delivery: the format G rows are the 64-bit groups, numbered as R130 numbers them, with
block A in bits [63:48] (log entry 7); every other row is an operation's words. -/
def tableWire (nbits w : Nat) : Wire :=
  if nbits = 64 then .group (BitVec.ofNat 64 w) else .op (tableWords nbits w)

/-- The operation the decoder reads from a table word. -/
def decodeTableWord (nbits w : Nat) : Option Instr :=
  match decode (tableWire nbits w) with
  | .ok i => some i
  | .error _ => none

end Sys2Proof
end

