-- ==== Sys2Proof/Machine/State.lean ====
section
/-! DEFINITION. Machine/State.lean: everything the spec gives the machine (10_state.md), unit by unit as R20 partitions
it, the machine right after reset (70_reset_and_hazards.md R411), and the reasons a machine can stop. -/

namespace Sys2Proof.Machine

/-- The codes of a construction failure (60_exceptions.md R371). -/
inductive ConstructionCode where
  /-- 1: invalid rate ratio -/
  | rate
  /-- 2: no sample source -/
  | source
  /-- 3: any other constraint of R372 -/
  | param
deriving DecidableEq, Repr, Inhabited

/-- The one fault of FMRX (R371; 93_implementation_defined.md U8). -/
inductive Fault where
  /-- Raised by `construct` alone, where the parameters or the sample source fail a check; no state exists then. No
  step of a constructed machine raises it (R370). Safe: the spec's own fault. -/
  | constructionFailure (code : ConstructionCode)
deriving DecidableEq, Repr

/-- Why an operation has no meaning. A refusal of the spec (R373) is a next state, not one of these. -/
inductive Refusal where
  /-- Raised by `exec` for an operation that has no meaning yet; none is left. Safe. -/
  | notModelled (mnemonic : String)
deriving DecidableEq, Repr

/-- The engine states (R51). -/
inductive RunState where
  | idle | running | paused
deriving DecidableEq, Repr, Inhabited

/-- A reader's state (R39). -/
inductive Reader where
  | idle
  | blocked (frames : Word)
  | cancelled
deriving DecidableEq, Repr, Inhabited

/-- A candidate record (R37). -/
structure Candidate where
  freq : Word
  sum : RNum
  count : Nat
deriving DecidableEq, Repr, Inhabited

/-- The events of port EP (30_encoding.md R145); a text payload is a copy of the whole buffer (R146). -/
inductive Event where
  | labelClear
  | labelChange (text : List Byte)
  | labelComplete (text : List Byte)
  | textClear
  | textChange (text : List Byte)
  | textComplete (text : List Byte)
  | stationFound (freq token : Word)
  | freqChanged (freq : Word)
deriving DecidableEq, Repr, Inhabited

/-- An RB record (R148). -/
structure RbRecord where
  mode : RdsMode
  value : Cplx
deriving DecidableEq, Repr, Inhabited

/-- The FP requests (R149). -/
inductive FpRequest where
  | start
  | stop
  | setFreq (freq : Word)
deriving DecidableEq, Repr, Inhabited

/-- The status words (R147). -/
inductive Status where
  | ok | errOp | errArg | cancelled
deriving DecidableEq, Repr, Inhabited

/-- What an operation answers at its port (R14, R147): a status, count words, then samples. `reader` is the reader
whose `READ` is answered. -/
structure Response where
  port : Port
  reader : Option (BitVec 16)
  status : Status
  counts : List Word
  samples : List RNum
deriving DecidableEq, Repr, Inhabited

/-- An input presented at a port and not yet taken (log entry 5). A bare group comes from `BitSync` at port GP. -/
inductive Delivery where
  | op (port : Port) (ws : List Word)
  | group (g : BitVec 64)
deriving DecidableEq, Repr, Inhabited

/-- The configuration registers CR0 to CR6 (R21). -/
structure ControlRegs where
  mode : Mode
  chan : Chan
  sqEn : Bool
  sqLevel : RNum
  att : Word
  deemph : Deemph
  rdsMode : RdsMode
deriving DecidableEq, Repr, Inhabited

/-- The DEMOD datapath registers (R23 to R30). -/
structure Demod where
  inDl : List Cplx
  inPh : Nat
  peak : RNum
  peakCnt : Nat
  gainAvg : RNum
  zPrev : Cplx
  pt : PilotState
  stereoActive : Bool
  deS : RNum
  deD : RNum
  audDl : List Frame
  audPh : Nat
  nm : NoiseState
  rf : FrontState
deriving DecidableEq, Repr, Inhabited

/-- The RDS unit registers (R31 to R34). LABEL and TEXT are the spaces LBL and TXT (20_memory.md R82, R83), held in the
canonical form of Machine/Ops.lean. -/
structure Rds where
  pi : Option Block
  label : List Host.Cell
  labelMask : BitVec 4
  text : List Host.Cell
  textMask : BitVec 16
  lastAb : Option Bool
  clkHour : BitVec 5
  clkMin : BitVec 6
  clkDay : BitVec 17
deriving DecidableEq, Repr, Inhabited

/-- The SCAN unit registers (R35 to R37); `blk` is the space BLK (R84), `cand` the space CAND (R85). -/
structure Scan where
  scanning : Bool
  threshold : RNum
  token : Word
  blk : List (Nat × Cplx)
  blkIdx : Nat
  cand : List Candidate
deriving DecidableEq, Repr, Inhabited

/-- The ARB unit registers (R38, R39); `store` is the space ARB (R81). -/
structure Arb where
  store : List (Nat × RNum)
  rd : Nat
  wr : Nat
  occ : Nat
  readers : List Reader
deriving DecidableEq, Repr, Inhabited

/-- The ENG unit registers (R50 to R53); `run` is the register `ENG`. -/
structure Engine where
  freq : Word
  run : RunState
  seekActive : Bool
  seekPre : Word
  seekMin : Word
  seekMax : Word
  seekStep : Word
  seekInterval : Word
  seekToken : Word
  timerArmed : Bool
deriving DecidableEq, Repr, Inhabited

/-- The output histories (R54), oldest first, and the model's own history of responses (log entry 8). -/
structure Outputs where
  evq : List Event
  rbq : List RbRecord
  fpq : List FpRequest
  rsq : List Response
deriving DecidableEq, Repr, Inhabited

/-- The machine. `params` is fixed at construction (R59); `inq` and `port` are the model's own (log entries 5, 8). -/
structure State where
  params : Config
  cr : ControlRegs
  dem : Demod
  rds : Rds
  scan : Scan
  arb : Arb
  eng : Engine
  out : Outputs
  inq : List Delivery
  port : Port
deriving DecidableEq, Repr, Inhabited

/-- `OMEGA_0 = 2π · PILOT_FREQ / FM_RATE` (R201), from the left (log entry 2). -/
def omega0 (c : Config) : RNum := c.div (c.mul (c.mul (.rat 2) .pi) c.pilotFreq) (RNum.ofNat c.fmRate)

/-- `PilotTracker.init` (R26, R201). -/
def pilotInit (c : Config) : PilotState :=
  match c.pilot with
  | .reference => ⟨List.replicate c.hPilot.length (.rat 0), .rat 0, .rat 0, .rat 0, omega0 c⟩
  | .constant _ _ _ => ⟨[], .rat 0, .rat 0, .rat 0, .rat 0⟩
  | .other id => Config.otherPilotInit id

/-- `NoiseMeter.init` (R29, R202). -/
def noiseInit (c : Config) : NoiseState :=
  match c.noise with
  | .reference => ⟨List.replicate c.hSq.length (.rat 0), .rat 0⟩
  | .other id => Config.otherNoiseInit id

/-- `RdsFront.init` with `RDS_PH = 0` (R30, R203). -/
def frontInit (c : Config) : FrontState :=
  match c.front with
  | .reference =>
    ⟨List.replicate c.hHilb.length (.rat 0), .rat 0, List.replicate c.hRds.length Cplx.zero, 0⟩
  | .other id =>
    let f := Config.otherFrontInit id
    ⟨f.dlh, f.nco, f.dlr, 0⟩

/-- R22, R411: the configuration registers at reset. -/
def ControlRegs.reset (c : Config) : ControlRegs :=
  ⟨.stereo, .stereo, false, c.sqLevelReset, c.attReset, .t50, .off⟩

/-- R23 to R30, R411: the datapath registers at reset. -/
def Demod.reset (c : Config) : Demod :=
  { inDl := List.replicate c.hIn.length Cplx.zero, inPh := 0, peak := .rat 0, peakCnt := 0, gainAvg := .rat 1,
    zPrev := Cplx.zero, pt := pilotInit c, stereoActive := false, deS := .rat 0, deD := .rat 0,
    audDl := List.replicate c.hAud.length Frame.zero, audPh := 0, nm := noiseInit c, rf := frontInit c }

/-- R31 to R34, R411: the RDS registers at reset; an unlisted character reads FILL. -/
def Rds.reset : Rds :=
  { pi := none, label := [], labelMask := 0#4, text := [], textMask := 0#16, lastAb := none, clkHour := 0#5,
    clkMin := 0#6, clkDay := 0#17 }

/-- R35 to R37, R411; THRESHOLD, SCAN_TOKEN and BLK are unspecified and zero here (R413, log entry 11). -/
def Scan.reset : Scan :=
  { scanning := false, threshold := .rat 0, token := 0#32, blk := [], blkIdx := 0, cand := [] }

/-- R38, R39, R411; STORE is unspecified and zero here (R413, log entry 11). -/
def Arb.reset (c : Config) : Arb :=
  { store := [], rd := 0, wr := 0, occ := 0, readers := List.replicate c.maxReaders .idle }

/-- R50 to R53, R411; the seek context is unspecified and zero here (R413, log entry 11). -/
def Engine.reset (c : Config) : Engine :=
  { freq := c.freqReset, run := .idle, seekActive := false, seekPre := 0#32, seekMin := 0#32, seekMax := 0#32,
    seekStep := 0#32, seekInterval := 0#32, seekToken := 0#32, timerArmed := false }

/-- The machine at the end of a successful construction (R410, R411), for any parameters. -/
def State.resetOf (c : Config) : State :=
  { params := c, cr := ControlRegs.reset c, dem := Demod.reset c, rds := Rds.reset, scan := Scan.reset,
    arb := Arb.reset c, eng := Engine.reset c, out := ⟨[], [], [], []⟩, inq := [], port := .cp }

/-- The machine right after reset, with the parameters log entry 3 names. -/
def State.reset : State := State.resetOf {}

end Sys2Proof.Machine
end

