-- ==== Sys2Proof/Machine/Ops.lean ====
section
/-! DEFINITION. Machine/Ops.lean: the named operations over the address spaces (20_memory.md R80 to R85), and what
takes the place of an exception in FMRX: refusing an operation (60_exceptions.md R373) and emitting an event (R380);
with the words of 30_encoding.md R145 to R149 in which outputs leave the block. -/

namespace Sys2Proof.Machine

/-- What a step answers. -/
abbrev Result := Host.Outcome State Fault Refusal

/-! ## Address spaces: `(address, element)` pairs in one canonical form (log entry 19) -/

/-- The element at an address; an unlisted one reads as `fill`. -/
def Memory.read {α : Type} (fill : α) : List (Nat × α) → Nat → α
  | [], _ => fill
  | e :: m, a => if e.1 = a then e.2 else Memory.read fill m a

/-- Store one element, keeping addresses rising and listing no element equal to `fill`. -/
def Memory.write {α : Type} [DecidableEq α] (fill : α) : List (Nat × α) → Nat → α → List (Nat × α)
  | [], a, v => if v = fill then [] else [(a, v)]
  | e :: m, a, v =>
    if a < e.1 then (if v = fill then e :: m else (a, v) :: e :: m)
    else if a = e.1 then (if v = fill then m else (a, v) :: m)
    else e :: Memory.write fill m a v

/-- The canonical form: addresses strictly rising, no listed element equal to `fill`. -/
def Memory.wf {α : Type} [DecidableEq α] (fill : α) : List (Nat × α) → Bool
  | [] => true
  | [e] => decide (e.2 ≠ fill)
  | e :: f :: m => decide (e.2 ≠ fill) && decide (e.1 < f.1) && Memory.wf fill (f :: m)

/-- `MemRead` of a space that wraps at `cap`: `n` elements from address `a` (R14, R81). -/
def Memory.readWrap {α : Type} (fill : α) (cap : Nat) (m : List (Nat × α)) (a n : Nat) : List α :=
  (List.range n).map fun k => Memory.read fill m ((a + k) % cap)

/-- `MemWrite` of a space that wraps at `cap` (R14, R81). -/
def Memory.writeWrap {α : Type} [DecidableEq α] (fill : α) (cap : Nat) :
    List (Nat × α) → Nat → List α → List (Nat × α)
  | m, _, [] => m
  | m, a, v :: vs => Memory.writeWrap fill cap (Memory.write fill m (a % cap) v) (a + 1) vs

/-- `MemRead` of a space that does not wrap. -/
def Memory.readList {α : Type} (fill : α) (m : List (Nat × α)) (a n : Nat) : List α :=
  (List.range n).map fun k => Memory.read fill m (a + k)

/-- `MemWrite` of a space that does not wrap. -/
def Memory.writeList {α : Type} [DecidableEq α] (fill : α) : List (Nat × α) → Nat → List α → List (Nat × α)
  | m, _, [] => m
  | m, a, v :: vs => Memory.writeList fill (Memory.write fill m a v) (a + 1) vs

/-- One character of the spaces LBL and TXT (R82, R83). -/
def charAt (m : List Host.Cell) (a : Nat) : Byte := Memory.read Config.fill m a

/-- One sample of the space ARB (R81). -/
def sampleAt (m : List (Nat × RNum)) (a : Nat) : RNum := Memory.read (.rat 0) m a

/-- One element of the space BLK (R84). -/
def blockAt (m : List (Nat × Cplx)) (a : Nat) : Cplx := Memory.read Cplx.zero m a

/-- The 8 characters of LABEL. -/
def Rds.labelChars (r : Rds) : List Byte := Memory.readList Config.fill r.label 0 Config.labelLen

/-- The 64 characters of TEXT. -/
def Rds.textChars (r : Rds) : List Byte := Memory.readList Config.fill r.text 0 Config.textLen

/-! ## Unit updates -/

/-- Replace one unit's registers. -/
def State.withCr (s : State) (u : ControlRegs) : State := { s with cr := u }
/-- See `State.withCr`. -/
def State.withDem (s : State) (u : Demod) : State := { s with dem := u }
/-- See `State.withCr`. -/
def State.withRds (s : State) (u : Rds) : State := { s with rds := u }
/-- See `State.withCr`. -/
def State.withScan (s : State) (u : Scan) : State := { s with scan := u }
/-- See `State.withCr`. -/
def State.withArb (s : State) (u : Arb) : State := { s with arb := u }
/-- See `State.withCr`. -/
def State.withEng (s : State) (u : Engine) : State := { s with eng := u }
/-- See `State.withCr`. -/
def State.withOut (s : State) (u : Outputs) : State := { s with out := u }

/-! ## Events, requests, records and responses -/

/-- `emit`: append events to EVQ in order (R14, R380, R381). -/
def State.emit (s : State) (es : List Event) : State := s.withOut { s.out with evq := s.out.evq ++ es }

/-- Append a request to FPQ (R149, R392). -/
def State.request (s : State) (f : FpRequest) : State := s.withOut { s.out with fpq := s.out.fpq ++ [f] }

/-- Append a record to RBQ (R148, R191). -/
def State.record (s : State) (b : RbRecord) : State := s.withOut { s.out with rbq := s.out.rbq ++ [b] }

/-- `respond` (R14, R147). -/
def State.respond (s : State) (r : Response) : State := s.withOut { s.out with rsq := s.out.rsq ++ [r] }

/-- Answer a status word alone. -/
def State.respondStatus (s : State) (p : Port) (st : Status) : State := s.respond ⟨p, none, st, [], []⟩

/-- Whether a port carries responses: CP and AP do, the stream ports produce nothing (R385); the internal path returns
a status to the unit that invoked it (log entry 9). -/
def portResponds : Port → Bool
  | .cp => true
  | .ap => true
  | .inside => true
  | .sp => false
  | .gp => false
  | .tk => false
  | .fn => false

/-- `refuse code` (R14, R373): the operation is not performed, the response is the status word, nothing else changes;
at a port without responses the operation is dropped. -/
def State.refuse (s : State) (p : Port) (st : Status) : State :=
  if portResponds p then s.respondStatus p st else s

/-- The status a malformed operation is refused with; none where it is dropped (R140, R373, log entry 10). -/
def rejectStatus : Reject → Option Status
  | .unassigned => some .errOp
  | .reserved => some .errArg
  | .immediate => some .errArg
  | .enumeration => some .errArg
  | .squelchBits => some .errArg
  | .nonFinite => some .errArg
  | .oddCount => some .errArg
  | .nonFiniteStream => none
  | .truncated => none

/-- The port that answers `CANCEL` and `FLUSH`: the one they arrived on, CP or AP (R126). -/
def State.answerPort (s : State) : Port := if s.port = .cp then .cp else .ap

/-! ## Words of the outputs -/

/-- The status words (R147). -/
def Status.word : Status → Word
  | .ok => 0#32
  | .errOp => 1#32
  | .errArg => 2#32
  | .cancelled => 3#32

/-- Four characters a word, the lower position in the higher bits (20_memory.md R88, R145). -/
def packChars : List Byte → List Word
  | a :: b :: c :: d :: rest => (a ++ b ++ c ++ d) :: packChars rest
  | _ => []

/-- An event's header: the code in bits [31:24] (R145). -/
def eventHeader (code : BitVec 8) : Word := code ++ 0#24

/-- An event's words (R145). -/
def Event.words : Event → List Word
  | .labelClear => [eventHeader 0x01#8]
  | .labelChange text => eventHeader 0x02#8 :: packChars text
  | .labelComplete text => eventHeader 0x03#8 :: packChars text
  | .textClear => [eventHeader 0x04#8]
  | .textChange text => eventHeader 0x05#8 :: packChars text
  | .textComplete text => eventHeader 0x06#8 :: packChars text
  | .stationFound freq token => [eventHeader 0x07#8, freq, token]
  | .freqChanged freq => [eventHeader 0x08#8, freq]

/-- An RB record's words (R148): `rnd`, then the nearest binary32. -/
def RbRecord.words (c : Config) (b : RbRecord) : List Word :=
  [header 0xA0#8 b.mode.code, f32Word (c.round b.value.re), f32Word (c.round b.value.im)]

/-- An FP request's words (R149). -/
def FpRequest.words : FpRequest → List Word
  | .start => [header 0xB0#8 0#16]
  | .stop => [header 0xB1#8 0#16]
  | .setFreq freq => [header 0xB2#8 0#16, freq]

/-- A response's words (R147): the status, the counts, the samples as f32 (R148). -/
def Response.words (c : Config) (r : Response) : List Word :=
  r.status.word :: (r.counts ++ r.samples.map fun x => f32Word (c.round x))

end Sys2Proof.Machine
end

