-- ==== Sys2Proof/Machine/Operands.lean ====
section
/-! DEFINITION. Machine/Operands.lean: the operand forms (30_encoding.md R123, R127, R129) and the addresses computed
from them (40_common_semantics.md R165). The f32 form is `f32Operand` of Machine/Float.lean, the enumeration codes are
those of Decode.lean. -/

namespace Sys2Proof.Machine

/-- A `u32` operand as an integer, 0 to 2^32 - 1. -/
def u32Value (w : Word) : Int := (w.toNat : Int)

/-- An `s32` operand as an integer: two's complement. -/
def s32Value (w : Word) : Int := w.toInt

/-- A `u32` register converted exactly to a real (R161 (e)). -/
def u32Real (w : Word) : RNum := RNum.ofNat w.toNat

/-- The two f32 operands of `SAMPLE` and `SCANFEED` as one complex sample, none where one is not a value. -/
def cplxOperand (i q : Word) : Option Cplx :=
  match f32Operand i, f32Operand q with
  | some re, some im => some ⟨re, im⟩
  | _, _ => none

/-- A list of f32 operands, none where one is not a value. -/
def f32Operands : List Word → Option (List RNum)
  | [] => some []
  | w :: ws =>
    match f32Operand w, f32Operands ws with
    | some x, some xs => some (x :: xs)
    | _, _ => none

/-- A reader id below `MAX_READERS` (R140). -/
def readerIdOk (c : Config) (r : BitVec 16) : Bool := decide (r.toNat < c.maxReaders)

/-- The state of reader `r` (R39). -/
def Arb.reader (a : Arb) (r : BitVec 16) : Reader := a.readers.getD r.toNat .idle

/-- The reader table with reader `r` changed. -/
def Arb.setReader (a : Arb) (r : BitVec 16) (v : Reader) : Arb := { a with readers := a.readers.set r.toNat v }

/-- The blocks of a `GROUP` (R127: `ab = A ++ B`, `cd = C ++ D`). -/
def blockHigh (w : Word) : Block := w.extractLsb' 16 16
/-- See `blockHigh`. -/
def blockLow (w : Word) : Block := w.extractLsb' 0 16

/-- The address of label segment `idx` (R82, R165 (a)). -/
def labelAddr (idx : BitVec 2) : Nat := 2 * idx.toNat

/-- The address of text fragment `idx` (R83, R165 (a)). -/
def textAddr (idx : BitVec 4) : Nat := 4 * idx.toNat

end Sys2Proof.Machine
end

