-- ==== Sys2Proof/Machine/Flags.lean ====
section
/-! DEFINITION. Machine/Flags.lean: the status flags of 10_state.md R55 that a rule computes. The others (`SCANNING`,
`SEEK_ACTIVE`, `TIMER_ARMED`, `LAST_AB`, `SQ_EN`, `READER`) are written plainly by their rules. -/

namespace Sys2Proof.Machine

/-- `LABEL_MASK | (1 << idx)`, restarted by segment 0 (42_rds_group_decoder.md R235). -/
def labelMaskAfter (mask : BitVec 4) (idx : BitVec 2) : BitVec 4 :=
  (if idx = 0#2 then 0#4 else mask) ||| (1#4 <<< idx.toNat)

/-- All four segments received. -/
def labelComplete (mask : BitVec 4) : Bool := mask = 0xF#4

/-- `TEXT_MASK | (1 << idx)` (R236). -/
def textMaskAfter (mask : BitVec 16) (idx : BitVec 4) : BitVec 16 := mask ||| (1#16 <<< idx.toNat)

/-- All sixteen fragments received. -/
def textFull (mask : BitVec 16) : Bool := mask = 0xFFFF#16

/-- The A/B toggle flipped against the last-seen value; with none seen there is no flip (R236). -/
def abFlipped (last : Option Bool) (ab : Bool) : Bool :=
  match last with
  | some b => b != ab
  | none => false

/-- `10 ^ (PILOT_MARGIN_DB / 20)` (41_demodulator.md R181). -/
def pilotMargin (c : Config) : RNum := c.tenPow (c.div c.pilotMarginDb (.rat 20))

/-- `PilotFound`: the level strictly above the margin times the noise floor (R181). -/
def pilotFound (c : Config) (level floor : RNum) : Bool := (c.mul (pilotMargin c) floor).lt level

/-- `STEREO_ACTIVE` (R181). -/
def stereoSelected (mode : Mode) (found : Bool) : Bool := decide (mode = .stereo) && found

/-- Muted by squelch: enabled and strictly above the level (R189). -/
def squelched (en : Bool) (noise level : RNum) : Bool := en && level.lt noise

end Sys2Proof.Machine
end

