-- ==== Sys2Proof/Machine/Arb.lean ====
section
/-! DEFINITION. Machine/Arb.lean: the ARB unit (44_audio_ring_buffer.md R290 to R300): the internal `WRITE`, the
audio-port `READ`, `WAITING`, `CANCEL`, `FLUSH`, the continuation `WAKE` and the environment's `TIMEOUT`. -/

namespace Sys2Proof.Machine

/-- How many of `n` offered samples are stored: whole frames within the free space (R290). -/
def writeCount (c : Config) (a : Arb) (n : Nat) : Nat := 2 * (min n (c.arbCap - a.occ) / 2)

/-- `WRITE` on the unit (R290), for an even count; the samples that do not fit are dropped, newest first. -/
def arbWrite (c : Config) (vs : List RNum) (a : Arb) : Arb :=
  let n := writeCount c a vs.length
  { a with
    store := Memory.writeWrap (.rat 0) c.arbCap a.store a.wr (vs.take n)
    wr := (a.wr + n) % c.arbCap
    occ := a.occ + n }

/-- The samples `Pop(m)` returns (R291). -/
def popData (c : Config) (m : Nat) (a : Arb) : List RNum := Memory.readWrap (.rat 0) c.arbCap a.store a.rd m

/-- `Pop(m)` on the unit (R291). -/
def arbPop (c : Config) (m : Nat) (a : Arb) : Arb := { a with rd := (a.rd + m) % c.arbCap, occ := a.occ - m }

/-- The frames a read of `frames` gets: what there is, up to what was asked (R292, R293). -/
def framesReady (a : Arb) (frames : Word) : Nat := min frames.toNat (a.occ / 2)

/-- The response that delivers `k` frames to reader `r` (R126, R147). -/
def dataResponse (r : BitVec 16) (k : Nat) (data : List RNum) : Response :=
  ⟨.ap, some r, .ok, [BitVec.ofNat 32 k], data⟩

/-- Deliver data to reader `r`: pop the frames and respond (R292, R293). -/
def deliverFrames (r : BitVec 16) (frames : Word) (s : State) : State :=
  let k := framesReady s.arb frames
  (s.withArb (arbPop s.params (2 * k) s.arb)).respond (dataResponse r k (popData s.params (2 * k) s.arb))

/-- `READ` (R292). -/
def execRead (r : BitVec 16) (frames : Word) (s : State) : Result :=
  if readerIdOk s.params r = false then .next (s.refuse .ap .errArg)
  else if s.arb.reader r ≠ .idle then .next (s.refuse .ap .errArg)
  else if frames = 0#32 then .next (s.respond (dataResponse r 0 []))
  else if 0 < s.arb.occ then .next (deliverFrames r frames s)
  else .next (s.withArb (s.arb.setReader r (.blocked frames)))

/-- `WAKE`: the data case (R293), the cancelled case (R294); not enabled otherwise, and then dropped (R373). -/
def execWake (r : BitVec 16) (s : State) : Result :=
  if readerIdOk s.params r = false then .next (s.refuse .ap .errArg)
  else match s.arb.reader r with
    | .blocked n =>
      if 0 < s.arb.occ then
        .next ((deliverFrames r n s).withArb ((deliverFrames r n s).arb.setReader r .idle))
      else .next s
    | .cancelled => .next ((s.withArb (s.arb.setReader r .idle)).respond ⟨.ap, some r, .cancelled, [], []⟩)
    | .idle => .next s

/-- `TIMEOUT` (R296): enabled for a reader blocked on an empty buffer, dropped otherwise (R373). -/
def execTimeout (r : BitVec 16) (s : State) : Result :=
  if readerIdOk s.params r = false then .next (s.refuse .tk .errArg)
  else match s.arb.reader r with
    | .blocked _ =>
      if s.arb.occ = 0 then .next ((s.withArb (s.arb.setReader r .idle)).respond (dataResponse r 0 []))
      else .next s
    | .cancelled => .next s
    | .idle => .next s

/-- What `CANCEL` does to one reader (R295). -/
def cancelReader : Reader → Reader
  | .blocked _ => .cancelled
  | .idle => .idle
  | .cancelled => .cancelled

/-- `CANCEL` (R295). -/
def execCancel (s : State) : Result :=
  .next ((s.withArb { s.arb with readers := s.arb.readers.map cancelReader }).respondStatus s.answerPort .ok)

/-- `WAITING` (R297). -/
def execWaiting (s : State) : Result :=
  .next (s.respond ⟨.ap, none, .ok, [BitVec.ofNat 32 (s.arb.occ / 2)], []⟩)

/-- `FLUSH` (R298). -/
def execFlush (s : State) : Result :=
  .next ((s.withArb { s.arb with rd := s.arb.wr, occ := 0 }).respondStatus s.answerPort .ok)

/-- `WRITE` as an operation of its own on the internal path (R290): an odd count is refused, and otherwise a sample that
is not a value drops the operation (R373; that the count is tested first is the model's choice, log entry 23); the count
stored is returned. -/
def execWrite (samples : List Word) (s : State) : Result :=
  if samples.length % 2 = 1 then .next (s.refuse .inside .errArg)
  else match f32Operands samples with
  | none => .next s
  | some vs =>
    .next ((s.withArb (arbWrite s.params vs s.arb)).respond
      ⟨.inside, none, .ok, [BitVec.ofNat 32 (writeCount s.params s.arb vs.length)], []⟩)

end Sys2Proof.Machine
end

