-- ==== Sys2Proof/Machine/Components.lean ====
section
/-! DEFINITION. Machine/Components.lean: the configuration components of 00_scope.md R9: the reference instantiations
of 41_demodulator.md R200 to R203, 42_rds_group_decoder.md R239 and 43_station_scanner.md R266, and for any other
implementation the opaque functions of Config under the properties its rule lists (log entry 4). -/

namespace Sys2Proof.Machine

/-- `K = 8 π · DELTA_F / FM_RATE` (R178), from the left (log entry 2). -/
def scaleK (c : Config) : RNum := c.div (c.mul (c.mul (.rat 8) .pi) c.deltaF) (RNum.ofNat c.fmRate)

/-- The reference discriminator (R200). -/
def refFmDemod (c : Config) (k : RNum) (z zp : Cplx) : RNum :=
  let p := z.normSq c
  if p.eqv (.rat 0) then .rat 0
  else c.div (c.sub (c.mul zp.re z.im) (c.mul zp.im z.re)) (c.mul k p)

/-- `FmDemod` (R179). -/
def fmDemod (c : Config) (z zp : Cplx) : RNum :=
  match c.fmDemod with
  | .reference => refFmDemod c (scaleK c) z zp
  | .other id => (determined (fun y => y = Config.otherFmDemod id (scaleK c).toReal z.toReals zp.toReals) ⟨_, rfl⟩).1

/-- The reference pilot tracker's step (R201), for parameters in R201's ranges or not (log entry 26). That the sum
`phi + omega + PLL_ALPHA * e` is rounded from the left is the model's choice (log entry 2). -/
def refPilotStep (c : Config) (pt : PilotState) (d : RNum) : PilotState :=
  let dl := shiftIn c.hPilot.length d pt.dl
  let p := firReal c c.hPilot dl
  let q := firReal c c.hNoise dl
  let pl := c.add pt.pl (c.mul c.levelGamma (c.sub p.abs pt.pl))
  let nl := c.add pt.nl (c.mul c.levelGamma (c.sub q.abs pt.nl))
  let e := c.mul (c.neg p) (c.sin pt.phi)
  let omega := RNum.min c.omegaMax (RNum.max c.omegaMin (c.add pt.omega (c.mul c.pllBeta e)))
  let phi := c.modTurn (c.add (c.add pt.phi omega) (c.mul c.pllAlpha e))
  { dl := dl, pl := pl, nl := nl, phi := phi, omega := omega }

/-- `PilotTracker.step` (R180). -/
def pilotStep (c : Config) (pt : PilotState) (d : RNum) : PilotState :=
  match c.pilot with
  | .reference => refPilotStep c pt d
  | .constant _ _ _ => pt
  | .other id => (determined (fun y => y = Config.otherPilotStep id pt d.toReal) ⟨_, rfl⟩).1

/-- `pilotLevel`, at least 0 (R180). -/
def pilotLevel (c : Config) (pt : PilotState) : RNum :=
  match c.pilot with
  | .reference => pt.pl
  | .constant level _ _ => level.abs
  | .other id => (Config.otherPilotLevel id pt).abs

/-- `noiseFloor`, at least 0 (R180). -/
def noiseFloor (c : Config) (pt : PilotState) : RNum :=
  match c.pilot with
  | .reference => pt.nl
  | .constant _ floor _ => floor.abs
  | .other id => (Config.otherNoiseFloor id pt).abs

/-- `phase`, in `[0, 2π)` (R180). -/
def pilotPhase (c : Config) (pt : PilotState) : RNum :=
  match c.pilot with
  | .reference => pt.phi
  | .constant _ _ phase => phase.modTurn
  | .other id => (Config.otherPhase id pt).modTurn

/-- The reference noise meter's step (R202), for parameters in R202's ranges or not (log entry 26). -/
def refNoiseStep (c : Config) (nm : NoiseState) (d : RNum) : NoiseState :=
  let dl := shiftIn c.hSq.length d nm.dl
  let n := firReal c c.hSq dl
  { dl := dl, lvl := c.add nm.lvl (c.mul c.sqGamma (c.sub n.abs nm.lvl)) }

/-- `NoiseMeter.step` (R189). -/
def noiseStep (c : Config) (nm : NoiseState) (d : RNum) : NoiseState :=
  match c.noise with
  | .reference => refNoiseStep c nm d
  | .other id => (determined (fun y => y = Config.otherNoiseStep id nm d.toReal) ⟨_, rfl⟩).1

/-- `level`, at least 0 (R189). -/
def noiseLevel (c : Config) (nm : NoiseState) : RNum :=
  match c.noise with
  | .reference => nm.lvl
  | .other id => (Config.otherNoiseLevel id nm).abs

/-- `OMEGA_RDS = 2π · 3 · PILOT_FREQ / FM_RATE` (R203), from the left (log entry 2). -/
def omegaRds (c : Config) : RNum :=
  c.div (c.mul (c.mul (c.mul (.rat 2) .pi) (.rat 3)) c.pilotFreq) (RNum.ofNat c.fmRate)

/-- The reference front end's step (R203), but for the count of `RDS_PH`: the new delay lines and the filtered value.
An even `L_H`, which R203 excludes and no check refuses, takes the element below the middle (log entry 26). -/
def refFrontStep (c : Config) (rf : FrontState) (stereo : Bool) (d psi3 : RNum) : FrontState × Cplx :=
  let dlh := shiftIn c.hHilb.length d rf.dlh
  let nco := c.modTurn (c.add rf.nco (omegaRds c))
  let b : Cplx :=
    if stereo then ⟨c.mul d (c.cos psi3), c.mul (c.neg d) (c.sin psi3)⟩
    else Cplx.mul c ⟨dlh.getD ((c.hHilb.length - 1) / 2) (.rat 0), firReal c c.hHilb dlh⟩ ⟨c.cos nco, c.neg (c.sin nco)⟩
  let dlr := shiftIn c.hRds.length b rf.dlr
  ({ dlh := dlh, nco := nco, dlr := dlr, rdsPh := rf.rdsPh }, firCplx c c.hRds dlr)

/-- `RdsFront.step` (R191): a value comes out on exactly every `R_RDS`-th call, counted by `RDS_PH`. -/
def frontStep (c : Config) (rf : FrontState) (stereo : Bool) (d psi3 : RNum) : FrontState × Option Cplx :=
  let x := match c.front with
    | .reference => refFrontStep c rf stereo d psi3
    | .other id => (determined (fun y => y = Config.otherFrontStep id rf stereo d.toReal psi3.toReal) ⟨_, rfl⟩).1
  let ph := (rf.rdsPh + 1) % c.rRds
  ({ x.1 with rdsPh := ph }, if ph = 0 then some x.2 else none)

/-- `TmcValid` (R239). -/
def tmcValid (c : Config) (event : BitVec 11) (location : BitVec 16) : Bool :=
  match c.tmc with
  | .reference => decide (event ≠ 0#11) && decide (location ≠ 0#16)
  | .other id => Config.otherTmcValid id event location

/-- `20 · log10 x`. -/
def decibels (c : Config) (x : RNum) : RNum := c.mul (.rat 20) (c.log10 x)

/-- `LogMag` (R266): total, and `20 · log10 x` from `LOG_FLOOR` up. -/
def logMag (c : Config) (x : RNum) : RNum :=
  match c.logMag with
  | .reference => decibels c (x.max c.logFloor)
  | .other id => if x.lt c.logFloor then (determined (fun y => y = Config.otherLogMag id x.toReal) ⟨_, rfl⟩).1 else decibels c x

end Sys2Proof.Machine
end

