-- ==== Sys2Proof/Machine/Rds.lean ====
section
/-! DEFINITION. Machine/Rds.lean: the RDS unit (42_rds_group_decoder.md R230 to R242): `GROUP`, the group types and
`RDSRESET`. A group rule answers the unit's new registers and the events it emits, in order. -/

namespace Sys2Proof.Machine

/-- `RdsClear` (R232): both buffers to spaces, both masks 0, the two clear events. LAST_AB is not touched. -/
def rdsClear (u : Rds) : Rds × List Event :=
  ({ u with label := [], labelMask := 0#4, text := [], textMask := 0#16 }, [.labelClear, .textClear])

/-- `PiCheck` (R232). -/
def piCheck (pi : Block) (u : Rds) : Rds × List Event :=
  if u.pi = some pi then (u, []) else ({ (rdsClear u).1 with pi := some pi }, (rdsClear u).2)

/-- The label after segment `idx` (R235). -/
def labelWritten (u : Rds) (idx : BitVec 2) (c0 c1 : Byte) : List Host.Cell :=
  Memory.writeList Config.fill u.label (labelAddr idx) [c0, c1]

/-- Group 0A (R235). -/
def g0a (idx : BitVec 2) (c0 c1 : Byte) (u : Rds) : Rds × List Event :=
  let old := Memory.readList Config.fill u.label (labelAddr idx) 2
  let v := { u with label := labelWritten u idx c0 c1 }
  let changed := if old ≠ [c0, c1] then [Event.labelChange v.labelChars] else []
  let mask := labelMaskAfter u.labelMask idx
  if labelComplete mask then ({ v with labelMask := 0#4 }, changed ++ [.labelComplete v.labelChars])
  else ({ v with labelMask := mask }, changed)

/-- The registers of the unit after an A/B flip, if there is one (R236). -/
def textRestart (ab : Bool) (u : Rds) : Rds × List Event :=
  if abFlipped u.lastAb ab then ({ u with textMask := 0#16, text := [] }, [.textClear]) else (u, [])

/-- The text after fragment `idx` (R236). -/
def textWritten (u : Rds) (idx : BitVec 4) (ts : List Byte) : List Host.Cell :=
  Memory.writeList Config.fill u.text (textAddr idx) ts

/-- Group 2A (R236). -/
def g2a (c : Config) (ab : Bool) (idx : BitVec 4) (t0 t1 t2 t3 : Byte) (u : Rds) : Rds × List Event :=
  let r := textRestart ab u
  let v := { r.1 with
    lastAb := some ab
    text := textWritten r.1 idx [t0, t1, t2, t3]
    textMask := textMaskAfter r.1.textMask idx }
  if t0 = c.textEnd ∨ t1 = c.textEnd ∨ t2 = c.textEnd ∨ t3 = c.textEnd ∨ textFull v.textMask then
    ({ v with textMask := 0#16, text := [] }, r.2 ++ [.textChange v.textChars, .textComplete v.textChars])
  else (v, r.2 ++ [.textChange v.textChars])

/-- Group 4A (R238): an hour above 23 or a minute above 59 is discarded alone (R237). -/
def g4a (day : BitVec 17) (hour : BitVec 5) (minute : BitVec 6) (u : Rds) : Rds × List Event :=
  ({ u with
     clkDay := day
     clkHour := if hour.toNat ≤ 23 then hour else u.clkHour
     clkMin := if minute.toNat ≤ 59 then minute else u.clkMin }, [])

/-- A group 8A is accepted (R239). -/
def tmcAccepted (c : Config) (t f : BitVec 1) (event : BitVec 11) (location : BitVec 16) : Bool :=
  decide (t = 0#1) && decide (f = 1#1) && tmcValid c event location

/-- Group 8A (R239): accepted or not, no register changes and no event is emitted. -/
def g8a (c : Config) (t f : BitVec 1) (event : BitVec 11) (location : BitVec 16) (u : Rds) : Rds × List Event :=
  match tmcAccepted c t f event location with
  | true => (u, [])
  | false => (u, [])

/-- A dropped group: B versions (R233) and the types the source does not name (R240). -/
def gIgnored (u : Rds) : Rds × List Event := (u, [])

/-- One group (R231): only while RUNNING, only while RDS_MODE is not OFF, and `PiCheck` before the type's own rule. -/
def onGroup (pi : Block) (rule : Rds → Rds × List Event) (s : State) : State :=
  if s.eng.run = .running ∧ s.cr.rdsMode ≠ .off then
    let a := piCheck pi s.rds
    let b := rule a.1
    (s.withRds b.1).emit (a.2 ++ b.2)
  else s

/-- The rule `GROUP` dispatches blocks B, C and D to (R231, R234). -/
def groupRule (c : Config) (b cc d : Block) (u : Rds) : Rds × List Event :=
  if b.getLsbD 11 then gIgnored u
  else match (b.extractLsb' 12 4).toNat with
    | 0 => g0a (b.extractLsb' 0 2) (d.extractLsb' 8 8) (d.extractLsb' 0 8) u
    | 2 => g2a c (b.getLsbD 4) (b.extractLsb' 0 4) (cc.extractLsb' 8 8) (cc.extractLsb' 0 8) (d.extractLsb' 8 8) (d.extractLsb' 0 8) u
    | 4 => g4a (b.extractLsb' 0 2 ++ cc.extractLsb' 1 15) (cc.extractLsb' 0 1 ++ d.extractLsb' 12 4) (d.extractLsb' 6 6) u
    | 8 => g8a c (b.extractLsb' 4 1) (b.extractLsb' 3 1) (cc.extractLsb' 0 11) d u
    | _ => gIgnored u

/-- `GROUP` (R231). -/
def execGroup (ab cd : Word) (s : State) : Result :=
  .next (onGroup (blockHigh ab) (groupRule s.params (blockLow ab) (blockHigh cd) (blockLow cd)) s)

/-- `RDSRESET` on the machine (R241): the PI-change reset with no PI to adopt. -/
def rdsReset (s : State) : State := (s.withRds { (rdsClear s.rds).1 with pi := none }).emit (rdsClear s.rds).2

/-- `RDSRESET` as an operation of its own on the internal path (R241). -/
def execRdsreset (s : State) : Result := .next (rdsReset s)

/-- `RDS.GB` (R233). -/
def execRdsGB (pi : Block) (s : State) : Result := .next (onGroup pi gIgnored s)
/-- `RDS.G0A` (R235). -/
def execRdsG0A (pi : Block) (idx : BitVec 2) (c0 c1 : Byte) (s : State) : Result := .next (onGroup pi (g0a idx c0 c1) s)
/-- `RDS.G2A` (R236). -/
def execRdsG2A (pi : Block) (ab : BitVec 1) (idx : BitVec 4) (t0 t1 t2 t3 : Byte) (s : State) : Result :=
  .next (onGroup pi (g2a s.params (ab.getLsbD 0) idx t0 t1 t2 t3) s)
/-- `RDS.G4A` (R238). -/
def execRdsG4A (pi : Block) (day : BitVec 17) (hour : BitVec 5) (minute : BitVec 6) (s : State) : Result :=
  .next (onGroup pi (g4a day hour minute) s)
/-- `RDS.G8A` (R239). -/
def execRdsG8A (pi : Block) (t f : BitVec 1) (event : BitVec 11) (location : BitVec 16) (s : State) : Result :=
  .next (onGroup pi (g8a s.params t f event location) s)
/-- `RDS.G1A` (R240). -/
def execRdsG1A (pi : Block) (s : State) : Result := .next (onGroup pi gIgnored s)
/-- `RDS.G3A` (R240). -/
def execRdsG3A (pi : Block) (s : State) : Result := .next (onGroup pi gIgnored s)
/-- `RDS.G5A` (R240). -/
def execRdsG5A (pi : Block) (s : State) : Result := .next (onGroup pi gIgnored s)
/-- `RDS.G6A` (R240). -/
def execRdsG6A (pi : Block) (s : State) : Result := .next (onGroup pi gIgnored s)
/-- `RDS.G7A` (R240). -/
def execRdsG7A (pi : Block) (s : State) : Result := .next (onGroup pi gIgnored s)
/-- `RDS.G9A` (R240). -/
def execRdsG9A (pi : Block) (s : State) : Result := .next (onGroup pi gIgnored s)
/-- `RDS.G10A` (R240). -/
def execRdsG10A (pi : Block) (s : State) : Result := .next (onGroup pi gIgnored s)
/-- `RDS.G11A` (R240). -/
def execRdsG11A (pi : Block) (s : State) : Result := .next (onGroup pi gIgnored s)
/-- `RDS.G12A` (R240). -/
def execRdsG12A (pi : Block) (s : State) : Result := .next (onGroup pi gIgnored s)
/-- `RDS.G13A` (R240). -/
def execRdsG13A (pi : Block) (s : State) : Result := .next (onGroup pi gIgnored s)
/-- `RDS.G14A` (R240). -/
def execRdsG14A (pi : Block) (s : State) : Result := .next (onGroup pi gIgnored s)
/-- `RDS.G15A` (R240). -/
def execRdsG15A (pi : Block) (s : State) : Result := .next (onGroup pi gIgnored s)

end Sys2Proof.Machine
end

