-- ==== Sys2Proof/Machine/Eng.lean ====
section
/-! DEFINITION. Machine/Eng.lean: the ENG unit (45_engine_control.md R320 to R347): run control, frequency, the six
setters, the seek sequencer, and the scan session it opens and closes (43_station_scanner.md R260 to R262). -/

namespace Sys2Proof.Machine

/-- `SetFreq` (R322). -/
def setFreq (f : Word) (s : State) : State :=
  ((s.withEng { s.eng with freq := f }).request (.setFreq f)).emit [.freqChanged f]

/-- `Advance` (R342), in the integers; the result is in `[lo, hi]` where `lo ≤ hi`. -/
def advance (f step lo hi : Word) : Word :=
  let g := u32Value f + s32Value step
  if u32Value hi < g then lo
  else if g < u32Value lo then hi
  else BitVec.ofInt 32 g

/-- `START` (R323). -/
def execStart (s : State) : Result :=
  if s.eng.run ≠ .running then
    .next (((s.request .start).withEng { s.eng with run := .running }).respondStatus .cp .ok)
  else .next (s.respondStatus .cp .ok)

/-- `STOP` (R324). -/
def execStop (s : State) : Result :=
  if s.eng.run = .running then
    .next (((s.request .stop).withEng { s.eng with run := .paused }).respondStatus .cp .ok)
  else .next (s.respondStatus .cp .ok)

/-- `TUNE` (R325). -/
def execTune (freq : Word) (s : State) : Result := .next ((rdsReset (setFreq freq s)).respondStatus .cp .ok)

/-- `GETFREQ` (R326). -/
def execGetfreq (s : State) : Result := .next (s.respond ⟨.cp, none, .ok, [s.eng.freq], []⟩)

/-- `FREQCHG` (R346): no FP request, no RDS reset. -/
def execFreqchg (freq : Word) (s : State) : Result :=
  .next ((s.withEng { s.eng with freq := freq }).emit [.freqChanged freq])

/-- `SETMODE` (R331). -/
def execSetmode (mode : Mode) (s : State) : Result := .next ((s.withCr { s.cr with mode := mode }).respondStatus .cp .ok)

/-- `SETCHAN` (R332). -/
def execSetchan (chan : Chan) (s : State) : Result := .next ((s.withCr { s.cr with chan := chan }).respondStatus .cp .ok)

/-- `SETDEEMPH` (R333). -/
def execSetdeemph (deemph : Deemph) (s : State) : Result :=
  .next ((s.withCr { s.cr with deemph := deemph }).respondStatus .cp .ok)

/-- `SETSQUELCH` (R334): both registers in the one step; a level that is not a value is refused (R373). -/
def execSetsquelch (en : Bool) (level : Word) (s : State) : Result :=
  match f32Operand level with
  | none => .next (s.refuse .cp .errArg)
  | some x => .next ((s.withCr { s.cr with sqEn := en, sqLevel := x }).respondStatus .cp .ok)

/-- `SETGAIN` (R335). -/
def execSetgain (level : Word) (s : State) : Result := .next ((s.withCr { s.cr with att := level }).respondStatus .cp .ok)

/-- `SETRDSMODE` (R336). -/
def execSetrdsmode (mode : RdsMode) (s : State) : Result :=
  .next ((s.withCr { s.cr with rdsMode := mode }).respondStatus .cp .ok)

/-- `SCANSTART` on the unit (43_station_scanner.md R260). -/
def scanStart (thr : RNum) (token : Word) (u : Scan) : Scan :=
  { u with threshold := thr, token := token, cand := [], blkIdx := 0, scanning := true }

/-- `SCANSTOP` on the unit (R261). -/
def scanStop (u : Scan) : Scan := { u with scanning := false, cand := [] }

/-- `SCANSTART` as an operation of its own on the internal path (R260). -/
def execScanstart (thr token : Word) (s : State) : Result :=
  match f32Operand thr with
  | none => .next (s.refuse .inside .errArg)
  | some x => .next (s.withScan (scanStart x token s.scan))

/-- `SCANSTOP` as an operation of its own on the internal path (R261). -/
def execScanstop (s : State) : Result := .next (s.withScan (scanStop s.scan))

/-- `SCANQ` (R262): returns SCANNING to the unit that asked. -/
def execScanq (s : State) : Result :=
  .next (s.respond ⟨.inside, none, .ok, [if s.scan.scanning then 1#32 else 0#32], []⟩)

/-- `SEEK` (R340), its checks passed. -/
def seekRun (thr : RNum) (fmin fmax step interval token : Word) (s : State) : State :=
  let s1 := s.withEng { s.eng with
    seekPre := s.eng.freq, seekMin := fmin, seekMax := fmax, seekStep := step, seekInterval := interval,
    seekToken := token, seekActive := true, timerArmed := false }
  let s2 := setFreq (advance s.eng.freq step fmin fmax) s1
  let s3 := s2.withScan (scanStart thr token s2.scan)
  s3.withEng { s3.eng with timerArmed := true }

/-- `SEEK` (R340). -/
def execSeek (thr fmin fmax step interval token : Word) (s : State) : Result :=
  match f32Operand thr with
  | none => .next (s.refuse .cp .errArg)
  | some x =>
    if u32Value fmax < u32Value fmin then .next (s.refuse .cp .errArg)
    else .next ((seekRun x fmin fmax step interval token s).respondStatus .cp .ok)

/-- `TICK` (R341): not enabled unless the timer is armed, and then dropped (R373). -/
def execTick (s : State) : Result :=
  if s.eng.timerArmed = false then .next s
  else if s.eng.seekActive = false ∨ s.scan.scanning = false then
    .next (s.withEng { s.eng with timerArmed := false })
  else .next (setFreq (advance s.eng.freq s.eng.seekStep s.eng.seekMin s.eng.seekMax) s)

/-- `CANCELSEEK` (R343). -/
def execCancelseek (s : State) : Result :=
  if s.eng.seekActive then
    let s1 := (s.withEng { s.eng with timerArmed := false }).withScan (scanStop s.scan)
    let s2 := rdsReset (setFreq s.eng.seekPre s1)
    .next ((s2.withEng { s2.eng with seekActive := false }).respondStatus .cp .ok)
  else .next (s.respondStatus .cp .ok)

/-- `ScanComplete` (R344): the engine does not tune to what was found. -/
def scanComplete (found token : Word) (s : State) : State :=
  (s.withEng { s.eng with timerArmed := false, seekActive := false }).emit [.stationFound found token]

end Sys2Proof.Machine
end

