-- ==== Sys2Proof/Machine/Scan.lean ====
section
/-! DEFINITION. Machine/Scan.lean: the SCAN unit's per-sample check (43_station_scanner.md R263 to R271): the
spectrum, the ratio, the candidates and the finish. -/

namespace Sys2Proof.Machine

/-- The angle of a term of the transform, `-2π·k·n / N_FFT` (R265), each operation rounded (R12), from the left (log
entry 2). -/
def dftAngle (c : Config) (k n : Nat) : RNum :=
  c.div (c.mul (c.mul (c.mul (c.neg (.rat 2)) .pi) (RNum.ofNat k)) (RNum.ofNat n)) (RNum.ofNat c.nFft)

/-- One term of the transform: `BLK[n] · exp(-2πi·k·n / N_FFT)` (R265). -/
def dftTerm (c : Config) (blk : List (Nat × Cplx)) (k n : Nat) : Cplx :=
  Cplx.mul c (blockAt blk n) (Cplx.cis c (dftAngle c k n))

/-- `X[k]` (R265). -/
def dftBin (c : Config) (blk : List (Nat × Cplx)) (k : Nat) : Cplx :=
  (List.range c.nFft).foldr (fun n acc => Cplx.add c (dftTerm c blk k n) acc) Cplx.zero

/-- The bins of `SIG` (R265), in the order a mean adds their magnitudes, which is the model's choice (log entry 2). -/
def sigBins (c : Config) : List Nat :=
  (List.range (c.sigHi + 1 - c.sigLo)).flatMap fun j => [c.sigLo + j, c.nFft - (c.sigLo + j)]

/-- The bins of `NOISE` (R265), in the order a mean adds their magnitudes, which is the model's choice (log entry 2). -/
def noiseBins (c : Config) : List Nat :=
  (List.range (c.noiseHi + 1 - c.noiseLo)).flatMap fun j => [c.nFft / 2 - (c.noiseLo + j), c.nFft / 2 + (c.noiseLo + j)]

/-- The sum of a list of reals: each term is added to the rounded sum of the later ones, which begins at 0. R264 and R12
give no order, and only a rounding `rnd` can tell (log entry 2). -/
def sumReal (c : Config) : List RNum → RNum
  | [] => .rat 0
  | x :: xs => c.add x (sumReal c xs)

/-- The mean of `|X[k]|` over a list of bins (R264, R265). -/
def meanMagnitude (c : Config) (blk : List (Nat × Cplx)) (bins : List Nat) : RNum :=
  c.div (sumReal c (bins.map fun k => (dftBin c blk k).abs c)) (RNum.ofNat bins.length)

/-- `ratioDb` of a block (R264, R266). -/
def ratioDb (c : Config) (blk : List (Nat × Cplx)) : RNum :=
  c.sub (logMag c (meanMagnitude c blk (sigBins c))) (logMag c (meanMagnitude c blk (noiseBins c)))

/-- `Accumulate` (R267): only the last candidate is compared. -/
def accumulate (c : Config) (f : Word) (r : RNum) : List Candidate → List Candidate
  | [] => [⟨f, r, 1⟩]
  | [x] => if x.freq = f then [⟨x.freq, c.add x.sum r, x.count + 1⟩] else [x, ⟨f, r, 1⟩]
  | x :: y :: rest => x :: accumulate c f r (y :: rest)

/-- The averaged ratio of candidate `i` (R268). -/
def averageAt (c : Config) (cand : List Candidate) (i : Nat) : RNum :=
  let x := cand.getD i default
  c.div x.sum (RNum.ofNat x.count)

/-- The index `Finish` picks (R268): the middle of the list; of two middle ones the later only if its average is
higher. -/
def winnerIndex (c : Config) (cand : List Candidate) : Nat :=
  let n := cand.length
  if n % 2 = 1 then (n - 1) / 2
  else if (averageAt c cand (n / 2 - 1)).lt (averageAt c cand (n / 2)) then n / 2 else n / 2 - 1

/-- The frequency `Finish` reports (R268). -/
def winner (c : Config) (cand : List Candidate) : Word := (cand.getD (winnerIndex c cand) default).freq

/-- `Finish` on the unit (R268). -/
def finishScan (u : Scan) : Scan := { u with cand := [], scanning := false }

/-- `SCANFEED` with its sample stored: the block index advances and wraps (R263). -/
def blockStored (c : Config) (z : Cplx) (u : Scan) : Scan :=
  { u with
    blk := Memory.write Cplx.zero u.blk u.blkIdx z
    blkIdx := if u.blkIdx + 1 = c.nFft then 0 else u.blkIdx + 1 }

/-- `Evaluate` (R264) on the machine: above the threshold a candidate accumulates; at or below it, with a candidate,
the scan finishes; otherwise nothing. -/
def evaluate (s : State) : State :=
  let r := ratioDb s.params s.scan.blk
  if s.scan.threshold.lt r then s.withScan { s.scan with cand := accumulate s.params s.eng.freq r s.scan.cand }
  else if s.scan.cand ≠ [] then
    scanComplete (winner s.params s.scan.cand) s.scan.token (s.withScan (finishScan s.scan))
  else s

/-- `SCANFEED` on the machine (R263). -/
def scanFeed (z : Cplx) (s : State) : State :=
  if s.scan.scanning = false then s
  else
    let s1 := s.withScan (blockStored s.params z s.scan)
    if s.scan.blkIdx + 1 = s.params.nFft then evaluate s1 else s1

/-- `SCANFEED` as an operation of its own on the internal path (R263); operands that are not values drop it (R373). -/
def execScanfeed (i q : Word) (s : State) : Result :=
  match cplxOperand i q with
  | none => .next s
  | some z => .next (scanFeed z s)

end Sys2Proof.Machine
end

