-- ==== Sys2Proof/Machine/Demod.lean ====
section
/-! DEFINITION. Machine/Demod.lean: the DEMOD unit (41_demodulator.md R170 to R193): `SAMPLE` and its nine stages. The
configuration a stage reads is the snapshot taken at the start of the step (R171). -/

namespace Sys2Proof.Machine

/-- `InputDecimate` (R173). -/
def inputDecimate (c : Config) (x : Cplx) (u : Demod) : Demod × Option Cplx :=
  let dl := shiftIn c.hIn.length x u.inDl
  let ph := (u.inPh + 1) % c.rIn
  ({ u with inDl := dl, inPh := ph }, if ph = 0 then some (firCplx c c.hIn dl) else none)

/-- The target gain at a window's end (R177). -/
def gainTarget (c : Config) (peak : RNum) : RNum :=
  RNum.max (if (RNum.rat 0).lt peak then c.div (c.div c.maxDev c.normDev) peak else c.gainFloor) c.gainFloor

/-- `GainUpdate` (R177). -/
def gainUpdate (c : Config) (u : Demod) : Demod :=
  { u with
    gainAvg := c.add (c.mul c.emaOld u.gainAvg) (c.mul c.emaNew (gainTarget c u.peak))
    peak := .rat 0
    peakCnt := 0 }

/-- `PeakTrack` (R176). -/
def peakTrack (c : Config) (a : RNum) (u : Demod) : Demod :=
  let v := { u with peak := RNum.max u.peak a, peakCnt := u.peakCnt + 1 }
  if v.peakCnt = (c.peakWindow : Nat) then gainUpdate c v else v

/-- The time constant of a setting (R185). -/
def deemphTau (c : Config) : Deemph → RNum
  | .flat => c.tauFlat
  | .t50 => c.tau50
  | .t75 => c.tau75

/-- `alpha = 1 / (FM_RATE · tau + 1)` (R185). No check of construction keeps `tau` positive; where the divisor is 0 the
spec states no coefficient, and it is a free value (log entries 16 and 25). -/
def deemphAlpha (c : Config) (d : Deemph) : RNum :=
  let m := c.add (c.mul (RNum.ofNat c.fmRate) (deemphTau c d)) (.rat 1)
  if m.eqv (.rat 0) then Config.alphaOverZero c.fmRate else c.div (.rat 1) m

/-- One step of the one-pole low-pass: `y + alpha · (x - y)` (R185). -/
def deemphStep (c : Config) (alpha y x : RNum) : RNum := c.add y (c.mul alpha (c.sub x y))

/-- `psi = phase(PT) + PILOT_DELAY` (R183). -/
def mixPhase (c : Config) (pt : PilotState) : RNum := c.add (pilotPhase c pt) c.pilotDelay

/-- The L-R signal before de-emphasis: `G_DIFF · cos(2 psi) · d` (R183). -/
def diffRaw (c : Config) (pt : PilotState) (d : RNum) : RNum :=
  c.mul (c.mul c.gDiff (c.cos (c.mul (.rat 2) (mixPhase c pt)))) d

/-- `Matrix` (R186). -/
def matrix (c : Config) (chan : Chan) (s d : RNum) : Frame :=
  match chan with
  | .stereo => ⟨c.add s d, c.neg (c.add (c.neg s) d)⟩
  | .left => ⟨c.add s d, c.add s d⟩
  | .right => ⟨c.neg (c.add (c.neg s) d), c.neg (c.add (c.neg s) d)⟩
  | .sum => ⟨s, s⟩
  | .diff => ⟨d, d⟩

/-- The output pair of stages 6 and 7 and the de-emphasis memories: stereo decode through the matrix (R184, R186), mono
decode on both lanes (R182). -/
def decodePair (c : Config) (cr : ControlRegs) (d : RNum) (u : Demod) : Demod × Frame :=
  let alpha := deemphAlpha c cr.deemph
  let deS := deemphStep c alpha u.deS d
  if u.stereoActive then
    let deD := deemphStep c alpha u.deD (diffRaw c u.pt d)
    ({ u with deS := deS, deD := deD }, matrix c cr.chan deS deD)
  else ({ u with deS := deS }, ⟨deS, deS⟩)

/-- `AudioDecimate` (R188). -/
def audioDecimate (c : Config) (pair : Frame) (u : Demod) : Demod × Option Frame :=
  let dl := shiftIn c.hAud.length pair u.audDl
  let ph := (u.audPh + 1) % c.rAud
  ({ u with audDl := dl, audPh := ph }, if ph = 0 then some (firFrame c c.hAud dl) else none)

/-- `Squelch` (R189). -/
def squelch (c : Config) (cr : ControlRegs) (u : Demod) (f : Frame) : Frame :=
  if squelched cr.sqEn (noiseLevel c u.nm) cr.sqLevel then Frame.zero else f

/-- `RdsFrontEnd` (R191, R192). -/
def rdsFrontEnd (c : Config) (cr : ControlRegs) (d : RNum) (u : Demod) : Demod × Option RbRecord :=
  if cr.rdsMode = .off then (u, none)
  else
    let x := frontStep c u.rf u.stereoActive d (c.mul (.rat 3) (mixPhase c u.pt))
    ({ u with rf := x.1 }, x.2.map fun b => ⟨cr.rdsMode, b⟩)

/-- Stages 5 and 6 up to the routing: the discriminator, the noise measure, the pilot tracker, `STEREO_ACTIVE`
(R179, R180, R181, R189), and the demodulated signal. -/
def demodulate (c : Config) (cr : ControlRegs) (v : Cplx) (u : Demod) : Demod × RNum :=
  let d := fmDemod c v u.zPrev
  let pt := pilotStep c u.pt d
  ({ u with
     zPrev := v
     nm := noiseStep c u.nm d
     pt := pt
     stereoActive := stereoSelected cr.mode (pilotFound c (pilotLevel c pt) (noiseFloor c pt)) }, d)

/-- What stages 4 to 9 answer: the registers, the PCM frame if one is due, the RB record if one is due. -/
structure DemodOut where
  dem : Demod
  frame : Option Frame
  rb : Option RbRecord
deriving DecidableEq, Repr

/-- Stages 4 to 9 on the unit (R172). -/
def demodStages (c : Config) (cr : ControlRegs) (v : Cplx) (u : Demod) : DemodOut :=
  let u4 := peakTrack c (v.abs c) u
  let x := demodulate c cr v u4
  let y := decodePair c cr x.2 x.1
  let z := audioDecimate c (Frame.smul c y.1.gainAvg y.2) y.1
  let w := rdsFrontEnd c cr x.2 z.1
  ⟨w.1, z.2.map (squelch c cr z.1), w.2⟩

/-- Stage 8's emission: one `WRITE` of two samples, left first; its result is ignored (R190). -/
def emitFrame (f : Option Frame) (s : State) : State :=
  match f with
  | some f => s.withArb (arbWrite s.params [f.l, f.r] s.arb)
  | none => s

/-- The RB record of stage 9 (R191). -/
def emitRecord (b : Option RbRecord) (s : State) : State :=
  match b with
  | some b => s.record b
  | none => s

/-- `ScanDivert` (R175): while SCANNING the scanner gets the sample and the demodulator gets zero. -/
def scanDivert (v : Cplx) (s : State) : State × Cplx :=
  if s.scan.scanning then (scanFeed v s, Cplx.zero) else (s, v)

/-- `FmTick` (R172): the work of one FM-rate sample, with the snapshot `cr`. -/
def fmTick (cr : ControlRegs) (v : Cplx) (s : State) : State :=
  let a := scanDivert (Cplx.smul s.params (u32Real cr.att) v) s
  let b := demodStages s.params cr a.2 a.1.dem
  emitRecord b.rb (emitFrame b.frame (a.1.withDem b.dem))

/-- `SAMPLE` on the machine (R170): one input sample; an FM-rate sample runs `FmTick`. -/
def sampleStep (x : Cplx) (s : State) : State :=
  let a := inputDecimate s.params x s.dem
  match a.2 with
  | some v => fmTick s.cr v (s.withDem a.1)
  | none => s.withDem a.1

/-- `SAMPLE` (R170): exists only while RUNNING, dropped otherwise; a sample that is not a value is dropped (R373). -/
def execSample (i q : Word) (s : State) : Result :=
  match cplxOperand i q with
  | none => .next s
  | some x => if s.eng.run = .running then .next (sampleStep x s) else .next s

end Sys2Proof.Machine
end

