-- ==== Sys2Proof/Machine/Dispatch.lean ====
section
/-! DEFINITION. Machine/Dispatch.lean: one arm per operation of spec/opcode_table.json, each one call of its meaning. -/

namespace Sys2Proof.Machine

def exec (i : Instr) (s : State) : Host.Outcome State Fault Refusal :=
  match i with
  | .start => Sys2Proof.Machine.execStart s
  | .stop => Sys2Proof.Machine.execStop s
  | .tune freq => Sys2Proof.Machine.execTune freq s
  | .getfreq => Sys2Proof.Machine.execGetfreq s
  | .seek thr fmin fmax step interval token => Sys2Proof.Machine.execSeek thr fmin fmax step interval token s
  | .cancelseek => Sys2Proof.Machine.execCancelseek s
  | .setchan chan => Sys2Proof.Machine.execSetchan chan s
  | .setdeemph deemph => Sys2Proof.Machine.execSetdeemph deemph s
  | .setsquelch en level => Sys2Proof.Machine.execSetsquelch en level s
  | .setgain level => Sys2Proof.Machine.execSetgain level s
  | .setrdsmode mode => Sys2Proof.Machine.execSetrdsmode mode s
  | .setmode mode => Sys2Proof.Machine.execSetmode mode s
  | .read r frames => Sys2Proof.Machine.execRead r frames s
  | .waiting => Sys2Proof.Machine.execWaiting s
  | .cancel => Sys2Proof.Machine.execCancel s
  | .flush => Sys2Proof.Machine.execFlush s
  | .sample i0 q => Sys2Proof.Machine.execSample i0 q s
  | .group ab cd => Sys2Proof.Machine.execGroup ab cd s
  | .tick => Sys2Proof.Machine.execTick s
  | .timeout r => Sys2Proof.Machine.execTimeout r s
  | .freqchg freq => Sys2Proof.Machine.execFreqchg freq s
  | .wake r => Sys2Proof.Machine.execWake r s
  | .write samples => Sys2Proof.Machine.execWrite samples s
  | .scanstart thr token => Sys2Proof.Machine.execScanstart thr token s
  | .scanstop => Sys2Proof.Machine.execScanstop s
  | .scanq => Sys2Proof.Machine.execScanq s
  | .scanfeed i0 q => Sys2Proof.Machine.execScanfeed i0 q s
  | .rdsreset => Sys2Proof.Machine.execRdsreset s
  | .rdsGB pi _ _ _ _ _ _ => Sys2Proof.Machine.execRdsGB pi s
  | .rdsG0A pi _ _ _ idx _ c0 c1 => Sys2Proof.Machine.execRdsG0A pi idx c0 c1 s
  | .rdsG1A pi _ _ _ _ _ => Sys2Proof.Machine.execRdsG1A pi s
  | .rdsG2A pi _ _ ab idx t0 t1 t2 t3 => Sys2Proof.Machine.execRdsG2A pi ab idx t0 t1 t2 t3 s
  | .rdsG3A pi _ _ _ _ _ => Sys2Proof.Machine.execRdsG3A pi s
  | .rdsG4A pi _ _ _ day hour minute _ => Sys2Proof.Machine.execRdsG4A pi day hour minute s
  | .rdsG5A pi _ _ _ _ _ => Sys2Proof.Machine.execRdsG5A pi s
  | .rdsG6A pi _ _ _ _ _ => Sys2Proof.Machine.execRdsG6A pi s
  | .rdsG7A pi _ _ _ _ _ => Sys2Proof.Machine.execRdsG7A pi s
  | .rdsG8A pi _ _ t f _ _ _ _ event location => Sys2Proof.Machine.execRdsG8A pi t f event location s
  | .rdsG9A pi _ _ _ _ _ => Sys2Proof.Machine.execRdsG9A pi s
  | .rdsG10A pi _ _ _ _ _ => Sys2Proof.Machine.execRdsG10A pi s
  | .rdsG11A pi _ _ _ _ _ => Sys2Proof.Machine.execRdsG11A pi s
  | .rdsG12A pi _ _ _ _ _ => Sys2Proof.Machine.execRdsG12A pi s
  | .rdsG13A pi _ _ _ _ _ => Sys2Proof.Machine.execRdsG13A pi s
  | .rdsG14A pi _ _ _ _ _ => Sys2Proof.Machine.execRdsG14A pi s
  | .rdsG15A pi _ _ _ _ _ => Sys2Proof.Machine.execRdsG15A pi s

end Sys2Proof.Machine
end

