-- ==== Sys2Proof/Machine/Fetch.lean ====
section
/-! DEFINITION. Machine/Fetch.lean: taking the next operation presented at a port (30_encoding.md R121, R124; log
entries 5 and 10). -/

namespace Sys2Proof.Machine

/-- The machine with the first delivery taken: `ds` are those that stay, `p` is the port the operation arrived on. -/
def State.taken (s : State) (p : Port) (ds : List Delivery) : State := { s with inq := ds, port := p }

/-- What stays of a delivery of words once the first `n` are taken. -/
def restOf (p : Port) (ws : List Word) (n : Nat) (ds : List Delivery) : List Delivery :=
  match ws.drop n with
  | [] => ds
  | w :: rest => .op p (w :: rest) :: ds

/-- What the next operation is. -/
inductive Fetched where
  /-- nothing is presented, or only an operation that has not arrived whole -/
  | idle (s : State)
  /-- the decoder rejects it, or the port does not accept it -/
  | rejected (p : Port) (status : Option Status) (s : State)
  /-- operation `i`, to be run in state `s` -/
  | run (i : Instr) (s : State)

/-- The next operation, at its port: a port that does not accept the opcode refuses it with ERR_OP before any argument
is looked at (R140, R381). -/
def fetch (s : State) : Fetched :=
  match s.inq with
  | [] => .idle s
  | .group g :: ds => .run (decodeGroup g) (s.taken .gp ds)
  | .op _ [] :: ds => .idle { s with inq := ds }
  | .op p (h :: ws) :: ds =>
    if (h :: ws).length < opLength h then .idle { s with inq := ds }
    else
      let t := s.taken p (restOf p (h :: ws) (opLength h) ds)
      if portAccepts p h = false then .rejected p (some .errOp) t
      else match decodeOp (h :: ws) with
        | .ok i => .run i t
        | .error e => .rejected p (rejectStatus e) t

/-- The port a table row's delivery is presented at. -/
def tableDelivery (nbits w : Nat) : Delivery :=
  match tableWire nbits w with
  | .group g => .group g
  | .op ws => .op (homePort (ws.headD 0#32)) ws

end Sys2Proof.Machine
end

