-- ==== Sys2Proof/Machine/Step.lean ====
section
/-! DEFINITION. Machine/Step.lean: one step: the next operation presented at a port is taken and run (20_memory.md
R100: atomic). With nothing presented the machine stays as it is. -/

namespace Sys2Proof.Machine

/-- One step of FMRX. -/
def step (s : State) : Host.Outcome State Fault Refusal :=
  match fetch s with
  | .idle t => .next t
  | .rejected p (some st) t => .next (t.refuse p st)
  | .rejected _ none t => .next t
  | .run i t => exec i t

/-- The state with a table row's instruction presented next, at its own port. -/
def State.withFetchWord (s : State) (nbits w : Nat) : State := { s with inq := tableDelivery nbits w :: s.inq }

end Sys2Proof.Machine
end

