-- ==== Sys2Proof/Laws/Num.lean ====
section
/-! SUPPORT. Laws/Num.lean: each number operation denotes the real operation of its name (00_scope.md R12, R14). -/

namespace Sys2Proof

/-- What an atom denotes: the factor a coefficient multiplies. -/
noncomputable def atomReal : Option RNum → ℝ
  | none => 1
  | some x => x.toReal

@[simp] theorem atomReal_none : atomReal none = 1 := rfl
@[simp] theorem atomReal_some (x : RNum) : atomReal (some x) = x.toReal := rfl
@[simp] theorem toReal_rat (q : Rat) : (RNum.rat q).toReal = (q : ℝ) := rfl
@[simp] theorem toReal_pi : RNum.pi.toReal = Real.pi := rfl
@[simp] theorem toReal_sum (a b : RNum) : (RNum.sum a b).toReal = a.toReal + b.toReal := rfl
@[simp] theorem toReal_prod (a b : RNum) : (RNum.prod a b).toReal = a.toReal * b.toReal := rfl
@[simp] theorem toReal_recip (a : RNum) : (RNum.recip a).toReal = a.toReal⁻¹ := rfl
@[simp] theorem toReal_powTen (a : RNum) : (RNum.powTen a).toReal = (10 : ℝ) ^ a.toReal := rfl
@[simp] theorem toReal_cosine (a : RNum) : (RNum.cosine a).toReal = Real.cos a.toReal := rfl
@[simp] theorem toReal_zero : RNum.zero.toReal = 0 := by simp [RNum.zero]
@[simp] theorem toReal_one : RNum.one.toReal = 1 := by simp [RNum.one]
@[simp] theorem toReal_ofNat (n : Nat) : (RNum.ofNat n).toReal = n := by simp [RNum.ofNat]

theorem toReal_split (a : RNum) : a.toReal = (a.split.1 : ℝ) * atomReal a.split.2 := by
  unfold RNum.split
  split <;> simp

@[simp] theorem toReal_join (q : Rat) (o : Option RNum) : (RNum.join q o).toReal = (q : ℝ) * atomReal o := by
  cases o with
  | none => simp [RNum.join]
  | some x =>
    simp only [RNum.join]
    split
    · simp_all
    · split <;> simp_all

@[simp] theorem toReal_scale (q : Rat) (a : RNum) : (a.scale q).toReal = (q : ℝ) * a.toReal := by
  induction a with
  | sum a b iha ihb =>
    simp only [RNum.scale]
    split
    · simp_all
    · simp [iha, ihb, mul_add]
  | _ =>
    simp only [RNum.scale, toReal_join, Rat.cast_mul]
    rw [mul_assoc, ← toReal_split]

theorem toReal_addTerm_aux (t b : RNum) :
    (if b.split.2 = t.split.2 then RNum.join (b.split.1 + t.split.1) b.split.2
     else if b.split.1 = 0 then t else if t.split.1 = 0 then b else RNum.sum b t).toReal = t.toReal + b.toReal := by
  split
  · next h =>
    rw [toReal_join, toReal_split t, toReal_split b, ← h]
    push_cast
    ring
  · split
    · next h => rw [toReal_split b, h]; simp
    · split
      · next h => rw [toReal_split t, h]; simp
      · simp [add_comm]

@[simp] theorem toReal_addTerm (t b : RNum) : (RNum.addTerm t b).toReal = t.toReal + b.toReal := by
  induction b with
  | sum a b _ ihb =>
    simp only [RNum.addTerm]
    split
    · next h =>
      have ha := toReal_split a
      have ht := toReal_split t
      rw [← h] at ht
      split
      · next h0 =>
        have h1 : ((a.split.1 : ℝ) + (t.split.1 : ℝ)) = 0 := by exact_mod_cast h0
        simp only [toReal_sum]
        linear_combination (-1 : ℝ) * ha - ht - atomReal a.split.2 * h1
      · simp only [toReal_sum, toReal_join, Rat.cast_add]
        linear_combination (-1 : ℝ) * ha - ht
    · simp [ihb]; ring
  | _ => exact toReal_addTerm_aux t _

@[simp] theorem toReal_add (a b : RNum) : (a.add b).toReal = a.toReal + b.toReal := by
  induction a generalizing b with
  | sum x y _ ihy => simp [RNum.add, ihy]; ring
  | _ => simp [RNum.add]

theorem toReal_joinAtoms (x y : RNum) :
    ((RNum.joinAtoms x y).1 : ℝ) * atomReal (RNum.joinAtoms x y).2 = x.toReal * y.toReal := by
  unfold RNum.joinAtoms
  split
  · simp
  · simp
  · split
    · next h =>
      obtain ⟨rfl, h0⟩ := h
      have h1 : (0 : ℝ) ≤ _ := Rat.cast_nonneg.mpr h0
      simp only [RNum.toReal, atomReal_none, mul_one]
      rw [← Real.rpow_add_of_nonneg h1 (by norm_num) (by norm_num)]
      norm_num
    · simp
  · simp

@[simp] theorem toReal_mul (a b : RNum) : (a.mul b).toReal = a.toReal * b.toReal := by
  have ha := toReal_split a
  have hb := toReal_split b
  unfold RNum.mul
  cases h1 : a.split.2 with
  | none => simp [ha, h1]
  | some x =>
    cases h2 : b.split.2 with
    | none => simp [hb, h2, mul_comm]
    | some y =>
      rw [h1] at ha
      rw [h2] at hb
      simp only [toReal_join, Rat.cast_mul, mul_assoc, toReal_joinAtoms, ha, hb, atomReal_some]
      ring

@[simp] theorem toReal_neg (a : RNum) : a.neg.toReal = - a.toReal := by simp [RNum.neg]

@[simp] theorem toReal_sub (a b : RNum) : (a.sub b).toReal = a.toReal - b.toReal := by
  unfold RNum.sub
  split
  · simp_all
  · simp [sub_eq_add_neg]

@[simp] theorem toReal_inv (a : RNum) : a.inv.toReal = a.toReal⁻¹ := by
  unfold RNum.inv
  have ha := toReal_split a
  split <;> next h => rw [h] at ha; simp [ha, mul_comm]

@[simp] theorem toReal_div (a b : RNum) : (a.div b).toReal = a.toReal / b.toReal := by
  simp [RNum.div, div_eq_mul_inv]

end Sys2Proof
end

