-- ==== Sys2Proof/Laws/Enclose.lean ====
section
/-! SUPPORT. Laws/Enclose.lean: the rational bounds of Machine/Enclose.lean hold. -/

namespace Sys2Proof

/-- The real number lies within the rational bounds. -/
def Within (b : Rat × Rat) (x : ℝ) : Prop := (b.1 : ℝ) ≤ x ∧ x ≤ (b.2 : ℝ)

theorem natPow_eq (a n : Nat) : Nat.pow a n = a ^ n := rfl

/-- A non-negative rational is the quotient of its naturals. -/
theorem cast_eq_num_div_den {q : Rat} (h : 0 ≤ q) : (q : ℝ) = (q.num.toNat : ℝ) / (q.den : ℝ) := by
  have h1 : ((q.num.toNat : Int) : ℝ) = (q.num : ℝ) := by
    rw [Int.toNat_of_nonneg (Rat.num_nonneg.mpr h)]
  rw [Rat.cast_def, ← h1, Int.cast_natCast]

theorem rootGrid_pos : (0 : ℝ) < (rootGrid : ℝ) := by norm_num [rootGrid]

theorem cast_mkRat_grid (m : Nat) : ((mkRat m rootGrid : Rat) : ℝ) = (m : ℝ) / (rootGrid : ℝ) := by
  rw [Rat.mkRat_eq_div]; push_cast; rfl

theorem rpow_inv_pow {x : ℝ} (hx : 0 ≤ x) {n : Nat} (hn : 0 < n) : (x ^ ((1 : ℝ) / (n : ℝ))) ^ n = x := by
  rw [one_div]; exact Real.rpow_inv_natCast_pow hx hn.ne'

theorem rootBelow_sound {n : Nat} {q r : Rat} (hn : 0 < n) (hq : 0 ≤ q) (h : rootBelow n q = some r) :
    (r : ℝ) ≤ (q : ℝ) ^ ((1 : ℝ) / (n : ℝ)) := by
  simp only [rootBelow, natPow_eq] at h
  split at h
  · next hc =>
    cases h
    rw [cast_mkRat_grid]
    have hq' : (0 : ℝ) ≤ (q : ℝ) := by exact_mod_cast hq
    refine le_of_pow_le_pow_left₀ hn.ne' (Real.rpow_nonneg hq' _) ?_
    rw [rpow_inv_pow hq' hn, div_pow, cast_eq_num_div_den hq, div_le_div_iff₀ (pow_pos rootGrid_pos n)
      (by exact_mod_cast q.den_pos)]
    exact_mod_cast hc
  · cases h

theorem rootAbove_sound {n : Nat} {q r : Rat} (hn : 0 < n) (hq : 0 ≤ q) (h : rootAbove n q = some r) :
    (q : ℝ) ^ ((1 : ℝ) / (n : ℝ)) ≤ (r : ℝ) := by
  simp only [rootAbove, natPow_eq] at h
  split at h
  · next hc =>
    cases h
    rw [cast_mkRat_grid]
    have hq' : (0 : ℝ) ≤ (q : ℝ) := by exact_mod_cast hq
    refine le_of_pow_le_pow_left₀ hn.ne' (by positivity) ?_
    rw [rpow_inv_pow hq' hn, div_pow, cast_eq_num_div_den hq, div_le_div_iff₀ (by exact_mod_cast q.den_pos)
      (pow_pos rootGrid_pos n)]
    exact_mod_cast hc
  · cases h

theorem piBelow_le : (piBelow : ℝ) ≤ Real.pi := by
  have := Real.pi_gt_d20
  norm_num [piBelow] at *
  linarith

theorem le_piAbove : Real.pi ≤ (piAbove : ℝ) := by
  have := Real.pi_lt_d20
  norm_num [piAbove] at *
  linarith

theorem gridBelow_le (q : Rat) : gridBelow q ≤ q := by
  unfold gridBelow
  rw [Rat.mkRat_eq_div, div_le_iff₀ (by norm_num)]
  exact_mod_cast Int.floor_le _

theorem le_gridAbove (q : Rat) : q ≤ gridAbove q := by
  have := gridBelow_le (-q)
  unfold gridAbove
  linarith

theorem squareBounds_sound {b : Rat × Rat} {x : ℝ} (h : Within b x) : Within (squareBounds b.1 b.2) (x * x) := by
  obtain ⟨hl, hh⟩ := h
  unfold squareBounds
  split
  · next h0 =>
    have h0' : (0 : ℝ) ≤ (b.1 : ℝ) := by exact_mod_cast h0
    constructor <;> push_cast <;> nlinarith
  · split
    · next h0 =>
      have h0' : (b.2 : ℝ) ≤ 0 := by exact_mod_cast h0
      constructor <;> push_cast <;> nlinarith
    · constructor
      · push_cast; nlinarith
      · push_cast
        rcases le_total 0 x with h0 | h0
        · exact le_max_of_le_right (by nlinarith)
        · exact le_max_of_le_left (by nlinarith)

theorem doubleCos_sound (k : Nat) {b : Rat × Rat} {x : ℝ} (h : Within b (Real.cos x)) :
    Within (doubleCos k b) (Real.cos (2 ^ k * x)) := by
  induction k generalizing b x with
  | zero => simpa [doubleCos] using h
  | succ k ih =>
    have hs := squareBounds_sound h
    have h2 : Within (gridBelow (2 * (squareBounds b.1 b.2).1 - 1), gridAbove (2 * (squareBounds b.1 b.2).2 - 1))
        (Real.cos (2 * x)) := by
      rw [Real.cos_two_mul]
      have h1 : ((gridBelow (2 * (squareBounds b.1 b.2).1 - 1) : Rat) : ℝ) ≤ ((2 * (squareBounds b.1 b.2).1 - 1 : Rat) : ℝ) := by
        exact_mod_cast gridBelow_le _
      have h3 : ((2 * (squareBounds b.1 b.2).2 - 1 : Rat) : ℝ) ≤ ((gridAbove (2 * (squareBounds b.1 b.2).2 - 1) : Rat) : ℝ) := by
        exact_mod_cast le_gridAbove _
      push_cast at h1 h3
      constructor <;> simp only <;> nlinarith [hs.1, hs.2]
    have := ih h2
    rw [doubleCos, pow_succ, mul_assoc]
    exact this

theorem cosBounds_sound (m : Rat) : Within (cosBounds m) (Real.cos (m : ℝ)) := by
  have hb : Within (gridBelow (1 - m / 1048576 * (m / 1048576) / 2),
      gridAbove (if m / 1048576 * (m / 1048576) ≤ 1 then
        1 - m / 1048576 * (m / 1048576) / 2 + m / 1048576 * (m / 1048576) * (m / 1048576 * (m / 1048576)) * (5 / 96)
        else 1)) (Real.cos ((m / 1048576 : Rat) : ℝ)) := by
    generalize hc : m / 1048576 = c
    constructor
    · refine le_trans (b := ((1 - c * c / 2 : Rat) : ℝ)) (by exact_mod_cast gridBelow_le _) ?_
      have := Real.one_sub_sq_div_two_le_cos (x := (c : ℝ))
      push_cast
      nlinarith
    · split
      · next h =>
        refine le_trans ?_ (show ((1 - c * c / 2 + c * c * (c * c) * (5 / 96) : Rat) : ℝ) ≤ _ by
          exact_mod_cast le_gridAbove _)
        have h1 : |(c : ℝ)| ≤ 1 := by
          have : (c : ℝ) * c ≤ 1 := by exact_mod_cast h
          exact abs_le_one_iff_mul_self_le_one.mpr this
        have h2 := (abs_le.mp (Real.cos_bound h1)).2
        have h3 : |(c : ℝ)| ^ 4 = (c : ℝ) * c * (c * c) := by
          have := sq_abs (c : ℝ)
          calc |(c : ℝ)| ^ 4 = (|(c : ℝ)| ^ 2) ^ 2 := by ring
            _ = _ := by rw [this]; ring
        rw [h3] at h2
        push_cast
        nlinarith
      · exact (Real.cos_le_one _).trans (by exact_mod_cast le_gridAbove 1)
  have := doubleCos_sound 20 hb
  have he : (2 : ℝ) ^ 20 * ((m / 1048576 : Rat) : ℝ) = (m : ℝ) := by push_cast; norm_num; ring
  rw [he] at this
  exact this

theorem cosSpread_sound {l h : Rat} {x : ℝ} (hx : Within (l, h) x) : Within (cosSpread l h) (Real.cos x) := by
  have hb := cosBounds_sound ((l + h) / 2)
  have hd := abs_le.mp (Real.abs_cos_sub_cos_le x (((l + h) / 2 : Rat) : ℝ))
  have h1 : |x - (((l + h) / 2 : Rat) : ℝ)| ≤ ((h - l) / 2 : ℝ) := by
    obtain ⟨h2, h3⟩ := hx
    simp only at h2 h3
    rw [abs_le]
    push_cast
    constructor <;> linarith
  constructor
  · simp only [cosSpread]; push_cast; linarith [hb.1]
  · simp only [cosSpread]; push_cast; linarith [hb.2]

theorem logPower_pos : (0 : ℝ) < (logPower : ℝ) := by norm_num [logPower]

theorem cast_mkRat_logPower (n : Int) : ((mkRat n logPower : Rat) : ℝ) = (n : ℝ) / (logPower : ℝ) := by
  rw [Rat.mkRat_eq_div]; push_cast; rfl

theorem logb_ten_zpow (n : Int) : Real.logb 10 ((10 : ℝ) ^ n) = n := by
  rw [← Real.rpow_intCast, Real.logb_rpow (by norm_num) (by norm_num)]

theorem tenPowLe_sound {n : Int} {a b : Nat} (hb : 0 < b) (h : tenPowLe n a b = true) :
    (10 : ℝ) ^ n ≤ ((a : ℝ) / (b : ℝ)) ^ logPower := by
  have hb' : (0 : ℝ) < (b : ℝ) ^ logPower := pow_pos (by exact_mod_cast hb) _
  cases n with
  | ofNat k =>
    simp only [tenPowLe, natPow_eq, decide_eq_true_eq] at h
    rw [div_pow, le_div_iff₀ hb', Int.ofNat_eq_natCast, zpow_natCast]
    exact_mod_cast h
  | negSucc k =>
    simp only [tenPowLe, natPow_eq, decide_eq_true_eq] at h
    rw [div_pow, le_div_iff₀ hb', zpow_negSucc, inv_mul_le_iff₀ (by positivity), mul_comm]
    exact_mod_cast h

theorem lePowTen_sound {n : Int} {a b : Nat} (hb : 0 < b) (h : lePowTen n a b = true) :
    ((a : ℝ) / (b : ℝ)) ^ logPower ≤ (10 : ℝ) ^ n := by
  have hb' : (0 : ℝ) < (b : ℝ) ^ logPower := pow_pos (by exact_mod_cast hb) _
  cases n with
  | ofNat k =>
    simp only [lePowTen, natPow_eq, decide_eq_true_eq] at h
    rw [div_pow, div_le_iff₀ hb', Int.ofNat_eq_natCast, zpow_natCast]
    exact_mod_cast h
  | negSucc k =>
    simp only [lePowTen, natPow_eq, decide_eq_true_eq] at h
    rw [div_pow, div_le_iff₀ hb', zpow_negSucc, ← div_eq_inv_mul, le_div_iff₀ (by positivity)]
    exact_mod_cast h

theorem logBelow_sound {q r : Rat} (hq : 0 < q) (h : logBelow q = some r) : (r : ℝ) ≤ Real.logb 10 (q : ℝ) := by
  simp only [logBelow, Option.map_eq_some_iff] at h
  obtain ⟨n, hn, rfl⟩ := h
  have h0 := List.find?_some hn
  have h1 := tenPowLe_sound q.den_pos h0
  rw [← cast_eq_num_div_den hq.le] at h1
  have h2 := Real.logb_le_logb_of_le (b := 10) (by norm_num) (by positivity) h1
  rw [logb_ten_zpow, Real.logb_pow] at h2
  rw [cast_mkRat_logPower, div_le_iff₀ logPower_pos]
  linarith

theorem logAbove_sound {q r : Rat} (hq : 0 < q) (h : logAbove q = some r) : Real.logb 10 (q : ℝ) ≤ (r : ℝ) := by
  simp only [logAbove, Option.map_eq_some_iff] at h
  obtain ⟨n, hn, rfl⟩ := h
  have hq' : (0 : ℝ) < (q : ℝ) := by exact_mod_cast hq
  have h0 := List.find?_some hn
  have h1 := lePowTen_sound q.den_pos h0
  rw [← cast_eq_num_div_den hq.le] at h1
  have h2 := Real.logb_le_logb_of_le (b := 10) (by norm_num) (by positivity) h1
  rw [logb_ten_zpow, Real.logb_pow] at h2
  rw [cast_mkRat_logPower, le_div_iff₀ logPower_pos]
  linarith

theorem productBounds_sound {b c : Rat × Rat} {x y : ℝ} (hx : Within b x) (hy : Within c y) :
    Within (productBounds b.1 b.2 c.1 c.2) (x * y) := by
  obtain ⟨h1, h2⟩ := hx
  obtain ⟨h3, h4⟩ := hy
  constructor
  · simp only [productBounds, Rat.cast_min, Rat.cast_mul, min_le_iff]
    rcases le_total 0 x with hx0 | hx0 <;> rcases le_total 0 (c.1 : ℝ) with hc | hc <;>
      rcases le_total 0 (c.2 : ℝ) with hd | hd
    all_goals first
      | exact .inl (.inl (by nlinarith))
      | exact .inl (.inr (by nlinarith))
      | exact .inr (.inl (by nlinarith))
      | exact .inr (.inr (by nlinarith))
  · simp only [productBounds, Rat.cast_max, Rat.cast_mul, le_max_iff]
    rcases le_total 0 x with hx0 | hx0 <;> rcases le_total 0 (c.1 : ℝ) with hc | hc <;>
      rcases le_total 0 (c.2 : ℝ) with hd | hd
    all_goals first
      | exact .inl (.inl (by nlinarith))
      | exact .inl (.inr (by nlinarith))
      | exact .inr (.inl (by nlinarith))
      | exact .inr (.inr (by nlinarith))

theorem turnsBounds_sound (k : Int) : Within (turnsBounds k) (2 * Real.pi * (k : ℝ)) := by
  have h1 := piBelow_le
  have h2 := le_piAbove
  unfold turnsBounds
  split
  · next h =>
    have : (0 : ℝ) ≤ (k : ℝ) := by exact_mod_cast h
    constructor <;> push_cast <;> nlinarith
  · next h =>
    have : (k : ℝ) ≤ 0 := by exact_mod_cast (not_le.mp h).le
    constructor <;> push_cast <;> nlinarith

/-- What `modTurn` and `turn` denote: the angle in `[0, 2π)`. -/
noncomputable def turnReal (x : ℝ) : ℝ := x - 2 * Real.pi * (⌊x / (2 * Real.pi)⌋ : ℝ)

theorem turnReal_nonneg (x : ℝ) : 0 ≤ turnReal x := by
  have hp : (0 : ℝ) < 2 * Real.pi := by positivity
  have := Int.floor_le (x / (2 * Real.pi))
  rw [le_div_iff₀ hp] at this
  unfold turnReal
  linarith

theorem turnReal_lt (x : ℝ) : turnReal x < 2 * Real.pi := by
  have hp : (0 : ℝ) < 2 * Real.pi := by positivity
  have := Int.lt_floor_add_one (x / (2 * Real.pi))
  rw [div_lt_iff₀ hp] at this
  unfold turnReal
  linarith

theorem piBelow_pos : (0 : ℝ) < (piBelow : ℝ) := by norm_num [piBelow]
theorem piAbove_pos : (0 : ℝ) < (piAbove : ℝ) := by norm_num [piAbove]

theorem div_turn_ge {l : Rat} {x : ℝ} (h : (l : ℝ) ≤ x) :
    (((if 0 ≤ l then l / (2 * piAbove) else l / (2 * piBelow) : Rat)) : ℝ) ≤ x / (2 * Real.pi) := by
  have h1 := piBelow_le
  have h2 := le_piAbove
  have h3 := piBelow_pos
  have h4 := piAbove_pos
  have hp := Real.pi_pos
  rw [le_div_iff₀ (by positivity)]
  split
  · next h0 =>
    have h0' : (0 : ℝ) ≤ (l : ℝ) := by exact_mod_cast h0
    push_cast
    rw [div_mul_eq_mul_div, div_le_iff₀ (by positivity)]
    nlinarith
  · next h0 =>
    have h0' : (l : ℝ) ≤ 0 := by exact_mod_cast (not_le.mp h0).le
    push_cast
    rw [div_mul_eq_mul_div, div_le_iff₀ (by positivity)]
    nlinarith

theorem div_turn_le {q : Rat} {x : ℝ} (h : x ≤ (q : ℝ)) :
    x / (2 * Real.pi) ≤ (((if 0 ≤ q then q / (2 * piBelow) else q / (2 * piAbove) : Rat)) : ℝ) := by
  have h1 := piBelow_le
  have h2 := le_piAbove
  have h3 := piBelow_pos
  have h4 := piAbove_pos
  have hp := Real.pi_pos
  rw [div_le_iff₀ (by positivity)]
  split
  · next h0 =>
    have h0' : (0 : ℝ) ≤ (q : ℝ) := by exact_mod_cast h0
    push_cast
    rw [div_mul_eq_mul_div, le_div_iff₀ (by positivity)]
    nlinarith
  · next h0 =>
    have h0' : (q : ℝ) ≤ 0 := by exact_mod_cast (not_le.mp h0).le
    push_cast
    rw [div_mul_eq_mul_div, le_div_iff₀ (by positivity)]
    nlinarith

theorem wholeTurns_sound {b : Rat × Rat} {x : ℝ} {k : Int} (hx : Within b x) (h : wholeTurns b.1 b.2 = some k) :
    ⌊x / (2 * Real.pi)⌋ = k := by
  simp only [wholeTurns, Option.ite_none_right_eq_some, Option.some.injEq] at h
  obtain ⟨he, rfl⟩ := h
  have h1 := Int.floor_mono (div_turn_ge hx.1)
  have h2 := Int.floor_mono (div_turn_le hx.2)
  rw [Rat.floor_cast] at h1 h2
  exact le_antisymm (h2.trans he.ge) h1

theorem recip_within {b : Rat × Rat} {x : ℝ} (hx : Within b x) (h : 0 < b.1 ∨ b.2 < 0) :
    Within (b.2⁻¹, b.1⁻¹) x⁻¹ := by
  obtain ⟨h1, h2⟩ := hx
  rcases h with h | h
  · have h' : (0 : ℝ) < (b.1 : ℝ) := by exact_mod_cast h
    constructor <;> push_cast <;> gcongr
    linarith
  · have h' : (b.2 : ℝ) < 0 := by exact_mod_cast h
    constructor <;> push_cast
    · exact (inv_le_inv_of_neg h' (by linarith)).mpr h2
    · exact (inv_le_inv_of_neg (by linarith) (by linarith)).mpr h1

/-- The enclosures hold: whatever `bounds` answers encloses the number. -/
theorem bounds_sound (a : RNum) {b : Rat × Rat} (h : a.bounds = some b) : Within b a.toReal := by
  induction a generalizing b with
  | rat q => simp only [RNum.bounds, Option.some.injEq] at h; subst h; exact ⟨le_rfl, le_rfl⟩
  | pi => simp only [RNum.bounds, Option.some.injEq] at h; subst h; exact ⟨piBelow_le, le_piAbove⟩
  | sum x y ihx ihy =>
    simp only [RNum.bounds] at h
    split at h
    · next hx hy =>
      cases h
      have h1 := ihx hx
      have h2 := ihy hy
      constructor <;> simp only [toReal_sum] <;> push_cast
      · linarith [h1.1, h2.1]
      · linarith [h1.2, h2.2]
    · cases h
  | prod x y ihx ihy =>
    simp only [RNum.bounds] at h
    split at h
    · next hx hy =>
      split at h
      · next he => cases h; subst he; exact squareBounds_sound (ihx hx)
      · cases h; exact productBounds_sound (ihx hx) (ihy hy)
    · cases h
  | powTen x _ => simp [RNum.bounds] at h
  | recip x ih =>
    simp only [RNum.bounds] at h
    split at h
    · next hx =>
      split at h
      · next hc => cases h; exact recip_within (ih hx) hc
      · cases h
    · cases h
  | larger x y ihx ihy =>
    simp only [RNum.bounds] at h
    split at h
    · next hx hy =>
      cases h
      constructor <;> simp only [RNum.toReal] <;> push_cast
      · exact max_le_max (ihx hx).1 (ihy hy).1
      · exact max_le_max (ihx hx).2 (ihy hy).2
    · cases h
  | smaller x y ihx ihy =>
    simp only [RNum.bounds] at h
    split at h
    · next hx hy =>
      cases h
      constructor <;> simp only [RNum.toReal] <;> push_cast
      · exact min_le_min (ihx hx).1 (ihy hy).1
      · exact min_le_min (ihx hx).2 (ihy hy).2
    · cases h
  | modulus x ih =>
    simp only [RNum.bounds] at h
    split at h
    · next hx =>
      obtain ⟨h1, h2⟩ := ih hx
      split at h
      · next h0 =>
        cases h
        have h0' : (0 : ℝ) ≤ (b.1 : ℝ) := by exact_mod_cast h0
        simp only [RNum.toReal]
        rw [abs_of_nonneg (h0'.trans h1)]
        exact ⟨h1, h2⟩
      · split at h
        · next h0 =>
          cases h
          have h0' := (Rat.cast_nonpos (K := ℝ)).mpr h0
          simp only [RNum.toReal]
          rw [abs_of_nonpos (h2.trans h0')]
          constructor <;> push_cast <;> linarith
        · cases h
          constructor <;> simp only [RNum.toReal]
          · push_cast; exact abs_nonneg _
          · push_cast
            rw [abs_le']
            exact ⟨le_max_of_le_right h2, le_max_of_le_left (by linarith)⟩
    · cases h
  | root n x ih =>
    simp only [RNum.bounds] at h
    split at h
    · next hx =>
      split at h
      · next hc =>
        split at h
        · next hl hh =>
          cases h
          obtain ⟨h1, h2⟩ := ih hx
          have h0 := (Rat.cast_nonneg (K := ℝ)).mpr hc.2
          have h4 := (Rat.cast_nonneg (K := ℝ)).mp (h0.trans (h1.trans h2))
          exact ⟨(rootBelow_sound hc.1 hc.2 hl).trans (Real.rpow_le_rpow h0 h1 (by positivity)),
            (Real.rpow_le_rpow (h0.trans h1) h2 (by positivity)).trans (rootAbove_sound hc.1 h4 hh)⟩
        · cases h
      · cases h
    · cases h
  | cosine x ih =>
    simp only [RNum.bounds] at h
    split at h
    · next hx => cases h; exact cosSpread_sound (ih hx)
    · cases h
  | sine x ih =>
    simp only [RNum.bounds] at h
    split at h
    · next hx =>
      cases h
      obtain ⟨h1, h2⟩ := ih hx
      have h3 := piBelow_le
      have h4 := le_piAbove
      simp only [RNum.toReal]
      rw [← Real.cos_pi_div_two_sub]
      refine cosSpread_sound ⟨?_, ?_⟩ <;> push_cast <;> linarith
    · cases h
  | logTen x ih =>
    simp only [RNum.bounds] at h
    split at h
    · next hx =>
      split at h
      · next h0 =>
        split at h
        · next hl hh =>
          cases h
          obtain ⟨h1, h2⟩ := ih hx
          have h0' := (Rat.cast_pos (K := ℝ)).mpr h0
          have h4 := (Rat.cast_pos (K := ℝ)).mp (h0'.trans_le (h1.trans h2))
          exact ⟨(logBelow_sound h0 hl).trans (Real.logb_le_logb_of_le (by norm_num) h0' h1),
            (Real.logb_le_logb_of_le (by norm_num) (h0'.trans_le h1) h2).trans (logAbove_sound h4 hh)⟩
        · cases h
      · cases h
    · cases h
  | turn x ih =>
    have hd : Within (0, 2 * piAbove) (RNum.turn x).toReal := by
      constructor
      · have := turnReal_nonneg x.toReal
        simp only [RNum.toReal, turnReal] at *
        push_cast
        linarith
      · have h1 := turnReal_lt x.toReal
        have h2 := le_piAbove
        simp only [RNum.toReal, turnReal] at *
        push_cast
        linarith
    simp only [RNum.bounds] at h
    split at h
    · next hx =>
      split at h
      · next hk =>
        cases h
        have hf := wholeTurns_sound (ih hx) hk
        have ht := turnsBounds_sound ⌊x.toReal / (2 * Real.pi)⌋
        rw [hf] at ht
        obtain ⟨h1, h2⟩ := ih hx
        obtain ⟨h3, h4⟩ := ht
        constructor <;> simp only [RNum.toReal, hf] <;> push_cast <;> linarith
      · cases h; exact hd
    · cases h; exact hd

end Sys2Proof
end

