-- ==== Sys2Proof/Laws/Compare.lean ====
section
/-! SUPPORT. Laws/Compare.lean: the comparisons, `max`, `min`, the absolute value, roots, sines and cosines denote the
real ones (00_scope.md R14; 40_common_semantics.md R162). -/

namespace Sys2Proof

theorem decideLt_sound {a b : RNum} {r : Bool} (h : a.decideLt b = some r) : r = true ↔ a.toReal < b.toReal := by
  have hs := toReal_sub b a
  unfold RNum.decideLt at h
  split at h
  · next q hq =>
    cases h
    rw [hq, toReal_rat] at hs
    rw [decide_eq_true_eq, ← Rat.cast_pos (K := ℝ), hs, sub_pos]
  · split at h
    · next hb =>
      obtain ⟨h1, h2⟩ := bounds_sound _ hb
      rw [hs] at h1 h2
      split at h
      · next h0 =>
        cases h
        have := (Rat.cast_pos (K := ℝ)).mpr h0
        simp only [true_iff]
        linarith
      · split at h
        · next h0 =>
          cases h
          have := (Rat.cast_nonpos (K := ℝ)).mpr h0
          simp only [Bool.false_eq_true, false_iff, not_lt]
          linarith
        · cases h
    · cases h

/-- The comparison of the rules is the one of the real numbers (R12). -/
theorem lt_iff (a b : RNum) : a.lt b = true ↔ a.toReal < b.toReal := by
  unfold RNum.lt
  cases hd : a.decideLt b with
  | none => exact (RNum.trueLess a b).2
  | some r => exact decideLt_sound hd

theorem lt_eq_false_iff (a b : RNum) : a.lt b = false ↔ b.toReal ≤ a.toReal := by
  rw [← Bool.not_eq_true, lt_iff, not_lt]

theorem le_iff (a b : RNum) : a.le b = true ↔ a.toReal ≤ b.toReal := by
  rw [RNum.le, Bool.not_eq_true', lt_eq_false_iff]

theorem eqv_iff (a b : RNum) : a.eqv b = true ↔ a.toReal = b.toReal := by
  rw [RNum.eqv, Bool.and_eq_true, Bool.not_eq_true', Bool.not_eq_true', lt_eq_false_iff, lt_eq_false_iff]
  exact ⟨fun h => le_antisymm h.2 h.1, fun h => ⟨h.ge, h.le⟩⟩

theorem decideLt_rat (p q : Rat) : (RNum.rat p).decideLt (.rat q) = some (decide (p < q)) := by
  have h : (RNum.rat q).sub (.rat p) = .rat (q - p) := by
    unfold RNum.sub
    split
    · next h => cases h; simp
    · simp [RNum.neg, RNum.scale, RNum.add, RNum.addTerm, RNum.join, RNum.split, sub_eq_add_neg, add_comm]
  unfold RNum.decideLt
  rw [h]
  simp

@[simp] theorem lt_rat (p q : Rat) : (RNum.rat p).lt (.rat q) = decide (p < q) := by simp [RNum.lt, decideLt_rat]

@[simp] theorem toReal_max (a b : RNum) : (RNum.max a b).toReal = Max.max a.toReal b.toReal := by
  unfold RNum.max
  split
  · next h => exact (max_eq_right ((decideLt_sound h).mp rfl).le).symm
  · next h =>
    have := (decideLt_sound h).not.mp (by simp)
    exact (max_eq_left (not_lt.mp this)).symm
  · rfl

@[simp] theorem toReal_min (a b : RNum) : (RNum.min a b).toReal = Min.min a.toReal b.toReal := by
  unfold RNum.min
  split
  · next h => exact (min_eq_right ((decideLt_sound h).mp rfl).le).symm
  · next h =>
    have := (decideLt_sound h).not.mp (by simp)
    exact (min_eq_left (not_lt.mp this)).symm
  · rfl

@[simp] theorem toReal_abs (a : RNum) : a.abs.toReal = |a.toReal| := by
  unfold RNum.abs
  split
  · next h =>
    have := (decideLt_sound h).mp rfl
    rw [toReal_zero] at this
    rw [toReal_neg, abs_of_neg this]
  · next h =>
    have := (decideLt_sound h).not.mp (by simp)
    rw [toReal_zero, not_lt] at this
    rw [abs_of_nonneg this]
  · rfl

@[simp] theorem toReal_nroot (n : Nat) (a : RNum) : (RNum.nroot n a).toReal = a.toReal ^ ((1 : ℝ) / (n : ℝ)) := by
  cases a with
  | rat q =>
    simp only [RNum.nroot]
    split
    · next h =>
      obtain ⟨hn, hq, hd, h1, h2⟩ := h
      rw [natPow_eq] at h1 h2
      have hd' : (0 : ℝ) < (rootFloor n q.den : ℝ) := by exact_mod_cast hd
      have h3 : (q : ℝ) = ((rootFloor n q.num.toNat : ℝ) / (rootFloor n q.den : ℝ)) ^ n := by
        rw [cast_eq_num_div_den hq, ← h1, ← h2, div_pow]
        push_cast
        rw [h1, h2]
      rw [toReal_rat, toReal_rat, h3, one_div, Real.pow_rpow_inv_natCast (by positivity) hn.ne', Rat.mkRat_eq_div]
      push_cast
      rfl
    · rfl
  | _ => rfl

@[simp] theorem toReal_sqrt (a : RNum) : a.sqrt.toReal = Real.sqrt a.toReal := by
  rw [RNum.sqrt, toReal_nroot, Real.sqrt_eq_rpow]
  norm_num

theorem toReal_asPi {a : RNum} {q : Rat} (h : a.asPi = some q) : a.toReal = (q : ℝ) * Real.pi := by
  unfold RNum.asPi at h
  split at h
  · cases h; simp
  · cases h; simp
  · split at h
    · next h0 => cases h; simp [h0]
    · cases h
  · cases h

theorem toReal_cosFirst (q : Rat) : (cosFirst q).toReal = Real.cos ((q : ℝ) * Real.pi) := by
  unfold cosFirst
  split
  · next h => simp [h]
  · split
    · next h =>
      rw [h]
      push_cast
      rw [show (1 / 2 : ℝ) * Real.pi = Real.pi / 2 by ring, Real.cos_pi_div_two]
      simp
    · split
      · next h =>
        rw [h]
        push_cast
        rw [show (1 / 3 : ℝ) * Real.pi = Real.pi / 3 by ring, Real.cos_pi_div_three]
        simp
      · split
        · next h =>
          rw [h]
          push_cast
          rw [show (1 / 4 : ℝ) * Real.pi = Real.pi / 4 by ring, Real.cos_pi_div_four]
          simp only [RNum.toReal]
          push_cast
          rw [← Real.sqrt_eq_rpow, Real.sqrt_div (by norm_num), Real.sqrt_one]
          have := Real.mul_self_sqrt (show (0 : ℝ) ≤ 2 by norm_num)
          field_simp
          nlinarith
        · simp

theorem cos_whole_turns (q : ℝ) (k : Int) : Real.cos ((q - 2 * (k : ℝ)) * Real.pi) = Real.cos (q * Real.pi) := by
  rw [show (q - 2 * (k : ℝ)) * Real.pi = q * Real.pi - k * (2 * Real.pi) by ring, Real.cos_sub_int_mul_two_pi]

theorem toReal_cosTurns (q : Rat) : (cosTurns q).toReal = Real.cos ((q : ℝ) * Real.pi) := by
  rw [← cos_whole_turns (q : ℝ) (q / 2).floor]
  have hc : ((q : ℝ) - 2 * ((q / 2).floor : ℝ)) = ((q - 2 * ((q / 2).floor : Rat) : Rat) : ℝ) := by push_cast; rfl
  rw [hc]
  unfold cosTurns
  generalize q - 2 * ((q / 2).floor : Rat) = r
  have hf : Real.cos ((r : ℝ) * Real.pi) = Real.cos (((if 1 < r then 2 - r else r : Rat) : ℝ) * Real.pi) := by
    split
    · push_cast
      rw [show (2 - (r : ℝ)) * Real.pi = 2 * Real.pi - r * Real.pi by ring, Real.cos_two_pi_sub]
    · rfl
  rw [hf]
  simp only
  generalize (if 1 < r then 2 - r else r) = t
  split
  · rw [toReal_neg, toReal_cosFirst]
    push_cast
    rw [show (1 - (t : ℝ)) * Real.pi = Real.pi - t * Real.pi by ring, Real.cos_pi_sub, neg_neg]
  · exact toReal_cosFirst t

@[simp] theorem toReal_cos (a : RNum) : a.cos.toReal = Real.cos a.toReal := by
  unfold RNum.cos
  split
  · next h => rw [toReal_cosTurns, toReal_asPi h]
  · rfl

@[simp] theorem toReal_sin (a : RNum) : a.sin.toReal = Real.sin a.toReal := by
  unfold RNum.sin
  split
  · next h =>
    rw [toReal_cosTurns, toReal_asPi h, ← Real.cos_pi_div_two_sub]
    push_cast
    congr 1
    ring
  · rfl

@[simp] theorem toReal_log10 (a : RNum) : a.log10.toReal = Real.logb 10 a.toReal := by
  unfold RNum.log10
  split
  · next h => simp [h]
  · rfl

@[simp] theorem toReal_tenPow (a : RNum) : a.tenPow.toReal = (10 : ℝ) ^ a.toReal := by
  unfold RNum.tenPow
  split
  · next q =>
    have hq : (q : ℝ) = (q.num : ℝ) * ((1 : ℝ) / (q.den : ℝ)) := by
      rw [mul_one_div]
      exact_mod_cast (Rat.num_div_den q).symm
    have hp : ∀ k : Nat, ((Nat.pow 10 k : Nat) : ℝ) = (10 : ℝ) ^ (k : ℝ) := by
      intro k
      rw [natPow_eq, Real.rpow_natCast]
      push_cast
      rfl
    rw [toReal_rat, hq]
    split
    · next k hk =>
      rw [toReal_nroot, toReal_ofNat, hp, hk, ← Real.rpow_mul (by norm_num)]
      rfl
    · next k hk =>
      rw [toReal_inv, toReal_nroot, toReal_ofNat, hp, hk, ← Real.rpow_mul (by norm_num), ← Real.rpow_neg (by norm_num)]
      congr 1
      push_cast
      ring
  · rfl

@[simp] theorem toReal_modTurn (a : RNum) : a.modTurn.toReal = turnReal a.toReal := by
  unfold RNum.modTurn
  split
  · next q h =>
    rw [toReal_join, atomReal_some, toReal_asPi h, turnReal, toReal_pi]
    have h1 : (q : ℝ) * Real.pi / (2 * Real.pi) = ((q / 2 : Rat) : ℝ) := by
      push_cast
      field_simp
    rw [h1, Rat.floor_cast]
    rw [show ⌊q / 2⌋ = (q / 2).floor from rfl]
    push_cast
    ring
  · rfl

/-! ## Exact arithmetic: with `rnd` the identity a rounded operation is the operation (R12) -/

theorem Config.round_exact {c : Config} (h : c.rnd = .exact) (x : RNum) : c.round x = x := by simp [Config.round, h]
theorem Config.add_exact {c : Config} (h : c.rnd = .exact) (a b : RNum) : c.add a b = a.add b := c.round_exact h _
theorem Config.sub_exact {c : Config} (h : c.rnd = .exact) (a b : RNum) : c.sub a b = a.sub b := c.round_exact h _
theorem Config.mul_exact {c : Config} (h : c.rnd = .exact) (a b : RNum) : c.mul a b = a.mul b := c.round_exact h _
theorem Config.div_exact {c : Config} (h : c.rnd = .exact) (a b : RNum) : c.div a b = a.div b := c.round_exact h _
theorem Config.neg_exact {c : Config} (h : c.rnd = .exact) (a : RNum) : c.neg a = a.neg := c.round_exact h _
theorem Config.sqrt_exact {c : Config} (h : c.rnd = .exact) (a : RNum) : c.sqrt a = a.sqrt := c.round_exact h _
theorem Config.cos_exact {c : Config} (h : c.rnd = .exact) (a : RNum) : c.cos a = a.cos := c.round_exact h _
theorem Config.sin_exact {c : Config} (h : c.rnd = .exact) (a : RNum) : c.sin a = a.sin := c.round_exact h _
theorem Config.tenPow_exact {c : Config} (h : c.rnd = .exact) (a : RNum) : c.tenPow a = a.tenPow := c.round_exact h _
theorem Config.modTurn_exact {c : Config} (h : c.rnd = .exact) (a : RNum) : c.modTurn a = a.modTurn := c.round_exact h _
theorem Config.log10_exact {c : Config} (h : c.rnd = .exact) (a : RNum) : c.log10 a = a.log10 := c.round_exact h _

/-! ## Lanes (R13) -/

@[simp] theorem add_re (c : Config) (a b : Cplx) : (Cplx.add c a b).re = c.add a.re b.re := rfl
@[simp] theorem add_im (c : Config) (a b : Cplx) : (Cplx.add c a b).im = c.add a.im b.im := rfl
@[simp] theorem smul_re (c : Config) (k : RNum) (a : Cplx) : (Cplx.smul c k a).re = c.mul k a.re := rfl
@[simp] theorem smul_im (c : Config) (k : RNum) (a : Cplx) : (Cplx.smul c k a).im = c.mul k a.im := rfl
@[simp] theorem zero_re : Cplx.zero.re = .rat 0 := rfl
@[simp] theorem zero_im : Cplx.zero.im = .rat 0 := rfl
@[simp] theorem add_l (c : Config) (a b : Frame) : (Frame.add c a b).l = c.add a.l b.l := rfl
@[simp] theorem add_r (c : Config) (a b : Frame) : (Frame.add c a b).r = c.add a.r b.r := rfl
@[simp] theorem smul_l (c : Config) (k : RNum) (a : Frame) : (Frame.smul c k a).l = c.mul k a.l := rfl
@[simp] theorem smul_r (c : Config) (k : RNum) (a : Frame) : (Frame.smul c k a).r = c.mul k a.r := rfl
@[simp] theorem zero_l : Frame.zero.l = .rat 0 := rfl
@[simp] theorem zero_r : Frame.zero.r = .rat 0 := rfl

theorem toReal_mul_re {c : Config} (h : c.rnd = .exact) (a b : Cplx) :
    (Cplx.mul c a b).re.toReal = a.re.toReal * b.re.toReal - a.im.toReal * b.im.toReal := by
  simp [Cplx.mul, Config.sub_exact h, Config.mul_exact h]
theorem toReal_mul_im {c : Config} (h : c.rnd = .exact) (a b : Cplx) :
    (Cplx.mul c a b).im.toReal = a.re.toReal * b.im.toReal + a.im.toReal * b.re.toReal := by
  simp [Cplx.mul, Config.add_exact h, Config.mul_exact h]
theorem toReal_normSq {c : Config} (h : c.rnd = .exact) (a : Cplx) :
    (a.normSq c).toReal = a.re.toReal ^ 2 + a.im.toReal ^ 2 := by
  simp [Cplx.normSq, Config.add_exact h, Config.mul_exact h, sq]

end Sys2Proof
end

