-- ==== Sys2Proof/Laws/Decode.lean ====
section
/-! SUPPORT. Laws/Decode.lean: the fields of a header and of a group, and what the decoder can answer
(30_encoding.md R122 to R142). -/

namespace Sys2Proof

/-! ## Fields -/

/-- A field that lies in the upper part of a concatenation. -/
theorem extract_upper {a b : Nat} (x : BitVec a) (y : BitVec b) {s n : Nat} (h : b ≤ s) :
    BitVec.extractLsb' s n (x ++ y) = BitVec.extractLsb' (s - b) n x := by
  apply BitVec.eq_of_getLsbD_eq
  intro i hi
  simp only [BitVec.getLsbD_extractLsb', BitVec.getLsbD_append, hi]
  rw [if_neg (by omega), show s + i - b = s - b + i by omega]

/-- A field that lies in the lower part of a concatenation. -/
theorem extract_lower {a b : Nat} (x : BitVec a) (y : BitVec b) {s n : Nat} (h : s + n ≤ b) :
    BitVec.extractLsb' s n (x ++ y) = BitVec.extractLsb' s n y := by
  apply BitVec.eq_of_getLsbD_eq
  intro i hi
  simp only [BitVec.getLsbD_extractLsb', BitVec.getLsbD_append, hi]
  rw [if_pos (by omega)]

/-- The field that is the whole vector. -/
theorem extract_whole {a : Nat} (x : BitVec a) : BitVec.extractLsb' 0 a x = x := by
  apply BitVec.eq_of_getLsbD_eq
  intro i hi
  simp [hi]

/-- A bit of the upper part of a concatenation. -/
theorem bit_upper {a b : Nat} (x : BitVec a) (y : BitVec b) {s : Nat} (h : b ≤ s) :
    (x ++ y).getLsbD s = x.getLsbD (s - b) := by
  rw [BitVec.getLsbD_append, if_neg (by omega)]

/-- A bit of the lower part of a concatenation. -/
theorem bit_lower {a b : Nat} (x : BitVec a) (y : BitVec b) {s : Nat} (h : s < b) :
    (x ++ y).getLsbD s = y.getLsbD s := by
  rw [BitVec.getLsbD_append, if_pos h]

@[simp] theorem opOf_header (op : BitVec 8) (imm : BitVec 16) : opOf (header op imm) = op := by
  simp (disch := omega) only [opOf, header, extract_upper, extract_whole, Nat.reduceSub]

@[simp] theorem rsvOf_header (op : BitVec 8) (imm : BitVec 16) : rsvOf (header op imm) = 0#8 := by
  simp (disch := omega) only [rsvOf, header, extract_upper, extract_lower, extract_whole, Nat.reduceSub]

@[simp] theorem immOf_header (op : BitVec 8) (imm : BitVec 16) : immOf (header op imm) = imm := by
  simp (disch := omega) only [immOf, header, extract_lower, extract_whole]

@[simp] theorem headerInfo_header (op : BitVec 8) (imm : BitVec 16) :
    headerInfo (header op imm) = opInfo op.toNat imm := by simp [headerInfo]

theorem chanOf_code (c : Chan) : chanOf c.code = some c := by cases c <;> rfl
theorem deemphOf_code (d : Deemph) : deemphOf d.code = some d := by cases d <;> rfl
theorem rdsModeOf_code (m : RdsMode) : rdsModeOf m.code = some m := by cases m <;> rfl
theorem modeOf_code (m : Mode) : modeOf m.code = some m := by cases m <;> rfl

/-! ## What the decoder answers -/

/-- The words of an operation with an assigned opcode and all its operands decode by their arguments (R124). -/
theorem decodeOp_header {op : BitVec 8} {imm : BitVec 16} {ws : List Word} {n : Nat} {ps : List Port}
    (h : opInfo op.toNat imm = some (n, ps)) (hl : ws.length = n) :
    decodeOp (header op imm :: ws) = decodeArgs op.toNat imm ws := by
  simp [decodeOp, h, ← hl]

/-- An answer of the decoder comes from an assigned opcode, a zero `rsv` and all operand words (R124, R140). -/
theorem decodeOp_cases {ws : List Word} {i : Instr} (h : decodeOp ws = .ok i) :
    ∃ hd rest n ps, ws = hd :: rest ∧ headerInfo hd = some (n, ps) ∧ n ≤ rest.length ∧ rsvOf hd = 0#8 ∧
      decodeArgs (opOf hd).toNat (immOf hd) (rest.take n) = .ok i := by
  unfold decodeOp at h
  split at h
  · cases h
  · next hd rest =>
    split at h
    · cases h
    · next info hi =>
      split at h
      · cases h
      · next hl =>
        split at h
        · cases h
        · next hr => exact ⟨hd, rest, info.1, info.2, rfl, hi, by omega, by simpa using hr, h⟩

theorem immZero_ok {imm : BitVec 16} {r : Except Reject Instr} {j : Instr} (h : immZero imm r = .ok j) :
    imm = 0#16 ∧ r = .ok j := by
  unfold immZero at h
  split at h
  · next h0 => exact ⟨h0, h⟩
  · cases h

theorem noImm_ok {imm : BitVec 16} {i j : Instr} (h : noImm imm i = .ok j) : imm = 0#16 ∧ j = i :=
  ⟨(immZero_ok h).1, (Except.ok.inj (immZero_ok h).2).symm⟩

theorem byCode_ok {α : Type} {x : Option α} {mk : α → Instr} {j : Instr} (h : byCode x mk = .ok j) :
    ∃ a, x = some a ∧ j = mk a := by
  cases x with
  | none => cases h
  | some a => cases h; exact ⟨a, rfl, rfl⟩

theorem args0_ok {ws : List Word} {r : Except Reject Instr} {j : Instr} (h : args0 ws r = .ok j) : ws = [] ∧ r = .ok j := by
  unfold args0 at h
  split at h
  · exact ⟨rfl, h⟩
  · cases h

theorem args1_ok {ws : List Word} {r : Word → Except Reject Instr} {j : Instr} (h : args1 ws r = .ok j) :
    ∃ a, ws = [a] ∧ r a = .ok j := by
  unfold args1 at h
  split at h
  · exact ⟨_, rfl, h⟩
  · cases h

theorem args2_ok {ws : List Word} {r : Word → Word → Except Reject Instr} {j : Instr} (h : args2 ws r = .ok j) :
    ∃ a b, ws = [a, b] ∧ r a b = .ok j := by
  unfold args2 at h
  split at h
  · exact ⟨_, _, rfl, h⟩
  · cases h

theorem args6_ok {ws : List Word} {r : Word → Word → Word → Word → Word → Word → Except Reject Instr} {j : Instr}
    (h : args6 ws r = .ok j) : ∃ a b c d e f, ws = [a, b, c, d, e, f] ∧ r a b c d e f = .ok j := by
  unfold args6 at h
  split at h
  · exact ⟨_, _, _, _, _, _, rfl, h⟩
  · cases h

theorem ifFinite_ok {ok : Bool} {e : Reject} {r : Except Reject Instr} {j : Instr} (h : ifFinite ok e r = .ok j) :
    ok = true ∧ r = .ok j := by
  unfold ifFinite at h
  split at h
  · next h0 => exact ⟨h0, h⟩
  · cases h

theorem squelchArgs_ok {imm : BitVec 16} {level : Word} {j : Instr} (h : squelchArgs imm level = .ok j) :
    imm.extractLsb' 1 15 = 0#15 ∧ f32Finite level = true ∧ j = .setsquelch (imm.getLsbD 0) level := by
  unfold squelchArgs at h
  split at h
  · next h0 =>
    obtain ⟨h1, h2⟩ := ifFinite_ok h
    exact ⟨h0, h1, (Except.ok.inj h2).symm⟩
  · cases h

theorem writeArgs_ok {imm : BitVec 16} {ws : List Word} {j : Instr} (h : writeArgs imm ws = .ok j) :
    imm.toNat % 2 = 0 ∧ ws.all f32Finite = true ∧ j = .write ws := by
  unfold writeArgs at h
  split at h
  · cases h
  · obtain ⟨h1, h2⟩ := ifFinite_ok h
    exact ⟨by omega, h1, (Except.ok.inj h2).symm⟩

/-- Opcode 0x92 alone decodes to `SCANSTOP`. -/
theorem decodeArgs_scanstop {op : Nat} {imm : BitVec 16} {ws : List Word} (h : decodeArgs op imm ws = .ok .scanstop) :
    op = 0x92 := by
  unfold decodeArgs at h
  split at h <;> first
    | rfl
    | exact Instr.noConfusion (noImm_ok (args0_ok h).2).2
    | exact (byCode_ok (args0_ok h).2).elim fun _ h => Instr.noConfusion h.2
    | exact (args1_ok h).elim fun _ h => Instr.noConfusion (noImm_ok h.2).2
    | exact (args1_ok h).elim fun _ h => Instr.noConfusion (squelchArgs_ok h.2).2.2
    | exact (args1_ok h).elim fun _ h => Instr.noConfusion (Except.ok.inj h.2)
    | exact Instr.noConfusion (Except.ok.inj (args0_ok h).2)
    | exact (args2_ok h).elim fun _ h => h.elim fun _ h => Instr.noConfusion (noImm_ok h.2).2
    | exact (args2_ok h).elim fun _ h => h.elim fun _ h => Instr.noConfusion (Except.ok.inj (ifFinite_ok (immZero_ok h.2).2).2)
    | exact Instr.noConfusion (writeArgs_ok h).2.2
    | (obtain ⟨_, _, _, _, _, _, -, h⟩ := args6_ok h
       exact Instr.noConfusion (Except.ok.inj (ifFinite_ok (immZero_ok h).2).2))
    | cases h

namespace Machine

/-- The internal operations are accepted on the internal path alone (R128). -/
theorem portAccepts_internal {p : Port} {h : Word} {n : Nat} (hh : headerInfo h = some (n, [.inside]))
    (ha : portAccepts p h = true) : p = .inside := by
  simp only [portAccepts, hh] at ha
  cases p <;> first | rfl | cases ha

/-- What a fetch can answer (R121, R124; log entries 5 and 10). -/
theorem fetch_cases (s : State) :
    (s.inq = [] ∧ fetch s = .idle s) ∨
    (∃ g ds, s.inq = .group g :: ds ∧ fetch s = .run (decodeGroup g) (s.taken .gp ds)) ∨
    (∃ p ds, s.inq = .op p [] :: ds ∧ fetch s = .idle { s with inq := ds }) ∨
    (∃ p h ws ds, s.inq = .op p (h :: ws) :: ds ∧
      (((h :: ws).length < opLength h ∧ fetch s = .idle { s with inq := ds }) ∨
       (opLength h ≤ (h :: ws).length ∧ portAccepts p h = false ∧
         fetch s = .rejected p (some .errOp) (s.taken p (restOf p (h :: ws) (opLength h) ds))) ∨
       (opLength h ≤ (h :: ws).length ∧ portAccepts p h = true ∧ ∃ e, decodeOp (h :: ws) = .error e ∧
         fetch s = .rejected p (rejectStatus e) (s.taken p (restOf p (h :: ws) (opLength h) ds))) ∨
       (opLength h ≤ (h :: ws).length ∧ portAccepts p h = true ∧ ∃ i, decodeOp (h :: ws) = .ok i ∧
         fetch s = .run i (s.taken p (restOf p (h :: ws) (opLength h) ds))))) := by
  unfold fetch
  split
  · next h => exact .inl ⟨h, rfl⟩
  · next g ds h => exact .inr (.inl ⟨g, ds, h, rfl⟩)
  · next p ds h => exact .inr (.inr (.inl ⟨p, ds, h, rfl⟩))
  · next p h ws ds hq =>
    refine .inr (.inr (.inr ⟨p, h, ws, ds, hq, ?_⟩))
    by_cases hl : (h :: ws).length < opLength h
    · exact .inl ⟨hl, by simp only [hl, if_true]⟩
    · simp only [hl, if_false]
      have hl' : opLength h ≤ (h :: ws).length := by omega
      cases ha : portAccepts p h with
      | false => exact .inr (.inl ⟨hl', by rfl, by simp⟩)
      | true =>
        refine .inr (.inr ?_)
        cases hd : decodeOp (h :: ws) with
        | error e => exact .inl ⟨hl', by rfl, e, by rfl, by simp⟩
        | ok i => exact .inr ⟨hl', by rfl, i, by rfl, by simp⟩

end Machine

end Sys2Proof
end

