-- ==== Sys2Proof/Laws/PerInstr.lean ====
section
/-! SUPPORT. Laws/PerInstr.lean: the statements made of every operation, one lemma per constructor. -/

namespace Sys2Proof.Laws

-- one theorem after another, so that the package as one text compiles in few threads
set_option Elab.async false

/-- What every port of an encoding needs: as many words as its header announces, `rsv` 0, and an opcode that its own port
accepts (30_encoding.md R121 to R128); a group's version bit is its constructor's (R131). -/
def wholeWire (i : Instr) : Wire → Prop
  | .op [] => False
  | .op (h :: ws) => opLength h = (h :: ws).length ∧ rsvOf h = 0#8 ∧ portAccepts (homePort h) h = true
  | .group g => (g.getLsbD 43 = true ↔ ∃ pi gtype tp pty rest c d, i = .rdsGB pi gtype tp pty rest c d)

/-- A well-formed operation's encoding is whole. -/
def EncodesWhole.Statement (i : Instr) : Prop := i.wellFormed = true → wholeWire i (encode i)

theorem wholeWire_op {i : Instr} {op : BitVec 8} {imm : BitVec 16} {ws : List Word} {n : Nat} {p : Port} {ps : List Port}
    (h : opInfo op.toNat imm = some (n, p :: ps)) (hl : ws.length = n) : wholeWire i (.op (header op imm :: ws)) := by
  refine ⟨?_, rsvOf_header op imm, ?_⟩
  · simp [opLength, h, hl, Nat.add_comm]
  · simp [portAccepts, homePort, h]

theorem EncodesWhole.start : EncodesWhole.Statement (.start) := by
  exact fun _ => wholeWire_op rfl rfl

theorem EncodesWhole.stop : EncodesWhole.Statement (.stop) := by
  exact fun _ => wholeWire_op rfl rfl

theorem EncodesWhole.tune : ∀ x0, EncodesWhole.Statement (.tune x0) := by
  intro x0
  exact fun _ => wholeWire_op rfl rfl

theorem EncodesWhole.getfreq : EncodesWhole.Statement (.getfreq) := by
  exact fun _ => wholeWire_op rfl rfl

theorem EncodesWhole.seek : ∀ x0 x1 x2 x3 x4 x5, EncodesWhole.Statement (.seek x0 x1 x2 x3 x4 x5) := by
  intro x0 x1 x2 x3 x4 x5
  exact fun _ => wholeWire_op rfl rfl

theorem EncodesWhole.cancelseek : EncodesWhole.Statement (.cancelseek) := by
  exact fun _ => wholeWire_op rfl rfl

theorem EncodesWhole.setchan : ∀ x0, EncodesWhole.Statement (.setchan x0) := by
  intro x0
  exact fun _ => wholeWire_op rfl rfl

theorem EncodesWhole.setdeemph : ∀ x0, EncodesWhole.Statement (.setdeemph x0) := by
  intro x0
  exact fun _ => wholeWire_op rfl rfl

theorem EncodesWhole.setsquelch : ∀ x0 x1, EncodesWhole.Statement (.setsquelch x0 x1) := by
  intro x0 x1
  exact fun _ => wholeWire_op rfl rfl

theorem EncodesWhole.setgain : ∀ x0, EncodesWhole.Statement (.setgain x0) := by
  intro x0
  exact fun _ => wholeWire_op rfl rfl

theorem EncodesWhole.setrdsmode : ∀ x0, EncodesWhole.Statement (.setrdsmode x0) := by
  intro x0
  exact fun _ => wholeWire_op rfl rfl

theorem EncodesWhole.setmode : ∀ x0, EncodesWhole.Statement (.setmode x0) := by
  intro x0
  exact fun _ => wholeWire_op rfl rfl

theorem EncodesWhole.read : ∀ x0 x1, EncodesWhole.Statement (.read x0 x1) := by
  intro x0 x1
  exact fun _ => wholeWire_op rfl rfl

theorem EncodesWhole.waiting : EncodesWhole.Statement (.waiting) := by
  exact fun _ => wholeWire_op rfl rfl

theorem EncodesWhole.cancel : EncodesWhole.Statement (.cancel) := by
  exact fun _ => wholeWire_op rfl rfl

theorem EncodesWhole.flush : EncodesWhole.Statement (.flush) := by
  exact fun _ => wholeWire_op rfl rfl

theorem EncodesWhole.sample : ∀ x0 x1, EncodesWhole.Statement (.sample x0 x1) := by
  intro x0 x1
  exact fun _ => wholeWire_op rfl rfl

theorem EncodesWhole.group : ∀ x0 x1, EncodesWhole.Statement (.group x0 x1) := by
  intro x0 x1
  exact fun _ => wholeWire_op rfl rfl

theorem EncodesWhole.tick : EncodesWhole.Statement (.tick) := by
  exact fun _ => wholeWire_op rfl rfl

theorem EncodesWhole.timeout : ∀ x0, EncodesWhole.Statement (.timeout x0) := by
  intro x0
  exact fun _ => wholeWire_op rfl rfl

theorem EncodesWhole.freqchg : ∀ x0, EncodesWhole.Statement (.freqchg x0) := by
  intro x0
  exact fun _ => wholeWire_op rfl rfl

theorem EncodesWhole.wake : ∀ x0, EncodesWhole.Statement (.wake x0) := by
  intro x0
  exact fun _ => wholeWire_op rfl rfl

theorem EncodesWhole.write : ∀ x0, EncodesWhole.Statement (.write x0) := by
  intro x0
  intro h
  simp only [Instr.wellFormed, writeWellFormed, Bool.and_eq_true, decide_eq_true_eq] at h
  exact wholeWire_op (n := x0.length) (p := .inside) (ps := []) (by simp [opInfo, Nat.mod_eq_of_lt h.1.1]) rfl

theorem EncodesWhole.scanstart : ∀ x0 x1, EncodesWhole.Statement (.scanstart x0 x1) := by
  intro x0 x1
  exact fun _ => wholeWire_op rfl rfl

theorem EncodesWhole.scanstop : EncodesWhole.Statement (.scanstop) := by
  exact fun _ => wholeWire_op rfl rfl

theorem EncodesWhole.scanq : EncodesWhole.Statement (.scanq) := by
  exact fun _ => wholeWire_op rfl rfl

theorem EncodesWhole.scanfeed : ∀ x0 x1, EncodesWhole.Statement (.scanfeed x0 x1) := by
  intro x0 x1
  exact fun _ => wholeWire_op rfl rfl

theorem EncodesWhole.rdsreset : EncodesWhole.Statement (.rdsreset) := by
  exact fun _ => wholeWire_op rfl rfl

theorem EncodesWhole.rdsGB : ∀ x0 x1 x2 x3 x4 x5 x6, EncodesWhole.Statement (.rdsGB x0 x1 x2 x3 x4 x5 x6) := by
  intro x0 x1 x2 x3 x4 x5 x6 _
  simp (disch := omega) only [encode, wholeWire, groupHead, bit_upper, bit_lower, Nat.reduceSub]
  exact ⟨fun _ => ⟨_, _, _, _, _, _, _, rfl⟩, fun _ => rfl⟩

theorem EncodesWhole.rdsG0A : ∀ x0 x1 x2 x3 x4 x5 x6 x7, EncodesWhole.Statement (.rdsG0A x0 x1 x2 x3 x4 x5 x6 x7) := by
  intro x0 x1 x2 x3 x4 x5 x6 x7 _
  simp (disch := omega) only [encode, wholeWire, groupHead, bit_upper, bit_lower, Nat.reduceSub]
  exact ⟨fun h => absurd h (by decide), fun ⟨_, _, _, _, _, _, _, h⟩ => Instr.noConfusion h⟩

theorem EncodesWhole.rdsG1A : ∀ x0 x1 x2 x3 x4 x5, EncodesWhole.Statement (.rdsG1A x0 x1 x2 x3 x4 x5) := by
  intro x0 x1 x2 x3 x4 x5 _
  simp (disch := omega) only [encode, wholeWire, groupHead, bit_upper, bit_lower, Nat.reduceSub]
  exact ⟨fun h => absurd h (by decide), fun ⟨_, _, _, _, _, _, _, h⟩ => Instr.noConfusion h⟩

theorem EncodesWhole.rdsG2A : ∀ x0 x1 x2 x3 x4 x5 x6 x7 x8, EncodesWhole.Statement (.rdsG2A x0 x1 x2 x3 x4 x5 x6 x7 x8) := by
  intro x0 x1 x2 x3 x4 x5 x6 x7 x8 _
  simp (disch := omega) only [encode, wholeWire, groupHead, bit_upper, bit_lower, Nat.reduceSub]
  exact ⟨fun h => absurd h (by decide), fun ⟨_, _, _, _, _, _, _, h⟩ => Instr.noConfusion h⟩

theorem EncodesWhole.rdsG3A : ∀ x0 x1 x2 x3 x4 x5, EncodesWhole.Statement (.rdsG3A x0 x1 x2 x3 x4 x5) := by
  intro x0 x1 x2 x3 x4 x5 _
  simp (disch := omega) only [encode, wholeWire, groupHead, bit_upper, bit_lower, Nat.reduceSub]
  exact ⟨fun h => absurd h (by decide), fun ⟨_, _, _, _, _, _, _, h⟩ => Instr.noConfusion h⟩

theorem EncodesWhole.rdsG4A : ∀ x0 x1 x2 x3 x4 x5 x6 x7, EncodesWhole.Statement (.rdsG4A x0 x1 x2 x3 x4 x5 x6 x7) := by
  intro x0 x1 x2 x3 x4 x5 x6 x7 _
  simp (disch := omega) only [encode, wholeWire, groupHead, bit_upper, bit_lower, Nat.reduceSub]
  exact ⟨fun h => absurd h (by decide), fun ⟨_, _, _, _, _, _, _, h⟩ => Instr.noConfusion h⟩

theorem EncodesWhole.rdsG5A : ∀ x0 x1 x2 x3 x4 x5, EncodesWhole.Statement (.rdsG5A x0 x1 x2 x3 x4 x5) := by
  intro x0 x1 x2 x3 x4 x5 _
  simp (disch := omega) only [encode, wholeWire, groupHead, bit_upper, bit_lower, Nat.reduceSub]
  exact ⟨fun h => absurd h (by decide), fun ⟨_, _, _, _, _, _, _, h⟩ => Instr.noConfusion h⟩

theorem EncodesWhole.rdsG6A : ∀ x0 x1 x2 x3 x4 x5, EncodesWhole.Statement (.rdsG6A x0 x1 x2 x3 x4 x5) := by
  intro x0 x1 x2 x3 x4 x5 _
  simp (disch := omega) only [encode, wholeWire, groupHead, bit_upper, bit_lower, Nat.reduceSub]
  exact ⟨fun h => absurd h (by decide), fun ⟨_, _, _, _, _, _, _, h⟩ => Instr.noConfusion h⟩

theorem EncodesWhole.rdsG7A : ∀ x0 x1 x2 x3 x4 x5, EncodesWhole.Statement (.rdsG7A x0 x1 x2 x3 x4 x5) := by
  intro x0 x1 x2 x3 x4 x5 _
  simp (disch := omega) only [encode, wholeWire, groupHead, bit_upper, bit_lower, Nat.reduceSub]
  exact ⟨fun h => absurd h (by decide), fun ⟨_, _, _, _, _, _, _, h⟩ => Instr.noConfusion h⟩

theorem EncodesWhole.rdsG8A : ∀ x0 x1 x2 x3 x4 x5 x6 x7 x8 x9 x10, EncodesWhole.Statement (.rdsG8A x0 x1 x2 x3 x4 x5 x6 x7 x8 x9 x10) := by
  intro x0 x1 x2 x3 x4 x5 x6 x7 x8 x9 x10 _
  simp (disch := omega) only [encode, wholeWire, groupHead, bit_upper, bit_lower, Nat.reduceSub]
  exact ⟨fun h => absurd h (by decide), fun ⟨_, _, _, _, _, _, _, h⟩ => Instr.noConfusion h⟩

theorem EncodesWhole.rdsG9A : ∀ x0 x1 x2 x3 x4 x5, EncodesWhole.Statement (.rdsG9A x0 x1 x2 x3 x4 x5) := by
  intro x0 x1 x2 x3 x4 x5 _
  simp (disch := omega) only [encode, wholeWire, groupHead, bit_upper, bit_lower, Nat.reduceSub]
  exact ⟨fun h => absurd h (by decide), fun ⟨_, _, _, _, _, _, _, h⟩ => Instr.noConfusion h⟩

theorem EncodesWhole.rdsG10A : ∀ x0 x1 x2 x3 x4 x5, EncodesWhole.Statement (.rdsG10A x0 x1 x2 x3 x4 x5) := by
  intro x0 x1 x2 x3 x4 x5 _
  simp (disch := omega) only [encode, wholeWire, groupHead, bit_upper, bit_lower, Nat.reduceSub]
  exact ⟨fun h => absurd h (by decide), fun ⟨_, _, _, _, _, _, _, h⟩ => Instr.noConfusion h⟩

theorem EncodesWhole.rdsG11A : ∀ x0 x1 x2 x3 x4 x5, EncodesWhole.Statement (.rdsG11A x0 x1 x2 x3 x4 x5) := by
  intro x0 x1 x2 x3 x4 x5 _
  simp (disch := omega) only [encode, wholeWire, groupHead, bit_upper, bit_lower, Nat.reduceSub]
  exact ⟨fun h => absurd h (by decide), fun ⟨_, _, _, _, _, _, _, h⟩ => Instr.noConfusion h⟩

theorem EncodesWhole.rdsG12A : ∀ x0 x1 x2 x3 x4 x5, EncodesWhole.Statement (.rdsG12A x0 x1 x2 x3 x4 x5) := by
  intro x0 x1 x2 x3 x4 x5 _
  simp (disch := omega) only [encode, wholeWire, groupHead, bit_upper, bit_lower, Nat.reduceSub]
  exact ⟨fun h => absurd h (by decide), fun ⟨_, _, _, _, _, _, _, h⟩ => Instr.noConfusion h⟩

theorem EncodesWhole.rdsG13A : ∀ x0 x1 x2 x3 x4 x5, EncodesWhole.Statement (.rdsG13A x0 x1 x2 x3 x4 x5) := by
  intro x0 x1 x2 x3 x4 x5 _
  simp (disch := omega) only [encode, wholeWire, groupHead, bit_upper, bit_lower, Nat.reduceSub]
  exact ⟨fun h => absurd h (by decide), fun ⟨_, _, _, _, _, _, _, h⟩ => Instr.noConfusion h⟩

theorem EncodesWhole.rdsG14A : ∀ x0 x1 x2 x3 x4 x5, EncodesWhole.Statement (.rdsG14A x0 x1 x2 x3 x4 x5) := by
  intro x0 x1 x2 x3 x4 x5 _
  simp (disch := omega) only [encode, wholeWire, groupHead, bit_upper, bit_lower, Nat.reduceSub]
  exact ⟨fun h => absurd h (by decide), fun ⟨_, _, _, _, _, _, _, h⟩ => Instr.noConfusion h⟩

theorem EncodesWhole.rdsG15A : ∀ x0 x1 x2 x3 x4 x5, EncodesWhole.Statement (.rdsG15A x0 x1 x2 x3 x4 x5) := by
  intro x0 x1 x2 x3 x4 x5 _
  simp (disch := omega) only [encode, wholeWire, groupHead, bit_upper, bit_lower, Nat.reduceSub]
  exact ⟨fun h => absurd h (by decide), fun ⟨_, _, _, _, _, _, _, h⟩ => Instr.noConfusion h⟩

end Sys2Proof.Laws
end

