-- ==== Sys2Proof/Machine/Construct.lean ====
section
/-! DEFINITION. Machine/Construct.lean: construction (60_exceptions.md R371, R372; 70_reset_and_hazards.md R410): a
function from the parameters to the reset state or the construction failure's code. -/

namespace Sys2Proof.Machine

/-- The rate checks (R371, code 1). -/
def Config.ratesOk (c : Config) : Bool :=
  decide (0 < c.inputRate) && decide (0 < c.fmRate) && decide (0 < c.audioRate) &&
  decide (c.inputRate % c.fmRate = 0) && decide (c.fmRate % c.audioRate = 0) && decide (2 ≤ c.fmRate)

/-- The size checks (R372). -/
def Config.sizesOk (c : Config) : Bool :=
  decide (c.arbCap % 2 = 0) && decide (2 ≤ c.arbCap) &&
  decide (c.nFft % 2 = 0) && decide (8 ≤ c.nFft) && decide (1 ≤ c.maxReaders) &&
  decide (1 ≤ c.sigLo) && decide (c.sigLo ≤ c.sigHi) &&
  decide (1 ≤ c.noiseLo) && decide (c.noiseLo ≤ c.noiseHi) &&
  decide (c.sigHi + c.noiseHi < c.nFft / 2) &&
  decide (1 ≤ c.hIn.length) && decide (1 ≤ c.hAud.length)

/-- The checks on real parameters (R372); a coefficient is a real, so it is finite. -/
def Config.realsOk (c : Config) : Bool :=
  (RNum.rat 0).lt c.maxDev && (RNum.rat 0).lt c.normDev && (RNum.rat 0).lt c.deltaF && (RNum.rat 0).lt c.gainFloor &&
  (c.emaOld.add c.emaNew).eqv (.rat 1) && (RNum.rat 0).le c.emaOld && (RNum.rat 0).le c.emaNew &&
  (RNum.rat 0).lt c.logFloor

/-- The first construction check that fails, lowest code first (R371). -/
def Config.failure (c : Config) (sourceAttached : Bool) : Option ConstructionCode :=
  if Config.ratesOk c = false then some .rate
  else if sourceAttached = false then some .source
  else if Config.sizesOk c = false ∨ Config.realsOk c = false then some .param
  else none

/-- Construction (R371): the reset state, or a failure and no state. -/
def construct (c : Config) (sourceAttached : Bool) : Except Fault State :=
  match Config.failure c sourceAttached with
  | some code => .error (.constructionFailure code)
  | none => .ok (State.resetOf c)

/-- The code of a construction failure (R371). -/
def ConstructionCode.number : ConstructionCode → Nat
  | .rate => 1
  | .source => 2
  | .param => 3

end Sys2Proof.Machine
end

