-- ==== Sys2Proof/Safety.lean ====
section
/-! DEFINITION. Safety.lean: what every reachable state satisfies (10_state.md R60), with the counter bounds of R57 and
the sizes of R21 to R39, and the words the statements use for a step that completes. -/

namespace Sys2Proof.Machine

/-- The operation completes: `exec` answers a next state, not a fault and not a refusal. -/
def Completes (r : Result) : Prop := ∃ t, r = .next t

/-- The reader ids below `MAX_READERS` (R39, R140). -/
def validReader (s : State) (r : BitVec 16) : Prop := r.toNat < s.params.maxReaders

/-- Groups are decoded: RUNNING, and the RDS mode is not OFF (R231). -/
def GroupsOn (s : State) : Prop := s.eng.run = .running ∧ s.cr.rdsMode ≠ .off

/-- The opcodes a port accepts (30_encoding.md R125 to R127; 60_exceptions.md R385). The internal operations of R128 are
accepted on the internal path, which is no port (log entry 6). -/
def acceptedAt : Port → List Nat
  | .cp => [0x01, 0x02, 0x10, 0x11, 0x12, 0x13, 0x20, 0x21, 0x22, 0x23, 0x24, 0x25, 0x42, 0x43]
  | .ap => [0x40, 0x41, 0x42, 0x43, 0x85]
  | .sp => [0x80]
  | .gp => [0x81]
  | .tk => [0x82, 0x83]
  | .fn => [0x84]
  | .inside => [0x90, 0x91, 0x92, 0x93, 0x94, 0x95]

/-- The opcodes whose `imm16` must be 0 (30_encoding.md R125 to R128). -/
def immMustBeZero : List Nat :=
  [0x01, 0x02, 0x10, 0x11, 0x12, 0x13, 0x23, 0x41, 0x42, 0x43, 0x80, 0x81, 0x82, 0x84, 0x91, 0x92, 0x93, 0x94, 0x95]

/-- The words of an accepted operation that R140 refuses with ERR_ARG for what they hold, whatever the state: `rsv` or an
`imm16` that must be 0 and is not, a code outside the tables of R129, bits [15:1] of `SETSQUELCH`'s `imm16`, an odd count
of `WRITE`, and an infinity or a NaN as the first operand of `SETSQUELCH`, `SEEK` or `SCANSTART`. -/
def MalformedWords (h : Word) (ws : List Word) : Prop :=
  rsvOf h ≠ 0#8 ∨
  ((opOf h).toNat ∈ immMustBeZero ∧ immOf h ≠ 0#16) ∨
  ((opOf h).toNat = 0x20 ∧ 4 < (immOf h).toNat) ∨
  ((opOf h).toNat = 0x21 ∧ 2 < (immOf h).toNat) ∨
  ((opOf h).toNat = 0x24 ∧ 2 < (immOf h).toNat) ∨
  ((opOf h).toNat = 0x25 ∧ 1 < (immOf h).toNat) ∨
  ((opOf h).toNat = 0x22 ∧ (immOf h).extractLsb' 1 15 ≠ 0#15) ∨
  ((opOf h).toNat = 0x90 ∧ (immOf h).toNat % 2 = 1) ∨
  ((opOf h).toNat ∈ [0x12, 0x22, 0x91] ∧ ∃ w rest, ws = w :: rest ∧ f32Finite w = false)

/-- The operations of R373 that an infinity or a NaN drops without a response, with nothing else amiss in their words. -/
def NonFiniteSamples (h : Word) (ws : List Word) : Prop :=
  rsvOf h = 0#8 ∧
  (((opOf h).toNat ∈ [0x80, 0x94] ∧ immOf h = 0#16 ∧ (ws.take 2).all f32Finite = false) ∨
   ((opOf h).toNat = 0x90 ∧ (immOf h).toNat % 2 = 0 ∧ (ws.take (immOf h).toNat).all f32Finite = false))

/-- A plain `OK` at a port (R147). -/
def okAt (p : Port) : Response := ⟨p, none, .ok, [], []⟩

/-- The event reports a complete label (R145). -/
def Event.isLabelComplete : Event → Bool
  | .labelComplete _ => true
  | .labelClear => false
  | .labelChange _ => false
  | .textClear => false
  | .textChange _ => false
  | .textComplete _ => false
  | .stationFound _ _ => false
  | .freqChanged _ => false

/-- The real number a finite f32 operand stands for (R123). -/
def f32Real (w : Word) : RNum := .rat (f32Value w)

/-- The complex sample two finite f32 operands stand for (R123). -/
def f32Sample (i q : Word) : Cplx := ⟨f32Real i, f32Real q⟩

/-- The block as it is once sample `z` has been stored (R263). -/
def blockWith (s : State) (z : Cplx) : List (Nat × Cplx) := Memory.write Cplx.zero s.scan.blk s.scan.blkIdx z

/-- The FM-rate sample that `SAMPLE i q` completes, after stages 1 and 2: filtered, and scaled by `ATT` (R173, R174). -/
def scaledSample (s : State) (i q : Word) : Cplx :=
  Cplx.smul s.params (u32Real s.cr.att)
    (firCplx s.params s.params.hIn ((f32Sample i q :: s.dem.inDl).take s.params.hIn.length))

/-- The sample stages 4 and 5 see: zero while a scan is active (R175). -/
def demodSample (s : State) (i q : Word) : Cplx := if s.scan.scanning then Cplx.zero else scaledSample s i q

/-- `10 ^ (PILOT_MARGIN_DB / 20) · noiseFloor < pilotLevel`, in the real numbers (R181). -/
def pilotAbove (c : Config) (pt : PilotState) : Prop :=
  (10 : ℝ) ^ (c.pilotMarginDb.toReal / 20) * (noiseFloor c pt).toReal < (pilotLevel c pt).toReal

/-- R372's checks on real parameters, read as real numbers. -/
structure RealParams (c : Config) : Prop where
  maxDev : 0 < c.maxDev.toReal
  normDev : 0 < c.normDev.toReal
  deltaF : 0 < c.deltaF.toReal
  gainFloor : 0 < c.gainFloor.toReal
  emaSum : c.emaOld.toReal + c.emaNew.toReal = 1
  emaOld : 0 ≤ c.emaOld.toReal
  emaNew : 0 ≤ c.emaNew.toReal
  logFloor : 0 < c.logFloor.toReal

/-- The parameters pass R371's and R372's checks. -/
structure ParamsOk (c : Config) : Prop where
  rates : Config.ratesOk c = true
  sizes : Config.sizesOk c = true
  reals : RealParams c

/-- A space in canonical form whose listed addresses lie below `size` (20_memory.md R81 to R84). -/
def SpaceOk {α : Type} [DecidableEq α] (fill : α) (size : Nat) (m : List (Nat × α)) : Prop :=
  Memory.wf fill m = true ∧ ∀ e ∈ m, e.1 < size

/-- The ring buffer: R60 (a), (b); R38, R39, R57. -/
structure ArbInv (c : Config) (a : Arb) : Prop where
  occEven : a.occ % 2 = 0
  rdEven : a.rd % 2 = 0
  wrEven : a.wr % 2 = 0
  wrPlace : a.wr = (a.rd + a.occ) % c.arbCap
  occLe : a.occ ≤ c.arbCap
  rdLt : a.rd < c.arbCap
  readers : a.readers.length = c.maxReaders
  store : SpaceOk (.rat 0) c.arbCap a.store

/-- No two neighbours of the candidate list at one frequency: R60 (d). -/
def neighboursDiffer : List Candidate → Prop
  | [] => True
  | [_] => True
  | x :: y :: rest => x.freq ≠ y.freq ∧ neighboursDiffer (y :: rest)

/-- The scanner: R60 (c), (d); R36, R37, R57. -/
structure ScanInv (c : Config) (u : Scan) : Prop where
  idleEmpty : u.scanning = false → u.cand = []
  differ : neighboursDiffer u.cand
  counted : ∀ x ∈ u.cand, 1 ≤ x.count
  blkIdx : u.blkIdx < c.nFft
  blk : SpaceOk Cplx.zero c.nFft u.blk

/-- The seek context and the scan session: R60 (e), (f). -/
structure SeekInv (e : Engine) (u : Scan) : Prop where
  timer : e.timerArmed = true → e.seekActive = true
  session : e.seekActive = true → u.scanning = true
  range : e.seekActive = true → e.seekMin.toNat ≤ e.seekMax.toNat

/-- The RDS registers: R60 (g); R32, R33, R34. -/
structure RdsInv (u : Rds) : Prop where
  labelOpen : u.labelMask ≠ 0xF#4
  textOpen : u.textMask ≠ 0xFFFF#16
  label : SpaceOk Config.fill Config.labelLen u.label
  text : SpaceOk Config.fill Config.textLen u.text
  hour : u.clkHour.toNat ≤ 23
  minute : u.clkMin.toNat ≤ 59

/-- The datapath: R23, R24, R28, R30, R57; and, with exact arithmetic, a peak that is not negative and R177's positive
gain (another `rnd` of R12 gives no such promise). -/
structure DemodInv (c : Config) (u : Demod) : Prop where
  inDl : u.inDl.length = c.hIn.length
  inPh : u.inPh < c.rIn
  peak : c.rnd = .exact → 0 ≤ u.peak.toReal
  peakCnt : u.peakCnt < c.peakWindow
  gain : c.rnd = .exact → 0 < u.gainAvg.toReal
  audDl : u.audDl.length = c.hAud.length
  audPh : u.audPh < c.rAud
  rdsPh : u.rf.rdsPh < c.rRds

/-- A delivery at a real port: no internal operation can be presented (R121, R128). -/
def Delivery.AtPort : Delivery → Prop
  | .op p _ => p ≠ .inside
  | .group _ => True

/-- What every reachable state satisfies. -/
structure Inv (s : State) : Prop where
  params : ParamsOk s.params
  arb : ArbInv s.params s.arb
  scan : ScanInv s.params s.scan
  seek : SeekInv s.eng s.scan
  rds : RdsInv s.rds
  dem : DemodInv s.params s.dem
  ports : ∀ d ∈ s.inq, d.AtPort

end Sys2Proof.Machine
end

