-- ==== Sys2Proof/Certificates/Slice0/Obligations.lean ====
section
/-! DEFINITION. Certificates/Slice0/Obligations.lean: the statements for the provers. A next state is written as the
state before with the named fields changed, so every field not named is unchanged. -/

section

open Sys2Proof Sys2Proof.Machine

/-! ## Encoding and stepping -/

/-- Every well-formed operation, with every operand its encoding admits, is read back by the decoder (30_encoding.md
R122 to R135). -/
def Obligations.DecodeInvertsEncode : Prop := ∀ i : Instr, i.wellFormed = true → decode (encode i) = .ok i

/-- A step runs the decoded operation (30_encoding.md R121, R124; 20_memory.md R100): the first delivery is taken, the
operation it decodes to is executed, and what follows the operation in the delivery stays; a bare group likewise. The
delivery queue is the model's own (log entry 5). -/
def Obligations.StepRunsDecodedOperation : Prop :=
  (∀ (s : State) (p : Port) (h : Word) (ws : List Word) (ds : List Delivery) (i : Instr),
    s.inq = .op p (h :: ws) :: ds → opLength h ≤ (h :: ws).length → portAccepts p h = true →
    decodeOp (h :: ws) = .ok i →
    step s = exec i { s with inq := restOf p (h :: ws) (opLength h) ds, port := p }) ∧
  (∀ (s : State) (g : BitVec 64) (ds : List Delivery),
    s.inq = .group g :: ds → step s = exec (decodeGroup g) { s with inq := ds, port := .gp })

/-- The encoding of a well-formed operation, presented at its own port, is run by the next step (R121 to R127). For the
internal operations of R128, which every port refuses, "its own port" is the model's internal path (log entry 6, the
model's choice). -/
def Obligations.EncodedOperationRuns : Prop :=
  ∀ (i : Instr) (s : State) (h : Word) (ws : List Word) (ds : List Delivery),
    i.wellFormed = true → encode i = .op (h :: ws) → s.inq = .op (homePort h) (h :: ws) :: ds →
    step s = exec i { s with inq := ds, port := homePort h }

/-- Words written out from the tables of 30_encoding.md decode to the operations they stand for; and every f32 operand
word is what R123 says: no value where the exponent field is 0xFF, else the exact real number of its binary32 pattern,
-0 being 0. The words in which outputs leave (R145, R147 to R149): the event codes, and the text events' payload with
character `4k + j` in bits [31 - 8j : 24 - 8j] of word `k`; the status words; responses, RB records and FP requests. A
real leaves as `f32OfReal`: the value of a word (but -0) leaves as that word, and every real below the overflow
threshold of binary32 leaves as a finite word to which none is nearer, the even one where two are as near (R148). That
the real 0 leaves as +0, which the clause on a word's value says at the word 0, is the model's choice (log entry 13). -/
def Obligations.WrittenWordsDecode : Prop :=
  decodeOp [0x01000000#32] = .ok .start ∧
  decodeOp [0x10000000#32, 0x05D8E320#32] = .ok (.tune 98100000#32) ∧
  decodeOp [0x20000001#32] = .ok (.setchan .left) ∧
  decodeOp [0x22000001#32, 0x3F000000#32] = .ok (.setsquelch true 0x3F000000#32) ∧
  decodeOp [0x40000001#32, 5#32] = .ok (.read 1#16 5#32) ∧
  decodeOp [0x81000000#32, 0x12340000#32, 0x00005241#32] = .ok (.group 0x12340000#32 0x00005241#32) ∧
  decodeGroup 0x1234000000005241#64 = .rdsG0A 0x1234#16 0#1 0#5 0#3 0#2 0#16 0x52#8 0x41#8 ∧
  decodeOp [0x95000000#32] = .ok .rdsreset ∧
  (∀ w : Word, (f32Finite w = false ↔ w.extractLsb' 23 8 = 0xFF#8) ∧
    (f32Real w).toReal = (if w.getLsbD 31 then -1 else 1) *
      (if w.extractLsb' 23 8 = 0#8 then ((w.extractLsb' 0 23).toNat : ℝ) * 2 ^ (-149 : Int)
       else (2 ^ 23 + ((w.extractLsb' 0 23).toNat : ℝ)) * 2 ^ (((w.extractLsb' 23 8).toNat : Int) - 150))) ∧
  f32Real 0x80000000#32 = f32Real 0#32 ∧
  (Event.labelClear.words = [0x01000000#32] ∧ Event.textClear.words = [0x04000000#32] ∧
    (∀ freq token, (Event.stationFound freq token).words = [0x07000000#32, freq, token]) ∧
    (∀ freq, (Event.freqChanged freq).words = [0x08000000#32, freq])) ∧
  (∀ text : List Byte, text.length % 4 = 0 → ∃ p : List Word,
    4 * p.length = text.length ∧
    (∀ k j, (hk : k < p.length) → j < 4 → text[4 * k + j]? = some (p[k].extractLsb' (24 - 8 * j) 8)) ∧
    (Event.labelChange text).words = 0x02000000#32 :: p ∧ (Event.labelComplete text).words = 0x03000000#32 :: p ∧
    (Event.textChange text).words = 0x05000000#32 :: p ∧ (Event.textComplete text).words = 0x06000000#32 :: p) ∧
  (Status.ok.word = 0#32 ∧ Status.errOp.word = 1#32 ∧ Status.errArg.word = 2#32 ∧ Status.cancelled.word = 3#32) ∧
  (∀ (c : Config) (r : Response),
    r.words c = r.status.word :: (r.counts ++ r.samples.map fun x => f32OfReal (c.round x).toReal)) ∧
  (∀ (c : Config) (z : Cplx) (m : RdsMode) (h : Word),
    h = (match m with
      | .off => 0xA0000000#32
      | .v1 => 0xA0000001#32
      | .v2 => 0xA0000002#32) →
    RbRecord.words c ⟨m, z⟩ = [h, f32OfReal (c.round z.re).toReal, f32OfReal (c.round z.im).toReal]) ∧
  (FpRequest.start.words = [0xB0000000#32] ∧ FpRequest.stop.words = [0xB1000000#32] ∧
    ∀ freq, (FpRequest.setFreq freq).words = [0xB2000000#32, freq]) ∧
  (∀ w : Word, f32Finite w = true → w ≠ 0x80000000#32 → f32OfReal (f32Real w).toReal = w) ∧
  (∀ (x : ℝ) (v : Word), v = f32OfReal x → |x| < 2 ^ 128 - 2 ^ 103 →
    f32Finite v = true ∧ ∀ w : Word, f32Finite w = true →
      |(f32Real v).toReal - x| ≤ |(f32Real w).toReal - x| ∧
      (|(f32Real v).toReal - x| = |(f32Real w).toReal - x| → (f32Real w).toReal ≠ (f32Real v).toReal →
        v.getLsbD 0 = false))

/-- An opcode that the port does not accept is refused with ERR_OP, whatever its words, and nothing but the response
changes (R140, R373; 60_exceptions.md R385): each port's opcodes are those of `acceptedAt`, and no port's are the
unassigned opcodes and the output record codes of R142 or the internal ones of R128. A stream port carries no
response. An unassigned opcode takes one word, its header, which is the model's choice (log entry 10). -/
def Obligations.InternalOpcodesRefusedAtPorts : Prop :=
  (∀ (s : State) (p : Port) (h : Word) (ws : List Word) (ds : List Delivery),
    p ≠ .inside → s.inq = .op p (h :: ws) :: ds → opLength h ≤ (h :: ws).length → (opOf h).toNat ∉ acceptedAt p →
    step s = .next { s with
      inq := restOf p (h :: ws) (opLength h) ds
      port := p
      out := { s.out with rsq := if p = .cp ∨ p = .ap then s.out.rsq ++ [⟨p, none, .errOp, [], []⟩] else s.out.rsq } }) ∧
  (∀ (p : Port) (h : Word), portAccepts p h = true ↔ (opOf h).toNat ∈ acceptedAt p) ∧
  (∀ (p : Port) (op : Nat), p ≠ .inside →
    op = 0x00 ∨ (0x03 ≤ op ∧ op ≤ 0x0F) ∨ (0x14 ≤ op ∧ op ≤ 0x1F) ∨ (0x26 ≤ op ∧ op ≤ 0x3F) ∨
      (0x44 ≤ op ∧ op ≤ 0x7F) ∨ 0x86 ≤ op → op ∉ acceptedAt p)

/-- The malformed words of R140 are refused with ERR_ARG at the port that accepts the opcode, and nothing but the
response changes (R122, R129, R373); `SAMPLE`, `SCANFEED` and `WRITE` with an infinity or a NaN are dropped, and
nothing changes. That an internal operation is accepted on the internal path and answered there, and that its `rsv`,
`imm16` and count are tested before its samples, are the model's choices (log entries 6, 9 and 23). -/
def Obligations.ReservedBitsRefused : Prop :=
  ∀ (s : State) (p : Port) (h : Word) (ws : List Word) (ds : List Delivery),
    s.inq = .op p (h :: ws) :: ds → opLength h ≤ (h :: ws).length → portAccepts p h = true →
    (MalformedWords h ws → step s = .next { s with
      inq := restOf p (h :: ws) (opLength h) ds
      port := p
      out := { s.out with rsq := if portResponds p then s.out.rsq ++ [⟨p, none, .errArg, [], []⟩] else s.out.rsq } }) ∧
    (NonFiniteSamples h ws → step s = .next { s with inq := restOf p (h :: ws) (opLength h) ds, port := p })

/-! ## The whole machine -/

/-- R60, with the counters of R57 and the sizes of R21 to R39: every step keeps the invariant. The canonical form of the
spaces and the types that keep `PEAK_WINDOW` and `R_RDS` positive are the model's choices (log entries 19 and 25). -/
def Obligations.InvariantKeptByEveryStep : Prop := ∀ s t : State, Inv s → step s = .next t → Inv t

/-- The invariant holds right after reset, for the parameters of log entry 3 and for all that pass the checks of R372,
which take in, by the model's choice, parameters that R9 or R201 to R203 exclude (log entries 25 and 26). -/
def Obligations.InvariantHoldsAtReset : Prop := Inv State.reset ∧ ∀ c : Config, ParamsOk c → Inv (State.resetOf c)

/-- No step stops the machine: there is no run-time fault (60_exceptions.md R370, R374). -/
def Obligations.EveryStepCompletes : Prop := ∀ s : State, Completes (step s)

/-- The parameters are fixed at construction, and the output histories only grow: no step drops or rewrites an event, a
record or a request (10_state.md R54, R59; 60_exceptions.md R380). -/
def Obligations.HistoriesOnlyGrow : Prop :=
  ∀ s t : State, step s = .next t → t.params = s.params ∧
    s.out.evq <+: t.out.evq ∧ s.out.rbq <+: t.out.rbq ∧ s.out.fpq <+: t.out.fpq ∧ s.out.rsq <+: t.out.rsq

/-- Construction (60_exceptions.md R371, R372): code 1 where a rate condition fails, else code 2 for no sample source,
else code 3 where a condition of R372 fails, else the reset state; never a state beside a failure. A coefficient is a
real and so finite (log entry 15). That parameters which R9 or R201 to R203 exclude and R372 does not check (F_G not
positive, a reference component's parameter outside its range) are accepted is the model's choice (log entries 25 and
26). -/
def Obligations.ConstructionCodes : Prop :=
  ∀ (c : Config) (b : Bool) (rates params : Prop),
    rates = (0 < c.inputRate ∧ 0 < c.fmRate ∧ 0 < c.audioRate ∧ c.fmRate ∣ c.inputRate ∧ c.audioRate ∣ c.fmRate ∧
      2 ≤ c.fmRate) →
    params = (Even c.arbCap ∧ 2 ≤ c.arbCap ∧ Even c.nFft ∧ 8 ≤ c.nFft ∧ 1 ≤ c.maxReaders ∧
      (1 ≤ c.sigLo ∧ c.sigLo ≤ c.sigHi) ∧ (1 ≤ c.noiseLo ∧ c.noiseLo ≤ c.noiseHi) ∧
      (c.sigHi : Int) < (c.nFft : Int) / 2 - c.noiseHi ∧ 1 ≤ c.hIn.length ∧ 1 ≤ c.hAud.length ∧
      0 < c.maxDev.toReal ∧ 0 < c.normDev.toReal ∧ 0 < c.deltaF.toReal ∧ 0 < c.gainFloor.toReal ∧
      c.emaOld.toReal + c.emaNew.toReal = 1 ∧ (0 ≤ c.emaOld.toReal ∧ c.emaOld.toReal ≤ 1) ∧
      (0 ≤ c.emaNew.toReal ∧ c.emaNew.toReal ≤ 1) ∧ 0 < c.logFloor.toReal) →
    (¬ rates → construct c b = .error (.constructionFailure .rate)) ∧
    (rates → b = false → construct c b = .error (.constructionFailure .source)) ∧
    (rates → b = true → ¬ params → construct c b = .error (.constructionFailure .param)) ∧
    (rates → b = true → params → construct c b = .ok (State.resetOf c)) ∧
    (ConstructionCode.rate.number = 1 ∧ ConstructionCode.source.number = 2 ∧ ConstructionCode.param.number = 3)

/-- The values the spec gives every register right after reset (70_reset_and_hazards.md R411), for any parameters; the
elements R411 leaves unspecified are not named. -/
def Obligations.ResetValues : Prop :=
  ∀ c : Config,
    (State.resetOf c).cr = ⟨.stereo, .stereo, false, c.sqLevelReset, c.attReset, .t50, .off⟩ ∧
    (State.resetOf c).dem = ⟨List.replicate c.hIn.length Cplx.zero, 0, .rat 0, 0, .rat 1, Cplx.zero, pilotInit c, false,
      .rat 0, .rat 0, List.replicate c.hAud.length Frame.zero, 0, noiseInit c, frontInit c⟩ ∧
    (State.resetOf c).dem.rf.rdsPh = 0 ∧
    (State.resetOf c).rds.pi = none ∧ (∀ a, charAt (State.resetOf c).rds.label a = 0x20#8) ∧
    (State.resetOf c).rds.labelMask = 0#4 ∧ (∀ a, charAt (State.resetOf c).rds.text a = 0x20#8) ∧
    (State.resetOf c).rds.textMask = 0#16 ∧ (State.resetOf c).rds.lastAb = none ∧
    (State.resetOf c).rds.clkHour = 0#5 ∧ (State.resetOf c).rds.clkMin = 0#6 ∧ (State.resetOf c).rds.clkDay = 0#17 ∧
    (State.resetOf c).scan.scanning = false ∧ (State.resetOf c).scan.blkIdx = 0 ∧ (State.resetOf c).scan.cand = [] ∧
    (State.resetOf c).arb.rd = 0 ∧ (State.resetOf c).arb.wr = 0 ∧ (State.resetOf c).arb.occ = 0 ∧
    (State.resetOf c).arb.readers = List.replicate c.maxReaders .idle ∧
    (State.resetOf c).eng.freq = c.freqReset ∧ (State.resetOf c).eng.run = .idle ∧
    (State.resetOf c).eng.seekActive = false ∧ (State.resetOf c).eng.timerArmed = false ∧
    (State.resetOf c).out.evq = [] ∧ (State.resetOf c).out.rbq = [] ∧ (State.resetOf c).out.fpq = []

/-! ## ENG -/

/-- `START` (45_engine_control.md R323). -/
def Obligations.StartRunsTheEngine : Prop :=
  ∀ s : State,
    (s.eng.run ≠ .running → exec .start s = .next { s with
      eng := { s.eng with run := .running }
      out := { s.out with fpq := s.out.fpq ++ [.start], rsq := s.out.rsq ++ [okAt .cp] } }) ∧
    (s.eng.run = .running → exec .start s = .next { s with out := { s.out with rsq := s.out.rsq ++ [okAt .cp] } }) ∧
    decodeOp [0x01000000#32] = .ok .start

/-- `STOP` (45_engine_control.md R324). -/
def Obligations.StopPausesTheEngine : Prop :=
  ∀ s : State,
    (s.eng.run = .running → exec .stop s = .next { s with
      eng := { s.eng with run := .paused }
      out := { s.out with fpq := s.out.fpq ++ [.stop], rsq := s.out.rsq ++ [okAt .cp] } }) ∧
    (s.eng.run ≠ .running → exec .stop s = .next { s with out := { s.out with rsq := s.out.rsq ++ [okAt .cp] } }) ∧
    decodeOp [0x02000000#32] = .ok .stop

/-- `TUNE` (45_engine_control.md R325 with R322; 42_rds_group_decoder.md R241): the frequency, one FP request, the RDS
reset, and the three events in order. Both buffers read as spaces at every address. -/
def Obligations.TuneSetsFrequencyAndClearsRds : Prop :=
  ∀ (s : State) (f : Word),
    exec (.tune f) s = .next { s with
      eng := { s.eng with freq := f }
      rds := { s.rds with pi := none, label := [], labelMask := 0#4, text := [], textMask := 0#16 }
      out := { s.out with
        fpq := s.out.fpq ++ [.setFreq f]
        evq := s.out.evq ++ [.freqChanged f, .labelClear, .textClear]
        rsq := s.out.rsq ++ [okAt .cp] } } ∧
    (∀ a, charAt [] a = 0x20#8) ∧ decodeOp [0x10000000#32, f] = .ok (.tune f)

/-- `GETFREQ` answers `FREQ` and has no side effect; after `TUNE f` it answers `f` (45_engine_control.md R326). -/
def Obligations.GetfreqAnswersTheFrequency : Prop :=
  (∀ s : State, exec .getfreq s = .next { s with
    out := { s.out with rsq := s.out.rsq ++ [⟨.cp, none, .ok, [s.eng.freq], []⟩] } }) ∧
  (∀ (s t : State) (f : Word), exec (.tune f) s = .next t → exec .getfreq t = .next { t with
    out := { t.out with rsq := t.out.rsq ++ [⟨.cp, none, .ok, [f], []⟩] } }) ∧
  decodeOp [0x11000000#32] = .ok .getfreq

/-- The six setters (45_engine_control.md R331 to R336): each writes its register, answers OK and changes nothing
else; a squelch level that is an infinity or a NaN is refused and changes nothing else; the words are those of
30_encoding.md R125 and R129. -/
def Obligations.SettersWriteTheirRegister : Prop :=
  (∀ s : State,
    (∀ m, exec (.setmode m) s = .next { s with
      cr := { s.cr with mode := m }, out := { s.out with rsq := s.out.rsq ++ [okAt .cp] } }) ∧
    (∀ ch, exec (.setchan ch) s = .next { s with
      cr := { s.cr with chan := ch }, out := { s.out with rsq := s.out.rsq ++ [okAt .cp] } }) ∧
    (∀ d, exec (.setdeemph d) s = .next { s with
      cr := { s.cr with deemph := d }, out := { s.out with rsq := s.out.rsq ++ [okAt .cp] } }) ∧
    (∀ en level, f32Finite level = true → exec (.setsquelch en level) s = .next { s with
      cr := { s.cr with sqEn := en, sqLevel := f32Real level }, out := { s.out with rsq := s.out.rsq ++ [okAt .cp] } }) ∧
    (∀ en level, f32Finite level = false → exec (.setsquelch en level) s = .next { s with
      out := { s.out with rsq := s.out.rsq ++ [⟨.cp, none, .errArg, [], []⟩] } }) ∧
    (∀ level, exec (.setgain level) s = .next { s with
      cr := { s.cr with att := level }, out := { s.out with rsq := s.out.rsq ++ [okAt .cp] } }) ∧
    (∀ m, exec (.setrdsmode m) s = .next { s with
      cr := { s.cr with rdsMode := m }, out := { s.out with rsq := s.out.rsq ++ [okAt .cp] } })) ∧
  decodeOp [0x25000000#32] = .ok (.setmode .mono) ∧ decodeOp [0x25000001#32] = .ok (.setmode .stereo) ∧
  decodeOp [0x20000000#32] = .ok (.setchan .stereo) ∧ decodeOp [0x20000001#32] = .ok (.setchan .left) ∧
  decodeOp [0x20000002#32] = .ok (.setchan .right) ∧ decodeOp [0x20000003#32] = .ok (.setchan .sum) ∧
  decodeOp [0x20000004#32] = .ok (.setchan .diff) ∧
  decodeOp [0x21000000#32] = .ok (.setdeemph .flat) ∧ decodeOp [0x21000001#32] = .ok (.setdeemph .t50) ∧
  decodeOp [0x21000002#32] = .ok (.setdeemph .t75) ∧
  (∀ level, f32Finite level = true → decodeOp [0x22000000#32, level] = .ok (.setsquelch false level) ∧
    decodeOp [0x22000001#32, level] = .ok (.setsquelch true level)) ∧
  (∀ level, decodeOp [0x23000000#32, level] = .ok (.setgain level)) ∧
  decodeOp [0x24000000#32] = .ok (.setrdsmode .off) ∧ decodeOp [0x24000001#32] = .ok (.setrdsmode .v1) ∧
  decodeOp [0x24000002#32] = .ok (.setrdsmode .v2)

/-- `SEEK` (45_engine_control.md R340, R322; 43_station_scanner.md R260): with a finite threshold and a range, whatever
seek was active, a new session opens; an inverted range, and a threshold that is an infinity or a NaN, are refused with
ERR_ARG and nothing else changes. -/
def Obligations.SeekOpensASession : Prop :=
  ∀ (s : State) (thr lo hi step interval token : Word),
    (f32Finite thr = true → lo.toNat ≤ hi.toNat → exec (.seek thr lo hi step interval token) s = .next { s with
      eng := { s.eng with
        freq := advance s.eng.freq step lo hi, seekActive := true, seekPre := s.eng.freq, seekMin := lo, seekMax := hi,
        seekStep := step, seekInterval := interval, seekToken := token, timerArmed := true }
      scan := { s.scan with scanning := true, threshold := f32Real thr, token := token, blkIdx := 0, cand := [] }
      out := { s.out with
        fpq := s.out.fpq ++ [.setFreq (advance s.eng.freq step lo hi)]
        evq := s.out.evq ++ [.freqChanged (advance s.eng.freq step lo hi)]
        rsq := s.out.rsq ++ [okAt .cp] } }) ∧
    (f32Finite thr = false ∨ hi.toNat < lo.toNat → exec (.seek thr lo hi step interval token) s = .next { s with
      out := { s.out with rsq := s.out.rsq ++ [⟨.cp, none, .errArg, [], []⟩] } }) ∧
    (f32Finite thr = true →
      decodeOp [0x12000000#32, thr, lo, hi, step, interval, token] = .ok (.seek thr lo hi step interval token))

/-- `Advance` (45_engine_control.md R342): computed in the integers, wrapping exactly to the other bound, and always in
the range. -/
def Obligations.AdvanceWrapsInItsRange : Prop :=
  ∀ f step lo hi : Word, lo.toNat ≤ hi.toNat →
    ((hi.toNat : Int) < f.toNat + step.toInt → advance f step lo hi = lo) ∧
    ((f.toNat : Int) + step.toInt < lo.toNat → advance f step lo hi = hi) ∧
    ((lo.toNat : Int) ≤ f.toNat + step.toInt → (f.toNat : Int) + step.toInt ≤ hi.toNat →
      ((advance f step lo hi).toNat : Int) = f.toNat + step.toInt) ∧
    lo.toNat ≤ (advance f step lo hi).toNat ∧ (advance f step lo hi).toNat ≤ hi.toNat

/-- `TICK` (45_engine_control.md R341): while the scan is open the frequency advances; otherwise an armed timer is
retired; an unarmed timer has no tick, and one presented is dropped (60_exceptions.md R373). -/
def Obligations.TickAdvancesTheFrequency : Prop :=
  ∀ s : State,
    (s.eng.timerArmed = true → s.eng.seekActive = true → s.scan.scanning = true →
      exec .tick s = .next { s with
        eng := { s.eng with freq := advance s.eng.freq s.eng.seekStep s.eng.seekMin s.eng.seekMax }
        out := { s.out with
          fpq := s.out.fpq ++ [.setFreq (advance s.eng.freq s.eng.seekStep s.eng.seekMin s.eng.seekMax)]
          evq := s.out.evq ++ [.freqChanged (advance s.eng.freq s.eng.seekStep s.eng.seekMin s.eng.seekMax)] } }) ∧
    (s.eng.timerArmed = true → s.eng.seekActive = false ∨ s.scan.scanning = false →
      exec .tick s = .next { s with eng := { s.eng with timerArmed := false } }) ∧
    (s.eng.timerArmed = false → exec .tick s = .next s) ∧
    decodeOp [0x82000000#32] = .ok .tick

/-- `CANCELSEEK` (45_engine_control.md R343, R322; 42_rds_group_decoder.md R241; 43_station_scanner.md R261): with a
seek active the pre-seek frequency is restored; without one only OK is answered. -/
def Obligations.CancelseekRestoresTheFrequency : Prop :=
  ∀ s : State,
    (s.eng.seekActive = true → exec .cancelseek s = .next { s with
      eng := { s.eng with freq := s.eng.seekPre, seekActive := false, timerArmed := false }
      scan := { s.scan with scanning := false, cand := [] }
      rds := { s.rds with pi := none, label := [], labelMask := 0#4, text := [], textMask := 0#16 }
      out := { s.out with
        fpq := s.out.fpq ++ [.setFreq s.eng.seekPre]
        evq := s.out.evq ++ [.freqChanged s.eng.seekPre, .labelClear, .textClear]
        rsq := s.out.rsq ++ [okAt .cp] } }) ∧
    (s.eng.seekActive = false →
      exec .cancelseek s = .next { s with out := { s.out with rsq := s.out.rsq ++ [okAt .cp] } }) ∧
    decodeOp [0x13000000#32] = .ok .cancelseek

/-- `FREQCHG` (45_engine_control.md R346): the frequency and one event; no FP request, no RDS reset. -/
def Obligations.FreqchgFollowsTheSource : Prop :=
  ∀ (s : State) (f : Word),
    exec (.freqchg f) s = .next { s with
      eng := { s.eng with freq := f }, out := { s.out with evq := s.out.evq ++ [.freqChanged f] } } ∧
    decodeOp [0x84000000#32, f] = .ok (.freqchg f)

/-! ## SCAN -/

/-- `SCANSTART` and `SCANSTOP` (43_station_scanner.md R260, R261): a session opens, replacing any open one; it closes,
dropping its candidates. No port accepts them (30_encoding.md R128). `SCANSTART` with a threshold that is an infinity
or a NaN is refused and changes nothing else (R140), in the form of log entries 9 and 23. -/
def Obligations.ScanSessionOpensAndCloses : Prop :=
  (∀ (s : State) (thr token : Word), f32Finite thr = true → exec (.scanstart thr token) s = .next { s with
    scan := { s.scan with scanning := true, threshold := f32Real thr, token := token, blkIdx := 0, cand := [] } }) ∧
  (∀ (s : State) (thr token : Word), f32Finite thr = false → exec (.scanstart thr token) s = .next { s with
    out := { s.out with rsq := s.out.rsq ++ [⟨.inside, none, .errArg, [], []⟩] } }) ∧
  (∀ s : State, exec .scanstop s = .next { s with scan := { s.scan with scanning := false, cand := [] } }) ∧
  (∀ thr token : Word, f32Finite thr = true → decodeOp [0x91000000#32, thr, token] = .ok (.scanstart thr token)) ∧
  decodeOp [0x92000000#32] = .ok .scanstop ∧
  ∀ p : Port, p ≠ .inside → portAccepts p 0x91000000#32 = false ∧ portAccepts p 0x92000000#32 = false

/-- `SCANQ` (43_station_scanner.md R262) answers whether a scan is active and changes nothing else. The answer's form, a
response on the internal path with 1 for true and 0 for false, is the model's own (log entry 9). -/
def Obligations.ScanqAnswersScanning : Prop :=
  ∀ s : State, exec .scanq s = .next { s with out := { s.out with
    rsq := s.out.rsq ++ [⟨.inside, none, .ok, [if s.scan.scanning then 1#32 else 0#32], []⟩] } }

/-- `SCANFEED` within a block (43_station_scanner.md R263): the sample is stored at `BLK_IDX`, every other element of
the block reads as before, and the index advances; with no scan active nothing happens. With an infinity or a NaN it is
dropped and changes nothing (60_exceptions.md R373; on the internal path by log entry 23). -/
def Obligations.ScanfeedStoresTheSample : Prop :=
  (∀ (s : State) (i q : Word), f32Finite i = false ∨ f32Finite q = false → exec (.scanfeed i q) s = .next s) ∧
  ∀ (s : State) (i q : Word), f32Finite i = true → f32Finite q = true → Memory.wf Cplx.zero s.scan.blk = true →
    (s.scan.scanning = false → exec (.scanfeed i q) s = .next s) ∧
    (s.scan.scanning = true → s.scan.blkIdx + 1 ≠ s.params.nFft →
      ∃ t, exec (.scanfeed i q) s = .next t ∧
        blockAt t.scan.blk s.scan.blkIdx = f32Sample i q ∧
        (∀ a, a ≠ s.scan.blkIdx → blockAt t.scan.blk a = blockAt s.scan.blk a) ∧
        t = { s with scan := { s.scan with blk := t.scan.blk, blkIdx := s.scan.blkIdx + 1 } })

/-- The end of a block (43_station_scanner.md R263, R264, R267, R268; 45_engine_control.md R344): strictly above the
threshold the current frequency accumulates; at or below it, with candidates, the scan finishes with one STATION_FOUND
and the frequency stays; with none nothing happens. -/
def Obligations.BlockEndThreeWay : Prop :=
  ∀ (s : State) (i q : Word), f32Finite i = true → f32Finite q = true →
    s.scan.scanning = true → s.scan.blkIdx + 1 = s.params.nFft →
    (s.scan.threshold.toReal < (ratioDb s.params (blockWith s (f32Sample i q))).toReal →
      exec (.scanfeed i q) s = .next { s with scan := { s.scan with
        blk := blockWith s (f32Sample i q), blkIdx := 0,
        cand := accumulate s.params s.eng.freq (ratioDb s.params (blockWith s (f32Sample i q))) s.scan.cand } }) ∧
    ((ratioDb s.params (blockWith s (f32Sample i q))).toReal ≤ s.scan.threshold.toReal → s.scan.cand ≠ [] →
      exec (.scanfeed i q) s = .next { s with
        scan := { s.scan with blk := blockWith s (f32Sample i q), blkIdx := 0, cand := [], scanning := false }
        eng := { s.eng with timerArmed := false, seekActive := false }
        out := { s.out with evq := s.out.evq ++ [.stationFound (winner s.params s.scan.cand) s.scan.token] } }) ∧
    ((ratioDb s.params (blockWith s (f32Sample i q))).toReal ≤ s.scan.threshold.toReal → s.scan.cand = [] →
      exec (.scanfeed i q) s = .next { s with
        scan := { s.scan with blk := blockWith s (f32Sample i q), blkIdx := 0 } })

/-- `Accumulate` (43_station_scanner.md R267), with exact arithmetic (R12): the last candidate alone is compared. -/
def Obligations.AccumulateComparesTheLast : Prop :=
  ∀ (c : Config) (f : Word) (r : RNum), c.rnd = .exact →
    accumulate c f r [] = [⟨f, r, 1⟩] ∧
    ∀ (l : List Candidate) (x : Candidate),
      (x.freq = f → ∃ y, accumulate c f r (l ++ [x]) = l ++ [y] ∧ y.freq = f ∧
        y.sum.toReal = x.sum.toReal + r.toReal ∧ y.count = x.count + 1) ∧
      (x.freq ≠ f → accumulate c f r (l ++ [x]) = l ++ [x] ++ [⟨f, r, 1⟩])

/-- The winner of `Finish` (43_station_scanner.md R268): the middle candidate; of two middle ones the later only if its
average is higher; the averages with exact arithmetic (R12). -/
def Obligations.WinnerIsTheMiddle : Prop :=
  ∀ (c : Config) (cand : List Candidate), cand ≠ [] →
    (cand.length % 2 = 1 → winner c cand = (cand.getD ((cand.length - 1) / 2) default).freq) ∧
    (cand.length % 2 = 0 →
      winner c cand =
        if (averageAt c cand (cand.length / 2 - 1)).toReal < (averageAt c cand (cand.length / 2)).toReal
        then (cand.getD (cand.length / 2) default).freq else (cand.getD (cand.length / 2 - 1) default).freq) ∧
    (c.rnd = .exact → ∀ k, (averageAt c cand k).toReal = (cand.getD k default).sum.toReal / (cand.getD k default).count)

/-- The transform (43_station_scanner.md R265), with exact arithmetic (R12): bin `k` is `Σ BLK[n] · exp(-2πi·k·n /
N_FFT)`. -/
def Obligations.DftIsTheTransform : Prop :=
  ∀ (c : Config) (blk : List (Nat × Cplx)) (k : Nat), c.rnd = .exact →
    (dftBin c blk k).re.toReal = ((List.range c.nFft).map fun n =>
      (blockAt blk n).re.toReal * Real.cos (2 * Real.pi * k * n / c.nFft) +
      (blockAt blk n).im.toReal * Real.sin (2 * Real.pi * k * n / c.nFft)).sum ∧
    (dftBin c blk k).im.toReal = ((List.range c.nFft).map fun n =>
      (blockAt blk n).im.toReal * Real.cos (2 * Real.pi * k * n / c.nFft) -
      (blockAt blk n).re.toReal * Real.sin (2 * Real.pi * k * n / c.nFft)).sum

/-- `ratioDb` with the reference `LogMag` and exact arithmetic (43_station_scanner.md R264, R265, R266; R12): the
difference of the two logarithms, each of a mean magnitude not below `LOG_FLOOR`; and the bins of the two means, each
listed once. -/
def Obligations.RatioIsADifferenceOfLogs : Prop :=
  (∀ (c : Config) (blk : List (Nat × Cplx)), c.logMag = .reference → c.rnd = .exact →
    (ratioDb c blk).toReal =
      20 * Real.logb 10 (max (meanMagnitude c blk (sigBins c)).toReal c.logFloor.toReal) -
      20 * Real.logb 10 (max (meanMagnitude c blk (noiseBins c)).toReal c.logFloor.toReal) ∧
    ∀ bins : List Nat, (meanMagnitude c blk bins).toReal =
      (bins.map fun k => Real.sqrt ((dftBin c blk k).re.toReal ^ 2 + (dftBin c blk k).im.toReal ^ 2)).sum / bins.length) ∧
  (∀ (c : Config) (k : Nat),
    (k ∈ sigBins c ↔ ∃ j, c.sigLo ≤ j ∧ j ≤ c.sigHi ∧ (k = j ∨ k = c.nFft - j)) ∧
    (k ∈ noiseBins c ↔ ∃ j, c.noiseLo ≤ j ∧ j ≤ c.noiseHi ∧ (k = c.nFft / 2 - j ∨ k = c.nFft / 2 + j))) ∧
  (∀ c : Config, Config.sizesOk c = true → (sigBins c).Nodup ∧ (noiseBins c).Nodup)

/-! ## ARB -/

/-- `WRITE` (44_audio_ring_buffer.md R290): the oldest samples that fit are stored from `WR` on, wrapping at
`ARB_CAP`; every other element of STORE reads as before; the count stored is returned. An odd count is refused with
ERR_ARG; an even one with a sample that is an infinity or a NaN is dropped (60_exceptions.md R373; the odd count first
is the model's choice, log entry 23, and so is the form of the answers, log entry 9). -/
def Obligations.WriteStoresWhatFits : Prop :=
  (∀ (s : State) (ws : List Word),
    (ws.length % 2 = 1 → exec (.write ws) s = .next { s with
      out := { s.out with rsq := s.out.rsq ++ [⟨.inside, none, .errArg, [], []⟩] } }) ∧
    (ws.length % 2 = 0 → ws.all f32Finite = false → exec (.write ws) s = .next s)) ∧
  ∀ (s : State) (ws : List Word), Config.sizesOk s.params = true → ArbInv s.params s.arb →
    ws.all f32Finite = true → ws.length % 2 = 0 →
    ∃ t, exec (.write ws) s = .next t ∧
      (∀ k (hk : k < ws.length), k < s.params.arbCap - s.arb.occ →
        sampleAt t.arb.store ((s.arb.wr + k) % s.params.arbCap) = f32Real ws[k]) ∧
      (∀ a, (∀ k, k < ws.length → k < s.params.arbCap - s.arb.occ → a ≠ (s.arb.wr + k) % s.params.arbCap) →
        sampleAt t.arb.store a = sampleAt s.arb.store a) ∧
      t = { s with
        arb := { s.arb with
          store := t.arb.store
          wr := (s.arb.wr + min ws.length (s.params.arbCap - s.arb.occ)) % s.params.arbCap
          occ := s.arb.occ + min ws.length (s.params.arbCap - s.arb.occ) }
        out := { s.out with rsq := s.out.rsq ++
          [⟨.inside, none, .ok, [BitVec.ofNat 32 (min ws.length (s.params.arbCap - s.arb.occ))], []⟩] } }

/-- `READ` by an idle reader (44_audio_ring_buffer.md R291, R292): no frames asked, no frames given; data present, the
oldest frames, as many as there are up to what was asked, in order; none present, the reader blocks without a response.
A reader id out of range, and a second `READ` of a reader whose read is outstanding, are refused with ERR_ARG and change
nothing else (60_exceptions.md R373). -/
def Obligations.ReadDeliversTheOldestFrames : Prop :=
  (∀ (s : State) (r : BitVec 16) (frames : Word), ¬ validReader s r ∨ s.arb.reader r ≠ .idle →
    exec (.read r frames) s = .next { s with
      out := { s.out with rsq := s.out.rsq ++ [⟨.ap, none, .errArg, [], []⟩] } }) ∧
  ∀ (s : State) (r : BitVec 16) (frames : Word), validReader s r → s.arb.reader r = .idle →
    (frames = 0#32 → exec (.read r frames) s = .next { s with
      out := { s.out with rsq := s.out.rsq ++ [⟨.ap, some r, .ok, [0#32], []⟩] } }) ∧
    (frames ≠ 0#32 → 0 < s.arb.occ → exec (.read r frames) s = .next { s with
      arb := { s.arb with
        rd := (s.arb.rd + 2 * min frames.toNat (s.arb.occ / 2)) % s.params.arbCap
        occ := s.arb.occ - 2 * min frames.toNat (s.arb.occ / 2) }
      out := { s.out with rsq := s.out.rsq ++
        [⟨.ap, some r, .ok, [BitVec.ofNat 32 (min frames.toNat (s.arb.occ / 2))],
          (List.range (2 * min frames.toNat (s.arb.occ / 2))).map fun k =>
            sampleAt s.arb.store ((s.arb.rd + k) % s.params.arbCap)⟩] } }) ∧
    (frames ≠ 0#32 → s.arb.occ = 0 → exec (.read r frames) s = .next { s with
      arb := { s.arb with readers := s.arb.readers.set r.toNat (.blocked frames) } }) ∧
    decodeOp [header 0x40#8 r, frames] = .ok (.read r frames)

/-- What is written to an empty buffer is read back, whole frames in order (44_audio_ring_buffer.md R290, R291, R292,
R299). -/
def Obligations.WrittenFramesAreReadBack : Prop :=
  ∀ (s t : State) (ws : List Word) (r : BitVec 16) (frames : Word),
    Config.sizesOk s.params = true → ArbInv s.params s.arb → s.arb.occ = 0 → validReader s r → s.arb.reader r = .idle →
    ws.all f32Finite = true → ws.length % 2 = 0 → 0 < ws.length → ws.length ≤ s.params.arbCap →
    ws.length ≤ 2 * frames.toNat → exec (.write ws) s = .next t →
    ∃ u, exec (.read r frames) t = .next u ∧ u.arb.occ = 0 ∧
      u.out.rsq = t.out.rsq ++ [⟨.ap, some r, .ok, [BitVec.ofNat 32 (ws.length / 2)], ws.map f32Real⟩]

/-- `WAKE` (44_audio_ring_buffer.md R293, R294): a blocked read gets the data, a cancelled one the CANCELLED result and
no data; otherwise the step is not enabled and is dropped, and a reader id out of range is refused with ERR_ARG
(60_exceptions.md R373). -/
def Obligations.WakeEndsAnOutstandingRead : Prop :=
  (∀ (s : State) (r : BitVec 16), ¬ validReader s r → exec (.wake r) s = .next { s with
    out := { s.out with rsq := s.out.rsq ++ [⟨.ap, none, .errArg, [], []⟩] } }) ∧
  ∀ (s : State) (r : BitVec 16), validReader s r →
    (∀ n, s.arb.reader r = .blocked n → 0 < s.arb.occ → exec (.wake r) s = .next { s with
      arb := { s.arb with
        readers := s.arb.readers.set r.toNat .idle
        rd := (s.arb.rd + 2 * min n.toNat (s.arb.occ / 2)) % s.params.arbCap
        occ := s.arb.occ - 2 * min n.toNat (s.arb.occ / 2) }
      out := { s.out with rsq := s.out.rsq ++
        [⟨.ap, some r, .ok, [BitVec.ofNat 32 (min n.toNat (s.arb.occ / 2))],
          (List.range (2 * min n.toNat (s.arb.occ / 2))).map fun k =>
            sampleAt s.arb.store ((s.arb.rd + k) % s.params.arbCap)⟩] } }) ∧
    (s.arb.reader r = .cancelled → exec (.wake r) s = .next { s with
      arb := { s.arb with readers := s.arb.readers.set r.toNat .idle }
      out := { s.out with rsq := s.out.rsq ++ [⟨.ap, some r, .cancelled, [], []⟩] } }) ∧
    (∀ n, s.arb.reader r = .blocked n → s.arb.occ = 0 → exec (.wake r) s = .next s) ∧
    (s.arb.reader r = .idle → exec (.wake r) s = .next s) ∧
    decodeOp [header 0x85#8 r] = .ok (.wake r)

/-- `TIMEOUT` (44_audio_ring_buffer.md R296): a read blocked on an empty buffer ends with OK and no frames; otherwise
the step is not enabled and is dropped (60_exceptions.md R373). A reader id out of range is refused, at port TK, which
carries no response: nothing changes. -/
def Obligations.TimeoutEndsABlockedRead : Prop :=
  (∀ (s : State) (r : BitVec 16), ¬ validReader s r → exec (.timeout r) s = .next s) ∧
  ∀ (s : State) (r : BitVec 16), validReader s r →
    (∀ n, s.arb.reader r = .blocked n → s.arb.occ = 0 → exec (.timeout r) s = .next { s with
      arb := { s.arb with readers := s.arb.readers.set r.toNat .idle }
      out := { s.out with rsq := s.out.rsq ++ [⟨.ap, some r, .ok, [0#32], []⟩] } }) ∧
    (∀ n, s.arb.reader r = .blocked n → 0 < s.arb.occ → exec (.timeout r) s = .next s) ∧
    (s.arb.reader r = .idle ∨ s.arb.reader r = .cancelled → exec (.timeout r) s = .next s) ∧
    decodeOp [header 0x83#8 r] = .ok (.timeout r)

/-- `CANCEL` (44_audio_ring_buffer.md R295): every blocked reader becomes cancelled, no other changes, and a second
`CANCEL` changes no reader. That the response goes to the port the operation arrived on, CP or AP, is the model's
inference (log entry 24). -/
def Obligations.CancelMarksBlockedReaders : Prop :=
  ∀ s : State, ∃ t, exec .cancel s = .next t ∧
    t.arb.readers.length = s.arb.readers.length ∧
    (∀ r : BitVec 16, (∀ n, s.arb.reader r = .blocked n → t.arb.reader r = .cancelled) ∧
      (s.arb.reader r = .idle → t.arb.reader r = .idle) ∧
      (s.arb.reader r = .cancelled → t.arb.reader r = .cancelled)) ∧
    t = { s with
      arb := { s.arb with readers := t.arb.readers }
      out := { s.out with rsq := s.out.rsq ++ [okAt (if s.port = .cp then .cp else .ap)] } } ∧
    (∀ u, exec .cancel t = .next u → u.arb = t.arb) ∧
    decodeOp [0x42000000#32] = .ok .cancel ∧ ∀ p : Port, portAccepts p 0x42000000#32 = true ↔ p = .cp ∨ p = .ap

/-- `WAITING` and `FLUSH` (44_audio_ring_buffer.md R297, R298): the frames there are, and none left; STORE keeps its
contents and blocked readers stay blocked. The port that answers `FLUSH` and the count word modulo 2^32 are the model's
inferences (log entries 24 and 14). -/
def Obligations.WaitingCountsAndFlushEmpties : Prop :=
  ∀ s : State,
    exec .waiting s = .next { s with
      out := { s.out with rsq := s.out.rsq ++ [⟨.ap, none, .ok, [BitVec.ofNat 32 (s.arb.occ / 2)], []⟩] } } ∧
    exec .flush s = .next { s with
      arb := { s.arb with rd := s.arb.wr, occ := 0 }
      out := { s.out with rsq := s.out.rsq ++ [okAt (if s.port = .cp then .cp else .ap)] } } ∧
    decodeOp [0x41000000#32] = .ok .waiting ∧ decodeOp [0x43000000#32] = .ok .flush ∧
    ∀ p : Port, portAccepts p 0x43000000#32 = true ↔ p = .cp ∨ p = .ap

/-! ## RDS -/

/-- `GROUP` runs its four blocks as the 64-bit group `A ++ B ++ C ++ D` (30_encoding.md R130 to R135;
42_rds_group_decoder.md R231, R234): it completes, in the state the group's own rule gives. A group row taken on its
own, gated and checked as inside `GROUP`, is the model's form (log entries 7 and 21). -/
def Obligations.GroupRunsItsType : Prop :=
  ∀ (s : State) (ab cd : Word), ∃ t, exec (.group ab cd) s = .next t ∧ exec (decodeGroup (ab ++ cd)) s = .next t

/-- With the RDS mode OFF a group changes nothing (42_rds_group_decoder.md R231). Outside RUNNING R231's step is not
enabled, and that a group presented then is dropped and changes nothing is the model's inference (log entry 12), as is
that a group row taken on its own is gated like `GROUP` (log entry 21). -/
def Obligations.GroupsAreGated : Prop :=
  ∀ (s : State) (g : BitVec 64), ¬ GroupsOn s → exec (decodeGroup g) s = .next s

/-- B versions, the unlisted types and group 8A, accepted or not (42_rds_group_decoder.md R233, R239, R240): with their
PI already tracked they change nothing. -/
def Obligations.IgnoredGroupsChangeNothing : Prop :=
  ∀ (s : State) (pi : Block) (tp : BitVec 1) (pty rest : BitVec 5) (c d : Block), GroupsOn s → s.rds.pi = some pi →
    (∀ gtype, exec (.rdsGB pi gtype tp pty rest c d) s = .next s) ∧
    exec (.rdsG1A pi tp pty rest c d) s = .next s ∧ exec (.rdsG3A pi tp pty rest c d) s = .next s ∧
    exec (.rdsG5A pi tp pty rest c d) s = .next s ∧ exec (.rdsG6A pi tp pty rest c d) s = .next s ∧
    exec (.rdsG7A pi tp pty rest c d) s = .next s ∧ exec (.rdsG9A pi tp pty rest c d) s = .next s ∧
    exec (.rdsG10A pi tp pty rest c d) s = .next s ∧ exec (.rdsG11A pi tp pty rest c d) s = .next s ∧
    exec (.rdsG12A pi tp pty rest c d) s = .next s ∧ exec (.rdsG13A pi tp pty rest c d) s = .next s ∧
    exec (.rdsG14A pi tp pty rest c d) s = .next s ∧ exec (.rdsG15A pi tp pty rest c d) s = .next s ∧
    (∀ (t f : BitVec 1) (dp : BitVec 3) (x y : BitVec 1) (extent : BitVec 3) (event : BitVec 11) (location : BitVec 16),
      exec (.rdsG8A pi tp pty t f dp x y extent event location) s = .next s)

/-- `PiCheck` comes first for every group (42_rds_group_decoder.md R232): a group with a new PI does what it would do
once both buffers are spaces, both masks 0, the PI adopted and LABEL_CLEAR and TEXT_CLEAR emitted; LAST_AB and the
clock are kept. -/
def Obligations.NewPiClearsFirst : Prop :=
  ∀ (s : State) (g : BitVec 64), GroupsOn s → s.rds.pi ≠ some (gPi g) →
    exec (decodeGroup g) s = exec (decodeGroup g) { s with
      rds := { s.rds with pi := some (gPi g), label := [], labelMask := 0#4, text := [], textMask := 0#16 }
      out := { s.out with evq := s.out.evq ++ [.labelClear, .textClear] } } ∧
    ∀ a, charAt [] a = 0x20#8

/-- Group 0A with its PI tracked (42_rds_group_decoder.md R235): the two characters, the change event, the mask that
segment 0 restarts, and completion. -/
def Obligations.LabelSegmentIsStored : Prop :=
  ∀ (s : State) (pi : Block) (tp : BitVec 1) (pty : BitVec 5) (taMsDi : BitVec 3) (idx : BitVec 2) (af : Block)
    (c0 c1 : Byte), GroupsOn s → s.rds.pi = some pi → Memory.wf 0x20#8 s.rds.label = true →
    ∃ t, exec (.rdsG0A pi tp pty taMsDi idx af c0 c1) s = .next t ∧
      charAt t.rds.label (2 * idx.toNat) = c0 ∧ charAt t.rds.label (2 * idx.toNat + 1) = c1 ∧
      (∀ a, a ≠ 2 * idx.toNat → a ≠ 2 * idx.toNat + 1 → charAt t.rds.label a = charAt s.rds.label a) ∧
      t.rds.labelMask =
        (if (if idx = 0#2 then 0#4 else s.rds.labelMask) ||| (1#4 <<< idx.toNat) = 0xF#4 then 0#4
         else (if idx = 0#2 then 0#4 else s.rds.labelMask) ||| (1#4 <<< idx.toNat)) ∧
      t.out.evq = s.out.evq ++
        (if charAt s.rds.label (2 * idx.toNat) = c0 ∧ charAt s.rds.label (2 * idx.toNat + 1) = c1 then []
         else [.labelChange t.rds.labelChars]) ++
        (if (if idx = 0#2 then 0#4 else s.rds.labelMask) ||| (1#4 <<< idx.toNat) = 0xF#4
         then [.labelComplete t.rds.labelChars] else []) ∧
      t = { s with
        rds := { s.rds with label := t.rds.label, labelMask := t.rds.labelMask }
        out := { s.out with evq := t.out.evq } }

/-- Group 2A with its PI tracked (42_rds_group_decoder.md R236): `txt` is the buffer with the fragment written, on
spaces after an A/B flip; the change event always; with a terminator or the sixteenth fragment the completion event, and
then spaces and an empty mask. -/
def Obligations.TextFragmentIsStored : Prop :=
  ∀ (s : State) (pi : Block) (tp : BitVec 1) (pty : BitVec 5) (ab : BitVec 1) (idx : BitVec 4) (t0 t1 t2 t3 : Byte)
    (flipped : Bool) (mask : BitVec 16) (complete : Bool),
    GroupsOn s → s.rds.pi = some pi → Memory.wf 0x20#8 s.rds.text = true →
    flipped = decide (s.rds.lastAb = some (!ab.getLsbD 0)) →
    mask = (if flipped then 0#16 else s.rds.textMask) ||| (1#16 <<< idx.toNat) →
    complete = (decide (t0 = s.params.textEnd) || decide (t1 = s.params.textEnd) || decide (t2 = s.params.textEnd) ||
      decide (t3 = s.params.textEnd) || decide (mask = 0xFFFF#16)) →
    ∃ t txt, exec (.rdsG2A pi tp pty ab idx t0 t1 t2 t3) s = .next t ∧
      charAt txt (4 * idx.toNat) = t0 ∧ charAt txt (4 * idx.toNat + 1) = t1 ∧
      charAt txt (4 * idx.toNat + 2) = t2 ∧ charAt txt (4 * idx.toNat + 3) = t3 ∧
      (∀ a, a < 4 * idx.toNat ∨ 4 * idx.toNat + 4 ≤ a →
        charAt txt a = if flipped then 0x20#8 else charAt s.rds.text a) ∧
      (∀ a, charAt t.rds.text a = if complete then 0x20#8 else charAt txt a) ∧
      t.rds.textMask = (if complete then 0#16 else mask) ∧
      t.rds.lastAb = some (ab.getLsbD 0) ∧
      t.out.evq = s.out.evq ++ (if flipped then [.textClear] else []) ++
        [.textChange ((List.range 64).map (charAt txt))] ++
        (if complete then [.textComplete ((List.range 64).map (charAt txt))] else []) ∧
      t = { s with
        rds := { s.rds with text := t.rds.text, textMask := t.rds.textMask, lastAb := t.rds.lastAb }
        out := { s.out with evq := t.out.evq } }

/-- Group 4A with its PI tracked (42_rds_group_decoder.md R238, R237): the day always, the hour and the minute each only
in its range; no event. -/
def Obligations.ClockFieldsAreStored : Prop :=
  ∀ (s : State) (pi : Block) (tp : BitVec 1) (pty : BitVec 5) (spare : BitVec 3) (day : BitVec 17) (hour : BitVec 5)
    (minute offset : BitVec 6), GroupsOn s → s.rds.pi = some pi →
    exec (.rdsG4A pi tp pty spare day hour minute offset) s = .next { s with
      rds := { s.rds with
        clkDay := day
        clkHour := if hour.toNat ≤ 23 then hour else s.rds.clkHour
        clkMin := if minute.toNat ≤ 59 then minute else s.rds.clkMin } }

/-- `RDSRESET` (42_rds_group_decoder.md R241): spaces, empty masks, no PI, the two clear events; LAST_AB and the clock
are kept, whatever the RDS mode and the engine's state. -/
def Obligations.RdsresetClearsTheUnit : Prop :=
  ∀ s : State,
    exec .rdsreset s = .next { s with
      rds := { s.rds with pi := none, label := [], labelMask := 0#4, text := [], textMask := 0#16 }
      out := { s.out with evq := s.out.evq ++ [.labelClear, .textClear] } } ∧
    (∀ a, charAt [] a = 0x20#8) ∧ decodeOp [0x95000000#32] = .ok .rdsreset ∧
    ∀ p : Port, p ≠ .inside → portAccepts p 0x95000000#32 = false

/-- Four label segments 0 to 3 in turn (42_rds_group_decoder.md R242, from R235): exactly one LABEL_COMPLETE, with the
concatenation. -/
def Obligations.FourSegmentsCompleteTheLabel : Prop :=
  ∀ (s : State) (pi af : Block) (tp : BitVec 1) (pty : BitVec 5) (x : BitVec 3) (a b c d e f g h : Byte),
    GroupsOn s → s.rds.pi = some pi → Memory.wf 0x20#8 s.rds.label = true →
    ∃ t1 t2 t3 t4,
      exec (.rdsG0A pi tp pty x 0#2 af a b) s = .next t1 ∧ exec (.rdsG0A pi tp pty x 1#2 af c d) t1 = .next t2 ∧
      exec (.rdsG0A pi tp pty x 2#2 af e f) t2 = .next t3 ∧ exec (.rdsG0A pi tp pty x 3#2 af g h) t3 = .next t4 ∧
      t4.rds.labelChars = [a, b, c, d, e, f, g, h] ∧ t4.rds.labelMask = 0#4 ∧
      t4.out.evq.filter Event.isLabelComplete =
        s.out.evq.filter Event.isLabelComplete ++ [.labelComplete [a, b, c, d, e, f, g, h]]

/-- One group appends at most five events (42_rds_group_decoder.md R242). -/
def Obligations.GroupEmitsAtMostFive : Prop :=
  ∀ (s t : State) (ab cd : Word), exec (.group ab cd) s = .next t →
    ∃ es, t.out.evq = s.out.evq ++ es ∧ es.length ≤ 5

/-! ## DEMOD -/

/-- `SAMPLE` that completes no decimation stage (41_demodulator.md R170, R173): the delay line takes the sample, newest
first, the phase counts on, and nothing else changes. A sample with an infinity or a NaN is dropped (60_exceptions.md
R373). While not RUNNING the step does not exist (R170), and that one presented is dropped and changes nothing is the
model's inference (log entry 12). -/
def Obligations.SampleWithinTheDecimation : Prop :=
  (∀ (s : State) (i q : Word), s.eng.run ≠ .running ∨ f32Finite i = false ∨ f32Finite q = false →
    exec (.sample i q) s = .next s) ∧
  ∀ (s : State) (i q : Word), f32Finite i = true → f32Finite q = true → s.eng.run = .running →
    (s.dem.inPh + 1) % s.params.rIn ≠ 0 →
    exec (.sample i q) s = .next { s with dem := { s.dem with
      inDl := (f32Sample i q :: s.dem.inDl).take s.params.hIn.length
      inPh := (s.dem.inPh + 1) % s.params.rIn } }

/-- `SAMPLE` while RUNNING completes, and leaves the configuration registers, the RDS registers, the frequency, the
engine's state, the read side of the ring buffer, its readers, the FP requests and the responses as they were
(41_demodulator.md R170, R172, R190). STORE reads as before outside the samples `WRITE` stores from `WR` on, BLK outside
`BLK_IDX`; with no scan active SCAN, ENG and EVQ are unchanged; at most one event and one RB record are appended. -/
def Obligations.SampleCompletesAndItsFrame : Prop :=
  ∀ (s : State) (i q : Word), f32Finite i = true → f32Finite q = true → s.eng.run = .running →
    ∃ t, exec (.sample i q) s = .next t ∧
      t.params = s.params ∧ t.cr = s.cr ∧ t.rds = s.rds ∧
      t.eng = { s.eng with timerArmed := t.eng.timerArmed, seekActive := t.eng.seekActive } ∧
      t.arb = { s.arb with store := t.arb.store, wr := t.arb.wr, occ := t.arb.occ } ∧
      t.scan.threshold = s.scan.threshold ∧ t.scan.token = s.scan.token ∧
      t.out.fpq = s.out.fpq ∧ t.out.rsq = s.out.rsq ∧ t.inq = s.inq ∧ t.port = s.port ∧
      (Memory.wf (.rat 0) s.arb.store = true →
        ∀ a, (∀ k, k < writeCount s.params s.arb 2 → a ≠ (s.arb.wr + k) % s.params.arbCap) →
          sampleAt t.arb.store a = sampleAt s.arb.store a) ∧
      (Memory.wf Cplx.zero s.scan.blk = true →
        ∀ a, a ≠ s.scan.blkIdx → blockAt t.scan.blk a = blockAt s.scan.blk a) ∧
      (s.scan.scanning = false → t.scan = s.scan ∧ t.eng = s.eng ∧ t.out.evq = s.out.evq) ∧
      (∃ es, t.out.evq = s.out.evq ++ es ∧ es.length ≤ 1) ∧ (∃ rs, t.out.rbq = s.out.rbq ++ rs ∧ rs.length ≤ 1)

/-- An FM-rate sample (41_demodulator.md R172 to R176): while a scan is active the scanner gets the sample filtered
and scaled by `ATT`, SCAN, ENG and EVQ are those `SCANFEED` of it gives (43_station_scanner.md R263), and the
demodulator runs on zero: its memory is zero and, with exact arithmetic (R12), the peak has not grown. With no scan
active SCAN, ENG and EVQ are unchanged and the memory is the filtered sample, with exact arithmetic times `ATT`. Stage
4 is `PeakTrack` of the magnitude of what the demodulator sees. The input delay line takes the sample, newest first,
and its phase is 0 (R173). -/
def Obligations.ScanningSilencesTheDemodulator : Prop :=
  ∀ (s t : State) (i q : Word), f32Finite i = true → f32Finite q = true → s.eng.run = .running →
    (s.dem.inPh + 1) % s.params.rIn = 0 → exec (.sample i q) s = .next t →
    (s.scan.scanning = true → t.dem.zPrev = Cplx.zero ∧
      (s.params.rnd = .exact → 0 ≤ s.dem.peak.toReal → t.dem.peak.toReal ≤ s.dem.peak.toReal) ∧
      t.scan = (scanFeed (scaledSample s i q) s).scan ∧ t.eng = (scanFeed (scaledSample s i q) s).eng ∧
      t.out.evq = (scanFeed (scaledSample s i q) s).out.evq) ∧
    (s.scan.scanning = false → t.dem.zPrev = scaledSample s i q ∧
      t.scan = s.scan ∧ t.eng = s.eng ∧ t.out.evq = s.out.evq ∧
      (s.params.rnd = .exact →
        t.dem.zPrev.re.toReal = s.cr.att.toNat *
          (firCplx s.params s.params.hIn ((f32Sample i q :: s.dem.inDl).take s.params.hIn.length)).re.toReal ∧
        t.dem.zPrev.im.toReal = s.cr.att.toNat *
          (firCplx s.params s.params.hIn ((f32Sample i q :: s.dem.inDl).take s.params.hIn.length)).im.toReal)) ∧
    (t.dem.inDl = (f32Sample i q :: s.dem.inDl).take s.params.hIn.length ∧ t.dem.inPh = 0) ∧
    (∀ u, u = peakTrack s.params ((demodSample s i q).abs s.params) s.dem →
      t.dem.peak = u.peak ∧ t.dem.peakCnt = u.peakCnt ∧ t.dem.gainAvg = u.gainAvg) ∧
    (∀ x y : Word, f32Finite x = true → f32Finite y = true →
      exec (.scanfeed x y) s = .next (scanFeed (f32Sample x y) s))

/-- A FIR is `Σ H[k] · dl[k]` (41_demodulator.md R173, R188), with exact arithmetic (R12). -/
def Obligations.FirIsTheDotProduct : Prop :=
  ∀ c : Config, c.rnd = .exact →
  (∀ (h xs : List RNum), (firReal c h xs).toReal = ((h.zip xs).map fun p => p.1.toReal * p.2.toReal).sum) ∧
  (∀ (h : List RNum) (xs : List Cplx),
    (firCplx c h xs).re.toReal = ((h.zip xs).map fun p => p.1.toReal * p.2.re.toReal).sum ∧
    (firCplx c h xs).im.toReal = ((h.zip xs).map fun p => p.1.toReal * p.2.im.toReal).sum) ∧
  (∀ (h : List RNum) (xs : List Frame),
    (firFrame c h xs).l.toReal = ((h.zip xs).map fun p => p.1.toReal * p.2.l.toReal).sum ∧
    (firFrame c h xs).r.toReal = ((h.zip xs).map fun p => p.1.toReal * p.2.r.toReal).sum)

/-- `PeakTrack` and `GainUpdate` (41_demodulator.md R176, R177): the running peak is the larger of the two, the count
goes up by one, and exactly when it reaches `PEAK_WINDOW` the gain is updated; with exact arithmetic (R12) to the
moving average with the target from the peak, floored, a zero peak giving the floor; PEAK and PEAK_CNT restart at 0.
-/
def Obligations.GainFollowsThePeak : Prop :=
  ∀ c : Config,
    (∀ (a : RNum) (u v : Demod), v = { u with peak := RNum.max u.peak a, peakCnt := u.peakCnt + 1 } →
      v.peak.toReal = max u.peak.toReal a.toReal ∧
      (u.peakCnt + 1 ≠ (c.peakWindow : Nat) → peakTrack c a u = v) ∧
      (u.peakCnt + 1 = (c.peakWindow : Nat) → peakTrack c a u = gainUpdate c v)) ∧
    (∀ u : Demod,
      gainUpdate c u = { u with gainAvg := (gainUpdate c u).gainAvg, peak := .rat 0, peakCnt := 0 } ∧
      (c.rnd = .exact →
        (gainUpdate c u).gainAvg.toReal = c.emaOld.toReal * u.gainAvg.toReal + c.emaNew.toReal *
          max (if 0 < u.peak.toReal then c.maxDev.toReal / c.normDev.toReal / u.peak.toReal else c.gainFloor.toReal)
            c.gainFloor.toReal))

/-- With exact arithmetic (R12), once at or above `GAIN_FLOOR` the gain never falls below it (41_demodulator.md R177),
whatever sample arrives. -/
def Obligations.GainNeverFallsBelowTheFloor : Prop :=
  ∀ (s t : State) (i q : Word), RealParams s.params → s.params.rnd = .exact →
    s.params.gainFloor.toReal ≤ s.dem.gainAvg.toReal →
    exec (.sample i q) s = .next t → s.params.gainFloor.toReal ≤ t.dem.gainAvg.toReal

/-- `STEREO_ACTIVE` (41_demodulator.md R181), with exact arithmetic (R12): MODE is STEREO and the pilot is strictly
above the margin, on the tracker's state after this sample; and the step and the state after reset of the reference
tracker (R201). That these hold also outside R201's ranges (two filters of unlike lengths, LEVEL_GAMMA, the PLL gains
and bounds), where construction accepts the machine, is the model's choice (log entry 26). -/
def Obligations.StereoNeedsThePilot : Prop :=
  (∀ (c : Config) (cr : ControlRegs) (v : Cplx) (u : Demod), c.rnd = .exact →
    ((demodulate c cr v u).1.stereoActive = true ↔
      cr.mode = .stereo ∧ pilotAbove c (demodulate c cr v u).1.pt)) ∧
  ∀ c : Config, c.rnd = .exact → c.pilot = .reference →
    (∀ (pt t : PilotState) (d : RNum) (dl : List RNum) (p q e : ℝ),
      t = pilotStep c pt d → dl = (d :: pt.dl).take c.hPilot.length →
      p = (firReal c c.hPilot dl).toReal → q = (firReal c c.hNoise dl).toReal → e = -p * Real.sin pt.phi.toReal →
      t.dl = dl ∧ t.pl.toReal = pt.pl.toReal + c.levelGamma.toReal * (|p| - pt.pl.toReal) ∧
      t.nl.toReal = pt.nl.toReal + c.levelGamma.toReal * (|q| - pt.nl.toReal) ∧
      t.omega.toReal = min c.omegaMax.toReal (max c.omegaMin.toReal (pt.omega.toReal + c.pllBeta.toReal * e)) ∧
      (0 ≤ t.phi.toReal ∧ t.phi.toReal < 2 * Real.pi ∧
        ∃ k : Int, t.phi.toReal = pt.phi.toReal + t.omega.toReal + c.pllAlpha.toReal * e - 2 * Real.pi * k) ∧
      pilotLevel c t = t.pl ∧ noiseFloor c t = t.nl ∧ pilotPhase c t = t.phi) ∧
    (pilotInit c = ⟨List.replicate c.hPilot.length (.rat 0), .rat 0, .rat 0, .rat 0, omega0 c⟩ ∧
      (omega0 c).toReal = 2 * Real.pi * c.pilotFreq.toReal / c.fmRate)

/-- The reference discriminator (41_demodulator.md R200, R178), with exact arithmetic (R12): 0 for a zero sample, else
the cross product over `K · |z|²`; `K = 8π · DELTA_F / FM_RATE`; and it is the stage's `FmDemod` (R179) where the
reference is instantiated. -/
def Obligations.DiscriminatorFormula : Prop :=
  ∀ c : Config, c.rnd = .exact → (scaleK c).toReal = 8 * Real.pi * c.deltaF.toReal / c.fmRate ∧
  (∀ z zp : Cplx, c.fmDemod = .reference → fmDemod c z zp = refFmDemod c (scaleK c) z zp) ∧
  (∀ (k : RNum) (z zp : Cplx),
    (refFmDemod c k z zp).toReal = if z.re.toReal ^ 2 + z.im.toReal ^ 2 = 0 then 0 else
      (zp.re.toReal * z.im.toReal - zp.im.toReal * z.re.toReal) / (k.toReal * (z.re.toReal ^ 2 + z.im.toReal ^ 2)))

/-- De-emphasis (41_demodulator.md R185), with exact arithmetic (R12): the time constant each setting selects, 1 µs,
50 µs and 75 µs by default; `0 < alpha < 1` for a positive time constant, and a constant input `x` is approached as `x
· (1 - (1 - alpha) ^ n)` from 0. -/
def Obligations.DeemphasisApproachesItsInput : Prop :=
  (∀ c : Config, deemphTau c .flat = c.tauFlat ∧ deemphTau c .t50 = c.tau50 ∧ deemphTau c .t75 = c.tau75) ∧
  ((deemphTau {} .flat).toReal = 1 / 1000000 ∧ (deemphTau {} .t50).toReal = 50 / 1000000 ∧
    (deemphTau {} .t75).toReal = 75 / 1000000) ∧
  (∀ (c : Config) (d : Deemph), c.rnd = .exact → 0 < c.fmRate → 0 < (deemphTau c d).toReal →
    0 < (deemphAlpha c d).toReal ∧ (deemphAlpha c d).toReal < 1 ∧
    (deemphAlpha c d).toReal = 1 / (c.fmRate * (deemphTau c d).toReal + 1)) ∧
  (∀ (c : Config) (alpha x : RNum) (n : Nat), c.rnd = .exact →
    ((deemphStep c alpha · x)^[n] (.rat 0)).toReal = x.toReal * (1 - (1 - alpha.toReal) ^ n))

/-- The output pair (41_demodulator.md R182 to R184, R186): with exact arithmetic (R12) the channel matrix and the mixed
L-R signal; stereo decode de-emphasises L+R and L-R and puts them through the matrix, mono decode de-emphasises the
signal, bypasses the matrix and leaves `DE_D`. -/
def Obligations.MatrixPairs : Prop :=
  (∀ (c : Config) (s d : RNum), c.rnd = .exact →
    ((matrix c .stereo s d).l.toReal = s.toReal + d.toReal ∧
      (matrix c .stereo s d).r.toReal = -(-s.toReal + d.toReal)) ∧
    ((matrix c .left s d).l.toReal = s.toReal + d.toReal ∧ (matrix c .left s d).r.toReal = s.toReal + d.toReal) ∧
    ((matrix c .right s d).l.toReal = -(-s.toReal + d.toReal) ∧
      (matrix c .right s d).r.toReal = -(-s.toReal + d.toReal)) ∧
    ((matrix c .sum s d).l.toReal = s.toReal ∧ (matrix c .sum s d).r.toReal = s.toReal) ∧
    ((matrix c .diff s d).l.toReal = d.toReal ∧ (matrix c .diff s d).r.toReal = d.toReal)) ∧
  (∀ (c : Config) (pt : PilotState) (d : RNum), c.rnd = .exact →
    (diffRaw c pt d).toReal =
      c.gDiff.toReal * Real.cos (2 * ((pilotPhase c pt).toReal + c.pilotDelay.toReal)) * d.toReal) ∧
  (∀ (c : Config) (cr : ControlRegs) (d deS deD : RNum) (u : Demod), u.stereoActive = true →
    deS = deemphStep c (deemphAlpha c cr.deemph) u.deS d →
    deD = deemphStep c (deemphAlpha c cr.deemph) u.deD (diffRaw c u.pt d) →
    decodePair c cr d u = ({ u with deS := deS, deD := deD }, matrix c cr.chan deS deD)) ∧
  (∀ (c : Config) (cr : ControlRegs) (d deS : RNum) (u : Demod), u.stereoActive = false →
    deS = deemphStep c (deemphAlpha c cr.deemph) u.deS d →
    decodePair c cr d u = ({ u with deS := deS }, ⟨deS, deS⟩))

/-- Squelch (41_demodulator.md R189): enabled and strictly above the level mutes, anything else passes; and the step and
the state after reset of the reference meter (R202), with exact arithmetic (R12). That these hold also for a SQ_GAMMA
outside R202's range is the model's choice (log entry 26). -/
def Obligations.SquelchMutesStrictlyAbove : Prop :=
  (∀ (c : Config) (cr : ControlRegs) (u : Demod) (f : Frame),
    squelch c cr u f = if cr.sqEn = true ∧ cr.sqLevel.toReal < (noiseLevel c u.nm).toReal then Frame.zero else f) ∧
  ∀ c : Config, c.rnd = .exact → c.noise = .reference →
    (∀ (nm t : NoiseState) (d : RNum), t = noiseStep c nm d →
      t.dl = (d :: nm.dl).take c.hSq.length ∧
      t.lvl.toReal = nm.lvl.toReal + c.sqGamma.toReal * (|(firReal c c.hSq t.dl).toReal| - nm.lvl.toReal) ∧
      noiseLevel c t = t.lvl) ∧
    noiseInit c = ⟨List.replicate c.hSq.length (.rat 0), .rat 0⟩

/-- Stages 5 to 8 of an FM-rate sample (41_demodulator.md R179 to R190): the discriminator's signal `d` steps the noise
meter and the pilot tracker, is de-emphasised and decoded to the output pair, which enters the audio line times
`GAIN_AVG`; every `R_AUD`-th FM-rate sample, and no other, writes one frame to the ring buffer: the filtered audio line,
silence if squelched, left sample first; a full buffer drops it. -/
def Obligations.FrameOnEveryAudioPeriod : Prop :=
  ∀ (s t : State) (i q : Word), f32Finite i = true → f32Finite q = true → s.eng.run = .running →
    (s.dem.inPh + 1) % s.params.rIn = 0 → exec (.sample i q) s = .next t →
    (∀ (d alpha : RNum) (pair : Frame), d = fmDemod s.params (demodSample s i q) s.dem.zPrev →
      alpha = deemphAlpha s.params s.cr.deemph →
      pair = (if t.dem.stereoActive then matrix s.params s.cr.chan t.dem.deS t.dem.deD else ⟨t.dem.deS, t.dem.deS⟩) →
      t.dem.nm = noiseStep s.params s.dem.nm d ∧ t.dem.pt = pilotStep s.params s.dem.pt d ∧
      t.dem.stereoActive = stereoSelected s.cr.mode
        (pilotFound s.params (pilotLevel s.params t.dem.pt) (noiseFloor s.params t.dem.pt)) ∧
      t.dem.deS = deemphStep s.params alpha s.dem.deS d ∧
      t.dem.deD = (if t.dem.stereoActive then deemphStep s.params alpha s.dem.deD (diffRaw s.params t.dem.pt d)
        else s.dem.deD) ∧
      t.dem.audDl = (Frame.smul s.params t.dem.gainAvg pair :: s.dem.audDl).take s.params.hAud.length) ∧
    t.dem.audPh = (s.dem.audPh + 1) % s.params.rAud ∧
    ((s.dem.audPh + 1) % s.params.rAud ≠ 0 → t.arb = s.arb) ∧
    ((s.dem.audPh + 1) % s.params.rAud = 0 → ∀ f,
      f = squelch s.params s.cr t.dem (firFrame s.params s.params.hAud t.dem.audDl) →
      t.arb = arbWrite s.params [f.l, f.r] s.arb)

/-- The RDS front end (41_demodulator.md R191, R192): with the RDS mode OFF it is neither stepped nor heard; otherwise
it is stepped with the selected decode, the discriminator's signal and three times the mixer's phase, and every
`R_RDS`-th call (R8: the 8th by default), and no other, appends its value as one record, marked with the mode. And the
step and the state after reset of the reference front end (R203), with exact arithmetic (R12). That these hold also for
an `L_H` that is not odd, which R203 excludes and construction accepts, with element `(L_H - 1) / 2` rounded down, and 0
for an empty H_HILB, is the model's choice (log entry 26). -/
def Obligations.RecordOnEveryEighthCall : Prop :=
  (∀ (s t : State) (i q : Word), f32Finite i = true → f32Finite q = true → s.eng.run = .running →
    (s.dem.inPh + 1) % s.params.rIn = 0 → exec (.sample i q) s = .next t →
    (({} : Config).rRds : Nat) = 8 ∧
    (s.cr.rdsMode = .off → t.out.rbq = s.out.rbq ∧ t.dem.rf = s.dem.rf) ∧
    (s.cr.rdsMode ≠ .off → ∀ (d : RNum) (x : FrontState × Option Cplx),
      d = fmDemod s.params (demodSample s i q) s.dem.zPrev →
      x = frontStep s.params s.dem.rf t.dem.stereoActive d
        (s.params.mul (.rat 3) (s.params.add (pilotPhase s.params t.dem.pt) s.params.pilotDelay)) →
      t.dem.rf = x.1 ∧ t.dem.rf.rdsPh = (s.dem.rf.rdsPh + 1) % s.params.rRds ∧
      ((s.dem.rf.rdsPh + 1) % s.params.rRds ≠ 0 → t.out.rbq = s.out.rbq) ∧
      ((s.dem.rf.rdsPh + 1) % s.params.rRds = 0 →
        ∃ b, x.2 = some b ∧ t.out.rbq = s.out.rbq ++ [⟨s.cr.rdsMode, b⟩]))) ∧
  ∀ c : Config, c.rnd = .exact → c.front = .reference →
    (∀ (rf t : FrontState) (stereo : Bool) (d psi : RNum) (y : Option Cplx) (b a : Cplx),
      frontStep c rf stereo d psi = (t, y) → b = t.dlr.headD Cplx.zero → 1 ≤ c.hRds.length →
      a = ⟨t.dlh.getD ((c.hHilb.length - 1) / 2) (.rat 0), firReal c c.hHilb t.dlh⟩ →
      t.dlh = (d :: rf.dlh).take c.hHilb.length ∧
      (0 ≤ t.nco.toReal ∧ t.nco.toReal < 2 * Real.pi ∧
        ∃ k : Int, t.nco.toReal =
          rf.nco.toReal + 2 * Real.pi * 3 * c.pilotFreq.toReal / c.fmRate - 2 * Real.pi * k) ∧
      (stereo = true → b.re.toReal = d.toReal * Real.cos psi.toReal ∧ b.im.toReal = -d.toReal * Real.sin psi.toReal) ∧
      (stereo = false →
        b.re.toReal = a.re.toReal * Real.cos t.nco.toReal + a.im.toReal * Real.sin t.nco.toReal ∧
        b.im.toReal = a.im.toReal * Real.cos t.nco.toReal - a.re.toReal * Real.sin t.nco.toReal) ∧
      t.dlr = (b :: rf.dlr).take c.hRds.length ∧
      y = (if t.rdsPh = 0 then some (firCplx c c.hRds t.dlr) else none)) ∧
    frontInit c = ⟨List.replicate c.hHilb.length (.rat 0), .rat 0, List.replicate c.hRds.length Cplx.zero, 0⟩

end
end

