-- ==== Sys2Proof/Laws/Memory.lean ====
section
/-! SUPPORT. Laws/Memory.lean: the laws of the address spaces (20_memory.md R80 to R85), and that every operation keeps
their canonical form (log entry 19). -/

namespace Sys2Proof.Machine

variable {α : Type} [DecidableEq α] {fill : α}

/-- Every listed address lies above `a`. -/
def Above (a : Nat) (m : List (Nat × α)) : Prop := ∀ e ∈ m, a < e.1

theorem wf_cons {e : Nat × α} {m : List (Nat × α)} :
    Memory.wf fill (e :: m) = true ↔ e.2 ≠ fill ∧ Above e.1 m ∧ Memory.wf fill m = true := by
  induction m generalizing e with
  | nil => simp [Memory.wf, Above]
  | cons f m ih =>
    simp only [Memory.wf, Bool.and_eq_true, decide_eq_true_eq, ih, Above, List.mem_cons, forall_eq_or_imp]
    constructor
    · rintro ⟨⟨h1, h2⟩, h3, h4, h5⟩
      exact ⟨h1, ⟨h2, fun x hx => h2.trans (h4 x hx)⟩, h3, h4, h5⟩
    · rintro ⟨h1, ⟨h2, -⟩, h3, h4, h5⟩
      exact ⟨⟨h1, h2⟩, h3, h4, h5⟩

/-- A listed element after a write was listed before or is the written one. -/
theorem mem_write {m : List (Nat × α)} {a : Nat} {v : α} {e : Nat × α} (h : e ∈ Memory.write fill m a v) :
    e ∈ m ∨ e = (a, v) := by
  induction m with
  | nil => simp only [Memory.write] at h; split at h <;> simp_all
  | cons f m ih =>
    simp only [Memory.write] at h
    split at h
    · split at h <;> simp_all
      tauto
    · split at h
      · split at h <;> simp_all
        tauto
      · simp only [List.mem_cons] at h ⊢
        tauto

theorem wf_write {m : List (Nat × α)} (hm : Memory.wf fill m = true) (a : Nat) (v : α) :
    Memory.wf fill (Memory.write fill m a v) = true := by
  induction m with
  | nil => simp only [Memory.write]; split <;> simp_all [Memory.wf]
  | cons f m ih =>
    obtain ⟨h1, h2, h3⟩ := wf_cons.mp hm
    simp only [Memory.write]
    split
    · next hlt =>
      split
      · exact hm
      · next hv =>
        refine wf_cons.mpr ⟨hv, ?_, hm⟩
        intro e he
        rcases List.mem_cons.mp he with rfl | he
        · exact hlt
        · exact hlt.trans (h2 e he)
    · split
      · next heq =>
        split
        · exact h3
        · next hv => exact wf_cons.mpr ⟨hv, heq ▸ h2, h3⟩
      · next hne =>
        refine wf_cons.mpr ⟨h1, ?_, ih h3⟩
        intro e he
        rcases mem_write he with he | rfl
        · exact h2 e he
        · simp only; omega

omit [DecidableEq α] in
theorem read_of_above {m : List (Nat × α)} {a b : Nat} (h : Above b m) (hab : a ≤ b) : Memory.read fill m a = fill := by
  induction m with
  | nil => rfl
  | cons e m ih =>
    have h1 : b < e.1 := h e (by simp)
    rw [Memory.read, if_neg (by omega)]
    exact ih fun x hx => h x (by simp [hx])

/-- A read after a write to the same address gives the value written. -/
theorem read_write_same {m : List (Nat × α)} (hm : Memory.wf fill m = true) (a : Nat) (v : α) :
    Memory.read fill (Memory.write fill m a v) a = v := by
  induction m with
  | nil => simp only [Memory.write]; split <;> simp_all [Memory.read]
  | cons f m ih =>
    obtain ⟨h1, h2, h3⟩ := wf_cons.mp hm
    simp only [Memory.write]
    split
    · next hlt =>
      split
      · next hv =>
        rw [Memory.read, if_neg (by omega), hv]
        exact read_of_above h2 (by omega)
      · simp [Memory.read]
    · split
      · next heq =>
        split
        · next hv => rw [hv]; exact read_of_above h2 (by omega)
        · simp [Memory.read]
      · next hne => rw [Memory.read, if_neg (by omega)]; exact ih h3

/-- A write leaves every other address as it was. -/
theorem read_write_other {m : List (Nat × α)} (hm : Memory.wf fill m = true) {a b : Nat} (hab : b ≠ a) (v : α) :
    Memory.read fill (Memory.write fill m a v) b = Memory.read fill m b := by
  induction m with
  | nil => simp only [Memory.write]; split <;> simp [Memory.read, hab.symm]
  | cons f m ih =>
    obtain ⟨h1, h2, h3⟩ := wf_cons.mp hm
    simp only [Memory.write]
    split
    · split
      · rfl
      · rw [Memory.read, if_neg hab.symm]
    · split
      · next heq =>
        split
        · rw [Memory.read, if_neg (by omega)]
        · simp only [Memory.read]
          rw [if_neg hab.symm, if_neg (by omega)]
      · simp only [Memory.read]
        split
        · rfl
        · exact ih h3

theorem read_write {m : List (Nat × α)} (hm : Memory.wf fill m = true) (a b : Nat) (v : α) :
    Memory.read fill (Memory.write fill m a v) b = if b = a then v else Memory.read fill m b := by
  split
  · next h => rw [h]; exact read_write_same hm a v
  · next h => exact read_write_other hm h v

theorem spaceOk_nil (size : Nat) : SpaceOk fill size ([] : List (Nat × α)) := ⟨rfl, by simp⟩

theorem spaceOk_write {size : Nat} {m : List (Nat × α)} (hm : SpaceOk fill size m) {a : Nat} (ha : a < size) (v : α) :
    SpaceOk fill size (Memory.write fill m a v) := by
  refine ⟨wf_write hm.1 a v, fun e he => ?_⟩
  rcases mem_write he with h | rfl
  · exact hm.2 e h
  · exact ha

theorem spaceOk_writeWrap {cap : Nat} (hc : 0 < cap) {m : List (Nat × α)} (hm : SpaceOk fill cap m) (a : Nat) (vs : List α) :
    SpaceOk fill cap (Memory.writeWrap fill cap m a vs) := by
  induction vs generalizing m a with
  | nil => exact hm
  | cons v vs ih => exact ih (spaceOk_write hm (Nat.mod_lt _ hc) v) _

theorem spaceOk_writeList {size : Nat} {m : List (Nat × α)} (hm : SpaceOk fill size m) (a : Nat) (vs : List α)
    (ha : a + vs.length ≤ size) : SpaceOk fill size (Memory.writeList fill m a vs) := by
  induction vs generalizing m a with
  | nil => exact hm
  | cons v vs ih =>
    simp only [List.length_cons] at ha
    exact ih (spaceOk_write hm (by omega) v) _ (by omega)

theorem wf_writeWrap {cap : Nat} {m : List (Nat × α)} (hm : Memory.wf fill m = true) (a : Nat) (vs : List α) :
    Memory.wf fill (Memory.writeWrap fill cap m a vs) = true := by
  induction vs generalizing m a with
  | nil => exact hm
  | cons v vs ih => exact ih (wf_write hm _ v) _

theorem wf_writeList {m : List (Nat × α)} (hm : Memory.wf fill m = true) (a : Nat) (vs : List α) :
    Memory.wf fill (Memory.writeList fill m a vs) = true := by
  induction vs generalizing m a with
  | nil => exact hm
  | cons v vs ih => exact ih (wf_write hm _ v) _

/-- A write of a list leaves every address outside it as it was. -/
theorem read_writeList_other {m : List (Nat × α)} (hm : Memory.wf fill m = true) {a b : Nat} (vs : List α)
    (hb : b < a ∨ a + vs.length ≤ b) : Memory.read fill (Memory.writeList fill m a vs) b = Memory.read fill m b := by
  induction vs generalizing m a with
  | nil => rfl
  | cons v vs ih =>
    simp only [List.length_cons] at hb
    rw [Memory.writeList, ih (wf_write hm _ v) (by omega), read_write_other hm (by omega)]

/-- A write of a list is read back element by element. -/
theorem read_writeList_at {m : List (Nat × α)} (hm : Memory.wf fill m = true) {a : Nat} (vs : List α) {k : Nat}
    (hk : k < vs.length) : Memory.read fill (Memory.writeList fill m a vs) (a + k) = vs[k] := by
  induction vs generalizing m a k with
  | nil => cases hk
  | cons v vs ih =>
    rw [Memory.writeList]
    cases k with
    | zero => rw [read_writeList_other (wf_write hm _ v) vs (by omega), Nat.add_zero, read_write_same hm]; rfl
    | succ k =>
      have := ih (wf_write hm a v) (a := a + 1) (k := k) (by simpa using hk)
      rw [show a + (k + 1) = a + 1 + k by omega, this]
      rfl

/-- A wrapped write of at most `cap` elements leaves the addresses it does not reach as they were. -/
theorem read_writeWrap_other {cap : Nat} {m : List (Nat × α)} (hm : Memory.wf fill m = true) {a b : Nat} (vs : List α)
    (hb : ∀ k < vs.length, b ≠ (a + k) % cap) :
    Memory.read fill (Memory.writeWrap fill cap m a vs) b = Memory.read fill m b := by
  induction vs generalizing m a with
  | nil => rfl
  | cons v vs ih =>
    have h0 : b ≠ a % cap := by simpa using hb 0 (by simp)
    rw [Memory.writeWrap, ih (wf_write hm _ v), read_write_other hm h0]
    intro k hk
    have := hb (k + 1) (by simpa using hk)
    rwa [show a + 1 + k = a + (k + 1) by omega]

/-- A wrapped write of at most `cap` elements is read back element by element. -/
theorem read_writeWrap_at {cap : Nat} {m : List (Nat × α)} (hm : Memory.wf fill m = true) {a : Nat}
    (vs : List α) (hl : vs.length ≤ cap) {k : Nat} (hk : k < vs.length) :
    Memory.read fill (Memory.writeWrap fill cap m a vs) ((a + k) % cap) = vs[k] := by
  induction vs generalizing m a k with
  | nil => cases hk
  | cons v vs ih =>
    rw [Memory.writeWrap]
    simp only [List.length_cons] at hl hk
    cases k with
    | zero =>
      rw [read_writeWrap_other (wf_write hm _ v), Nat.add_zero, read_write_same hm]
      · rfl
      · intro j hj h
        have h1 : (a + 0) ≡ (a + 1 + j) [MOD cap] := h
        have h2 : 0 ≡ 1 + j [MOD cap] := Nat.ModEq.add_left_cancel' a (by rwa [Nat.add_assoc] at h1)
        have h3 := (Nat.modEq_zero_iff_dvd.mp h2.symm)
        have := Nat.le_of_dvd (by omega) h3
        omega
    | succ k =>
      have := ih (wf_write hm (a % cap) v) (a := a + 1) (by omega) (k := k) (by omega)
      rw [show a + (k + 1) = a + 1 + k by omega, this]
      rfl

end Sys2Proof.Machine
end

