-- ==== Sys2Proof/Laws/State.lean ====
section
/-! SUPPORT. Laws/State.lean: one lemma per field per update, so that no proof unfolds a record update. -/

namespace Sys2Proof.Machine

@[simp] theorem withCr_params (s : State) (u : ControlRegs) : (s.withCr u).params = s.params := rfl
@[simp] theorem withCr_cr (s : State) (u : ControlRegs) : (s.withCr u).cr = u := rfl
@[simp] theorem withCr_dem (s : State) (u : ControlRegs) : (s.withCr u).dem = s.dem := rfl
@[simp] theorem withCr_rds (s : State) (u : ControlRegs) : (s.withCr u).rds = s.rds := rfl
@[simp] theorem withCr_scan (s : State) (u : ControlRegs) : (s.withCr u).scan = s.scan := rfl
@[simp] theorem withCr_arb (s : State) (u : ControlRegs) : (s.withCr u).arb = s.arb := rfl
@[simp] theorem withCr_eng (s : State) (u : ControlRegs) : (s.withCr u).eng = s.eng := rfl
@[simp] theorem withCr_out (s : State) (u : ControlRegs) : (s.withCr u).out = s.out := rfl
@[simp] theorem withCr_inq (s : State) (u : ControlRegs) : (s.withCr u).inq = s.inq := rfl
@[simp] theorem withCr_port (s : State) (u : ControlRegs) : (s.withCr u).port = s.port := rfl

@[simp] theorem withDem_params (s : State) (u : Demod) : (s.withDem u).params = s.params := rfl
@[simp] theorem withDem_cr (s : State) (u : Demod) : (s.withDem u).cr = s.cr := rfl
@[simp] theorem withDem_dem (s : State) (u : Demod) : (s.withDem u).dem = u := rfl
@[simp] theorem withDem_rds (s : State) (u : Demod) : (s.withDem u).rds = s.rds := rfl
@[simp] theorem withDem_scan (s : State) (u : Demod) : (s.withDem u).scan = s.scan := rfl
@[simp] theorem withDem_arb (s : State) (u : Demod) : (s.withDem u).arb = s.arb := rfl
@[simp] theorem withDem_eng (s : State) (u : Demod) : (s.withDem u).eng = s.eng := rfl
@[simp] theorem withDem_out (s : State) (u : Demod) : (s.withDem u).out = s.out := rfl
@[simp] theorem withDem_inq (s : State) (u : Demod) : (s.withDem u).inq = s.inq := rfl
@[simp] theorem withDem_port (s : State) (u : Demod) : (s.withDem u).port = s.port := rfl

@[simp] theorem withRds_params (s : State) (u : Rds) : (s.withRds u).params = s.params := rfl
@[simp] theorem withRds_cr (s : State) (u : Rds) : (s.withRds u).cr = s.cr := rfl
@[simp] theorem withRds_dem (s : State) (u : Rds) : (s.withRds u).dem = s.dem := rfl
@[simp] theorem withRds_rds (s : State) (u : Rds) : (s.withRds u).rds = u := rfl
@[simp] theorem withRds_scan (s : State) (u : Rds) : (s.withRds u).scan = s.scan := rfl
@[simp] theorem withRds_arb (s : State) (u : Rds) : (s.withRds u).arb = s.arb := rfl
@[simp] theorem withRds_eng (s : State) (u : Rds) : (s.withRds u).eng = s.eng := rfl
@[simp] theorem withRds_out (s : State) (u : Rds) : (s.withRds u).out = s.out := rfl
@[simp] theorem withRds_inq (s : State) (u : Rds) : (s.withRds u).inq = s.inq := rfl
@[simp] theorem withRds_port (s : State) (u : Rds) : (s.withRds u).port = s.port := rfl

@[simp] theorem withScan_params (s : State) (u : Scan) : (s.withScan u).params = s.params := rfl
@[simp] theorem withScan_cr (s : State) (u : Scan) : (s.withScan u).cr = s.cr := rfl
@[simp] theorem withScan_dem (s : State) (u : Scan) : (s.withScan u).dem = s.dem := rfl
@[simp] theorem withScan_rds (s : State) (u : Scan) : (s.withScan u).rds = s.rds := rfl
@[simp] theorem withScan_scan (s : State) (u : Scan) : (s.withScan u).scan = u := rfl
@[simp] theorem withScan_arb (s : State) (u : Scan) : (s.withScan u).arb = s.arb := rfl
@[simp] theorem withScan_eng (s : State) (u : Scan) : (s.withScan u).eng = s.eng := rfl
@[simp] theorem withScan_out (s : State) (u : Scan) : (s.withScan u).out = s.out := rfl
@[simp] theorem withScan_inq (s : State) (u : Scan) : (s.withScan u).inq = s.inq := rfl
@[simp] theorem withScan_port (s : State) (u : Scan) : (s.withScan u).port = s.port := rfl

@[simp] theorem withArb_params (s : State) (u : Arb) : (s.withArb u).params = s.params := rfl
@[simp] theorem withArb_cr (s : State) (u : Arb) : (s.withArb u).cr = s.cr := rfl
@[simp] theorem withArb_dem (s : State) (u : Arb) : (s.withArb u).dem = s.dem := rfl
@[simp] theorem withArb_rds (s : State) (u : Arb) : (s.withArb u).rds = s.rds := rfl
@[simp] theorem withArb_scan (s : State) (u : Arb) : (s.withArb u).scan = s.scan := rfl
@[simp] theorem withArb_arb (s : State) (u : Arb) : (s.withArb u).arb = u := rfl
@[simp] theorem withArb_eng (s : State) (u : Arb) : (s.withArb u).eng = s.eng := rfl
@[simp] theorem withArb_out (s : State) (u : Arb) : (s.withArb u).out = s.out := rfl
@[simp] theorem withArb_inq (s : State) (u : Arb) : (s.withArb u).inq = s.inq := rfl
@[simp] theorem withArb_port (s : State) (u : Arb) : (s.withArb u).port = s.port := rfl

@[simp] theorem withEng_params (s : State) (u : Engine) : (s.withEng u).params = s.params := rfl
@[simp] theorem withEng_cr (s : State) (u : Engine) : (s.withEng u).cr = s.cr := rfl
@[simp] theorem withEng_dem (s : State) (u : Engine) : (s.withEng u).dem = s.dem := rfl
@[simp] theorem withEng_rds (s : State) (u : Engine) : (s.withEng u).rds = s.rds := rfl
@[simp] theorem withEng_scan (s : State) (u : Engine) : (s.withEng u).scan = s.scan := rfl
@[simp] theorem withEng_arb (s : State) (u : Engine) : (s.withEng u).arb = s.arb := rfl
@[simp] theorem withEng_eng (s : State) (u : Engine) : (s.withEng u).eng = u := rfl
@[simp] theorem withEng_out (s : State) (u : Engine) : (s.withEng u).out = s.out := rfl
@[simp] theorem withEng_inq (s : State) (u : Engine) : (s.withEng u).inq = s.inq := rfl
@[simp] theorem withEng_port (s : State) (u : Engine) : (s.withEng u).port = s.port := rfl

@[simp] theorem withOut_params (s : State) (u : Outputs) : (s.withOut u).params = s.params := rfl
@[simp] theorem withOut_cr (s : State) (u : Outputs) : (s.withOut u).cr = s.cr := rfl
@[simp] theorem withOut_dem (s : State) (u : Outputs) : (s.withOut u).dem = s.dem := rfl
@[simp] theorem withOut_rds (s : State) (u : Outputs) : (s.withOut u).rds = s.rds := rfl
@[simp] theorem withOut_scan (s : State) (u : Outputs) : (s.withOut u).scan = s.scan := rfl
@[simp] theorem withOut_arb (s : State) (u : Outputs) : (s.withOut u).arb = s.arb := rfl
@[simp] theorem withOut_eng (s : State) (u : Outputs) : (s.withOut u).eng = s.eng := rfl
@[simp] theorem withOut_out (s : State) (u : Outputs) : (s.withOut u).out = u := rfl
@[simp] theorem withOut_inq (s : State) (u : Outputs) : (s.withOut u).inq = s.inq := rfl
@[simp] theorem withOut_port (s : State) (u : Outputs) : (s.withOut u).port = s.port := rfl

@[simp] theorem emit_params (s : State) (es : List Event) : (s.emit es).params = s.params := rfl
@[simp] theorem emit_cr (s : State) (es : List Event) : (s.emit es).cr = s.cr := rfl
@[simp] theorem emit_dem (s : State) (es : List Event) : (s.emit es).dem = s.dem := rfl
@[simp] theorem emit_rds (s : State) (es : List Event) : (s.emit es).rds = s.rds := rfl
@[simp] theorem emit_scan (s : State) (es : List Event) : (s.emit es).scan = s.scan := rfl
@[simp] theorem emit_arb (s : State) (es : List Event) : (s.emit es).arb = s.arb := rfl
@[simp] theorem emit_eng (s : State) (es : List Event) : (s.emit es).eng = s.eng := rfl
@[simp] theorem emit_inq (s : State) (es : List Event) : (s.emit es).inq = s.inq := rfl
@[simp] theorem emit_port (s : State) (es : List Event) : (s.emit es).port = s.port := rfl
@[simp] theorem emit_evq (s : State) (es : List Event) : (s.emit es).out.evq = s.out.evq ++ es := rfl
@[simp] theorem emit_rbq (s : State) (es : List Event) : (s.emit es).out.rbq = s.out.rbq := rfl
@[simp] theorem emit_fpq (s : State) (es : List Event) : (s.emit es).out.fpq = s.out.fpq := rfl
@[simp] theorem emit_rsq (s : State) (es : List Event) : (s.emit es).out.rsq = s.out.rsq := rfl

@[simp] theorem request_params (s : State) (f : FpRequest) : (s.request f).params = s.params := rfl
@[simp] theorem request_cr (s : State) (f : FpRequest) : (s.request f).cr = s.cr := rfl
@[simp] theorem request_dem (s : State) (f : FpRequest) : (s.request f).dem = s.dem := rfl
@[simp] theorem request_rds (s : State) (f : FpRequest) : (s.request f).rds = s.rds := rfl
@[simp] theorem request_scan (s : State) (f : FpRequest) : (s.request f).scan = s.scan := rfl
@[simp] theorem request_arb (s : State) (f : FpRequest) : (s.request f).arb = s.arb := rfl
@[simp] theorem request_eng (s : State) (f : FpRequest) : (s.request f).eng = s.eng := rfl
@[simp] theorem request_inq (s : State) (f : FpRequest) : (s.request f).inq = s.inq := rfl
@[simp] theorem request_port (s : State) (f : FpRequest) : (s.request f).port = s.port := rfl
@[simp] theorem request_evq (s : State) (f : FpRequest) : (s.request f).out.evq = s.out.evq := rfl
@[simp] theorem request_rbq (s : State) (f : FpRequest) : (s.request f).out.rbq = s.out.rbq := rfl
@[simp] theorem request_fpq (s : State) (f : FpRequest) : (s.request f).out.fpq = s.out.fpq ++ [f] := rfl
@[simp] theorem request_rsq (s : State) (f : FpRequest) : (s.request f).out.rsq = s.out.rsq := rfl

@[simp] theorem record_params (s : State) (b : RbRecord) : (s.record b).params = s.params := rfl
@[simp] theorem record_cr (s : State) (b : RbRecord) : (s.record b).cr = s.cr := rfl
@[simp] theorem record_dem (s : State) (b : RbRecord) : (s.record b).dem = s.dem := rfl
@[simp] theorem record_rds (s : State) (b : RbRecord) : (s.record b).rds = s.rds := rfl
@[simp] theorem record_scan (s : State) (b : RbRecord) : (s.record b).scan = s.scan := rfl
@[simp] theorem record_arb (s : State) (b : RbRecord) : (s.record b).arb = s.arb := rfl
@[simp] theorem record_eng (s : State) (b : RbRecord) : (s.record b).eng = s.eng := rfl
@[simp] theorem record_inq (s : State) (b : RbRecord) : (s.record b).inq = s.inq := rfl
@[simp] theorem record_port (s : State) (b : RbRecord) : (s.record b).port = s.port := rfl
@[simp] theorem record_evq (s : State) (b : RbRecord) : (s.record b).out.evq = s.out.evq := rfl
@[simp] theorem record_rbq (s : State) (b : RbRecord) : (s.record b).out.rbq = s.out.rbq ++ [b] := rfl
@[simp] theorem record_fpq (s : State) (b : RbRecord) : (s.record b).out.fpq = s.out.fpq := rfl
@[simp] theorem record_rsq (s : State) (b : RbRecord) : (s.record b).out.rsq = s.out.rsq := rfl

@[simp] theorem respond_params (s : State) (r : Response) : (s.respond r).params = s.params := rfl
@[simp] theorem respond_cr (s : State) (r : Response) : (s.respond r).cr = s.cr := rfl
@[simp] theorem respond_dem (s : State) (r : Response) : (s.respond r).dem = s.dem := rfl
@[simp] theorem respond_rds (s : State) (r : Response) : (s.respond r).rds = s.rds := rfl
@[simp] theorem respond_scan (s : State) (r : Response) : (s.respond r).scan = s.scan := rfl
@[simp] theorem respond_arb (s : State) (r : Response) : (s.respond r).arb = s.arb := rfl
@[simp] theorem respond_eng (s : State) (r : Response) : (s.respond r).eng = s.eng := rfl
@[simp] theorem respond_inq (s : State) (r : Response) : (s.respond r).inq = s.inq := rfl
@[simp] theorem respond_port (s : State) (r : Response) : (s.respond r).port = s.port := rfl
@[simp] theorem respond_evq (s : State) (r : Response) : (s.respond r).out.evq = s.out.evq := rfl
@[simp] theorem respond_rbq (s : State) (r : Response) : (s.respond r).out.rbq = s.out.rbq := rfl
@[simp] theorem respond_fpq (s : State) (r : Response) : (s.respond r).out.fpq = s.out.fpq := rfl
@[simp] theorem respond_rsq (s : State) (r : Response) : (s.respond r).out.rsq = s.out.rsq ++ [r] := rfl

@[simp] theorem respondStatus_params (s : State) (p : Port) (st : Status) : (s.respondStatus p st).params = s.params := rfl
@[simp] theorem respondStatus_cr (s : State) (p : Port) (st : Status) : (s.respondStatus p st).cr = s.cr := rfl
@[simp] theorem respondStatus_dem (s : State) (p : Port) (st : Status) : (s.respondStatus p st).dem = s.dem := rfl
@[simp] theorem respondStatus_rds (s : State) (p : Port) (st : Status) : (s.respondStatus p st).rds = s.rds := rfl
@[simp] theorem respondStatus_scan (s : State) (p : Port) (st : Status) : (s.respondStatus p st).scan = s.scan := rfl
@[simp] theorem respondStatus_arb (s : State) (p : Port) (st : Status) : (s.respondStatus p st).arb = s.arb := rfl
@[simp] theorem respondStatus_eng (s : State) (p : Port) (st : Status) : (s.respondStatus p st).eng = s.eng := rfl
@[simp] theorem respondStatus_inq (s : State) (p : Port) (st : Status) : (s.respondStatus p st).inq = s.inq := rfl
@[simp] theorem respondStatus_port (s : State) (p : Port) (st : Status) : (s.respondStatus p st).port = s.port := rfl
@[simp] theorem respondStatus_evq (s : State) (p : Port) (st : Status) : (s.respondStatus p st).out.evq = s.out.evq := rfl
@[simp] theorem respondStatus_rbq (s : State) (p : Port) (st : Status) : (s.respondStatus p st).out.rbq = s.out.rbq := rfl
@[simp] theorem respondStatus_fpq (s : State) (p : Port) (st : Status) : (s.respondStatus p st).out.fpq = s.out.fpq := rfl
@[simp] theorem respondStatus_rsq (s : State) (p : Port) (st : Status) : (s.respondStatus p st).out.rsq = s.out.rsq ++ [⟨p, none, st, [], []⟩] := rfl

@[simp] theorem taken_params (s : State) (p : Port) (ds : List Delivery) : (s.taken p ds).params = s.params := rfl
@[simp] theorem taken_cr (s : State) (p : Port) (ds : List Delivery) : (s.taken p ds).cr = s.cr := rfl
@[simp] theorem taken_dem (s : State) (p : Port) (ds : List Delivery) : (s.taken p ds).dem = s.dem := rfl
@[simp] theorem taken_rds (s : State) (p : Port) (ds : List Delivery) : (s.taken p ds).rds = s.rds := rfl
@[simp] theorem taken_scan (s : State) (p : Port) (ds : List Delivery) : (s.taken p ds).scan = s.scan := rfl
@[simp] theorem taken_arb (s : State) (p : Port) (ds : List Delivery) : (s.taken p ds).arb = s.arb := rfl
@[simp] theorem taken_eng (s : State) (p : Port) (ds : List Delivery) : (s.taken p ds).eng = s.eng := rfl
@[simp] theorem taken_out (s : State) (p : Port) (ds : List Delivery) : (s.taken p ds).out = s.out := rfl
@[simp] theorem taken_inq (s : State) (p : Port) (ds : List Delivery) : (s.taken p ds).inq = ds := rfl
@[simp] theorem taken_port (s : State) (p : Port) (ds : List Delivery) : (s.taken p ds).port = p := rfl

@[simp] theorem setReader_readers (a : Arb) (r : BitVec 16) (v : Reader) :
    (a.setReader r v).readers = a.readers.set r.toNat v := rfl
@[simp] theorem setReader_store (a : Arb) (r : BitVec 16) (v : Reader) : (a.setReader r v).store = a.store := rfl
@[simp] theorem setReader_rd (a : Arb) (r : BitVec 16) (v : Reader) : (a.setReader r v).rd = a.rd := rfl
@[simp] theorem setReader_wr (a : Arb) (r : BitVec 16) (v : Reader) : (a.setReader r v).wr = a.wr := rfl
@[simp] theorem setReader_occ (a : Arb) (r : BitVec 16) (v : Reader) : (a.setReader r v).occ = a.occ := rfl

/-- A refusal adds at most one response and changes nothing else (60_exceptions.md R373). -/
theorem refuse_cases (s : State) (p : Port) (st : Status) :
    (portResponds p = true ∧ s.refuse p st = s.respondStatus p st) ∨ (portResponds p = false ∧ s.refuse p st = s) := by
  cases h : portResponds p <;> simp [State.refuse, h]

@[simp] theorem refuse_params (s : State) (p : Port) (st : Status) : (s.refuse p st).params = s.params := by
  unfold State.refuse; split <;> rfl
@[simp] theorem refuse_cr (s : State) (p : Port) (st : Status) : (s.refuse p st).cr = s.cr := by
  unfold State.refuse; split <;> rfl
@[simp] theorem refuse_dem (s : State) (p : Port) (st : Status) : (s.refuse p st).dem = s.dem := by
  unfold State.refuse; split <;> rfl
@[simp] theorem refuse_rds (s : State) (p : Port) (st : Status) : (s.refuse p st).rds = s.rds := by
  unfold State.refuse; split <;> rfl
@[simp] theorem refuse_scan (s : State) (p : Port) (st : Status) : (s.refuse p st).scan = s.scan := by
  unfold State.refuse; split <;> rfl
@[simp] theorem refuse_arb (s : State) (p : Port) (st : Status) : (s.refuse p st).arb = s.arb := by
  unfold State.refuse; split <;> rfl
@[simp] theorem refuse_eng (s : State) (p : Port) (st : Status) : (s.refuse p st).eng = s.eng := by
  unfold State.refuse; split <;> rfl
@[simp] theorem refuse_inq (s : State) (p : Port) (st : Status) : (s.refuse p st).inq = s.inq := by
  unfold State.refuse; split <;> rfl
@[simp] theorem refuse_port (s : State) (p : Port) (st : Status) : (s.refuse p st).port = s.port := by
  unfold State.refuse; split <;> rfl
@[simp] theorem refuse_evq (s : State) (p : Port) (st : Status) : (s.refuse p st).out.evq = s.out.evq := by
  unfold State.refuse; split <;> rfl
@[simp] theorem refuse_rbq (s : State) (p : Port) (st : Status) : (s.refuse p st).out.rbq = s.out.rbq := by
  unfold State.refuse; split <;> rfl
@[simp] theorem refuse_fpq (s : State) (p : Port) (st : Status) : (s.refuse p st).out.fpq = s.out.fpq := by
  unfold State.refuse; split <;> rfl

end Sys2Proof.Machine
end

