-- ==== Sys2Proof/Laws/Units.lean ====
section
/-! SUPPORT. Laws/Units.lean: what each shared operation of the units can do, and that it keeps the unit's part of R60. -/

namespace Sys2Proof.Machine

/-! ## Parameters -/

theorem ratesOk_cases {c : Config} (h : Config.ratesOk c = true) :
    0 < c.inputRate ∧ 0 < c.fmRate ∧ 0 < c.audioRate ∧ c.inputRate % c.fmRate = 0 ∧ c.fmRate % c.audioRate = 0 ∧
      2 ≤ c.fmRate := by
  simp only [Config.ratesOk, Bool.and_eq_true, decide_eq_true_eq] at h
  tauto

theorem sizesOk_cases {c : Config} (h : Config.sizesOk c = true) :
    c.arbCap % 2 = 0 ∧ 2 ≤ c.arbCap ∧ c.nFft % 2 = 0 ∧ 8 ≤ c.nFft ∧ 1 ≤ c.maxReaders ∧ 1 ≤ c.sigLo ∧ c.sigLo ≤ c.sigHi ∧
      1 ≤ c.noiseLo ∧ c.noiseLo ≤ c.noiseHi ∧ c.sigHi + c.noiseHi < c.nFft / 2 ∧ 1 ≤ c.hIn.length ∧ 1 ≤ c.hAud.length := by
  simp only [Config.sizesOk, Bool.and_eq_true, decide_eq_true_eq] at h
  tauto

theorem rIn_pos {c : Config} (h : Config.ratesOk c = true) : 0 < c.rIn := by
  obtain ⟨h1, h2, -, h3, -⟩ := ratesOk_cases h
  exact Nat.div_pos (Nat.le_of_dvd h1 (Nat.dvd_of_mod_eq_zero h3)) h2

theorem rAud_pos {c : Config} (h : Config.ratesOk c = true) : 0 < c.rAud := by
  obtain ⟨-, h1, h2, -, h3, -⟩ := ratesOk_cases h
  exact Nat.div_pos (Nat.le_of_dvd h1 (Nat.dvd_of_mod_eq_zero h3)) h2

/-- R8, R371: with rates that pass, the default window is `floor(FM_RATE / 2)`. -/
theorem defaultWindow {n : Nat} (h : 2 ≤ n) : ((n / 2).toPNat' : Nat) = n / 2 := by
  simp only [Nat.toPNat'_coe]
  split <;> omega

/-- R372: the checks on real parameters are those of the real numbers. -/
theorem realsOk_iff (c : Config) : Config.realsOk c = true ↔ RealParams c := by
  simp only [Config.realsOk, Bool.and_eq_true, lt_iff, eqv_iff, le_iff, toReal_add, toReal_rat, Rat.cast_zero,
    Rat.cast_one]
  exact ⟨fun ⟨⟨⟨⟨⟨⟨⟨h1, h2⟩, h3⟩, h4⟩, h5⟩, h6⟩, h7⟩, h8⟩ => ⟨h1, h2, h3, h4, h5, h6, h7, h8⟩,
    fun h => ⟨⟨⟨⟨⟨⟨⟨h.maxDev, h.normDev⟩, h.deltaF⟩, h.gainFloor⟩, h.emaSum⟩, h.emaOld⟩, h.emaNew⟩, h.logFloor⟩⟩

/-- R371, R372: construction succeeds exactly with a sample source and parameters that pass all checks. -/
theorem construct_ok_iff (c : Config) (b : Bool) (s : State) :
    construct c b = .ok s ↔ b = true ∧ ParamsOk c ∧ s = State.resetOf c := by
  have hp : ParamsOk c ↔ Config.ratesOk c = true ∧ Config.sizesOk c = true ∧ Config.realsOk c = true := by
    rw [realsOk_iff]
    exact ⟨fun h => ⟨h.rates, h.sizes, h.reals⟩, fun h => ⟨h.1, h.2.1, h.2.2⟩⟩
  rw [hp]
  unfold construct Config.failure
  cases Config.ratesOk c <;> cases b <;> cases Config.sizesOk c <;> cases Config.realsOk c <;>
    simp [eq_comm]

/-! ## The ring buffer (44_audio_ring_buffer.md) -/

/-- R290: an even number of samples within the free space is stored. -/
theorem writeCount_le (c : Config) (a : Arb) (n : Nat) :
    writeCount c a n ≤ n ∧ writeCount c a n ≤ c.arbCap - a.occ ∧ writeCount c a n % 2 = 0 := by
  simp only [writeCount]
  omega

/-- R290: with even counts nothing is rounded away. -/
theorem writeCount_eq {c : Config} {a : Arb} {n : Nat} (hn : n % 2 = 0) (hc : c.arbCap % 2 = 0) (ho : a.occ % 2 = 0) :
    writeCount c a n = min n (c.arbCap - a.occ) := by
  simp only [writeCount]
  omega

theorem arbInv_write {c : Config} {a : Arb} (hp : Config.sizesOk c = true) (h : ArbInv c a) (vs : List RNum) :
    ArbInv c (arbWrite c vs a) := by
  obtain ⟨h1, h2, -⟩ := sizesOk_cases hp
  obtain ⟨w1, w2, w3⟩ := writeCount_le c a vs.length
  have hw : (a.wr + writeCount c a vs.length) % c.arbCap = (a.rd + (a.occ + writeCount c a vs.length)) % c.arbCap := by
    rw [h.wrPlace, Nat.mod_add_mod, Nat.add_assoc]
  have hcap : 0 < c.arbCap := by omega
  have := h.occLe
  have := h.occEven
  have := h.wrEven
  refine ⟨?_, h.rdEven, ?_, hw, ?_, h.rdLt, h.readers, spaceOk_writeWrap hcap h.store _ _⟩
  · simp only [arbWrite]; omega
  · simp only [arbWrite]
    have := Nat.mod_mod_of_dvd (a.wr + writeCount c a vs.length) (Nat.dvd_of_mod_eq_zero h1)
    omega
  · simp only [arbWrite]; omega

theorem arbInv_pop {c : Config} {a : Arb} (hp : Config.sizesOk c = true) (h : ArbInv c a) {m : Nat} (hm : m ≤ a.occ)
    (he : m % 2 = 0) : ArbInv c (arbPop c m a) := by
  obtain ⟨h1, h2, -⟩ := sizesOk_cases hp
  have hcap : 0 < c.arbCap := by omega
  have := h.occLe
  have := h.occEven
  have := h.rdEven
  refine ⟨?_, ?_, h.wrEven, ?_, ?_, Nat.mod_lt _ hcap, h.readers, h.store⟩
  · simp only [arbPop]; omega
  · simp only [arbPop]
    have := Nat.mod_mod_of_dvd (a.rd + m) (Nat.dvd_of_mod_eq_zero h1)
    omega
  · simp only [arbPop]
    rw [h.wrPlace, Nat.mod_add_mod, Nat.add_assoc, Nat.add_sub_cancel' hm]
  · simp only [arbPop]; omega

theorem arbInv_readers {c : Config} {a : Arb} (h : ArbInv c a) {l : List Reader} (hl : l.length = a.readers.length) :
    ArbInv c { a with readers := l } :=
  ⟨h.occEven, h.rdEven, h.wrEven, h.wrPlace, h.occLe, h.rdLt, hl.trans h.readers, h.store⟩

theorem arbInv_setReader {c : Config} {a : Arb} (h : ArbInv c a) (r : BitVec 16) (v : Reader) :
    ArbInv c (a.setReader r v) := arbInv_readers h (by simp)

theorem arbInv_flush {c : Config} {a : Arb} (hp : Config.sizesOk c = true) (h : ArbInv c a) :
    ArbInv c { a with rd := a.wr, occ := 0 } := by
  have hcap : 0 < c.arbCap := by have := (sizesOk_cases hp).2.1; omega
  have hw : a.wr < c.arbCap := by rw [h.wrPlace]; exact Nat.mod_lt _ hcap
  exact ⟨rfl, h.wrEven, h.wrEven, (Nat.mod_eq_of_lt hw).symm, Nat.zero_le _, hw, h.readers, h.store⟩

/-- R292: no more frames are delivered than there are. -/
theorem framesReady_le (a : Arb) (frames : Word) : framesReady a frames ≤ frames.toNat ∧ 2 * framesReady a frames ≤ a.occ := by
  simp only [framesReady]
  omega

/-- What delivering data does (R292, R293): the frames leave the buffer, one response is added, nothing else changes. -/
theorem deliverFrames_cases (r : BitVec 16) (frames : Word) (s : State) :
    deliverFrames r frames s = (s.withArb (arbPop s.params (2 * framesReady s.arb frames) s.arb)).respond
      (dataResponse r (framesReady s.arb frames) (popData s.params (2 * framesReady s.arb frames) s.arb)) := rfl

/-! ## The RDS unit (42_rds_group_decoder.md) -/

/-- What a group does to the machine (R231): nothing outside RUNNING or with RDS off; otherwise the PI check, then the
type's rule, on the RDS registers, and their events in order. -/
theorem onGroup_cases (pi : Block) (rule : Rds → Rds × List Event) (s : State) :
    (s.eng.run = .running ∧ s.cr.rdsMode ≠ .off ∧
      onGroup pi rule s = (s.withRds (rule (piCheck pi s.rds).1).1).emit
        ((piCheck pi s.rds).2 ++ (rule (piCheck pi s.rds).1).2)) ∨
    ((s.eng.run ≠ .running ∨ s.cr.rdsMode = .off) ∧ onGroup pi rule s = s) := by
  unfold onGroup
  split
  · next h => exact .inl ⟨h.1, h.2, rfl⟩
  · next h => exact .inr ⟨by tauto, rfl⟩

/-- With groups off nothing happens (R231). -/
theorem onGroup_off {s : State} (h : ¬ GroupsOn s) (pi : Block) (rule : Rds → Rds × List Event) :
    onGroup pi rule s = s := if_neg h

/-- With its PI tracked a group does what its rule does (R231, R232). -/
theorem onGroup_tracked {s : State} {pi : Block} (h : GroupsOn s) (hp : s.rds.pi = some pi) (rule : Rds → Rds × List Event) :
    onGroup pi rule s = (s.withRds (rule s.rds).1).emit (rule s.rds).2 := by
  have e : onGroup pi rule s = (s.withRds (rule (piCheck pi s.rds).1).1).emit
      ((piCheck pi s.rds).2 ++ (rule (piCheck pi s.rds).1).2) := if_pos h
  rw [e]
  simp [piCheck, hp]

theorem rdsInv_clear {u : Rds} (h : RdsInv u) : RdsInv (rdsClear u).1 :=
  ⟨(by decide : (0#4 : BitVec 4) ≠ 0xF#4), (by decide : (0#16 : BitVec 16) ≠ 0xFFFF#16), spaceOk_nil _, spaceOk_nil _, h.hour,
    h.minute⟩

theorem rdsInv_pi {u : Rds} (h : RdsInv u) (p : Option Block) : RdsInv { u with pi := p } :=
  ⟨h.labelOpen, h.textOpen, h.label, h.text, h.hour, h.minute⟩

theorem rdsInv_piCheck {u : Rds} (h : RdsInv u) (pi : Block) : RdsInv (piCheck pi u).1 := by
  unfold piCheck
  split
  · exact h
  · exact rdsInv_pi (rdsInv_clear h) _

theorem labelWritten_ok {u : Rds} (h : RdsInv u) (idx : BitVec 2) (c0 c1 : Byte) :
    SpaceOk Config.fill Config.labelLen (labelWritten u idx c0 c1) :=
  spaceOk_writeList h.label _ _ (by have := idx.isLt; simp only [labelAddr, List.length_cons, List.length_nil, Config.labelLen]; omega)

theorem rdsInv_g0a {u : Rds} (h : RdsInv u) (idx : BitVec 2) (c0 c1 : Byte) : RdsInv (g0a idx c0 c1 u).1 := by
  unfold g0a
  simp only
  split
  · exact ⟨(by decide : (0#4 : BitVec 4) ≠ 0xF#4), h.textOpen, labelWritten_ok h _ _ _, h.text, h.hour, h.minute⟩
  · next hm =>
    exact ⟨by simpa [labelComplete] using hm, h.textOpen, labelWritten_ok h _ _ _, h.text, h.hour, h.minute⟩

theorem rdsInv_textRestart {u : Rds} (h : RdsInv u) (ab : Bool) : RdsInv (textRestart ab u).1 := by
  unfold textRestart
  split
  · exact ⟨h.labelOpen, (by decide : (0#16 : BitVec 16) ≠ 0xFFFF#16), h.label, spaceOk_nil _, h.hour, h.minute⟩
  · exact h

theorem textWritten_ok {u : Rds} (h : RdsInv u) (idx : BitVec 4) (t0 t1 t2 t3 : Byte) :
    SpaceOk Config.fill Config.textLen (textWritten u idx [t0, t1, t2, t3]) :=
  spaceOk_writeList h.text _ _ (by have := idx.isLt; simp only [textAddr, List.length_cons, List.length_nil, Config.textLen]; omega)

theorem rdsInv_g2a {u : Rds} (h : RdsInv u) (c : Config) (ab : Bool) (idx : BitVec 4) (t0 t1 t2 t3 : Byte) :
    RdsInv (g2a c ab idx t0 t1 t2 t3 u).1 := by
  have hr := rdsInv_textRestart h ab
  unfold g2a
  simp only
  split
  · exact ⟨hr.labelOpen, (by decide : (0#16 : BitVec 16) ≠ 0xFFFF#16), hr.label, spaceOk_nil _, hr.hour, hr.minute⟩
  · next hm =>
    simp only [not_or] at hm
    exact ⟨hr.labelOpen, by simpa [textFull] using hm.2.2.2.2, hr.label, textWritten_ok hr _ _ _ _ _, hr.hour, hr.minute⟩

theorem rdsInv_g4a {u : Rds} (h : RdsInv u) (day : BitVec 17) (hour : BitVec 5) (minute : BitVec 6) :
    RdsInv (g4a day hour minute u).1 := by
  refine ⟨h.labelOpen, h.textOpen, h.label, h.text, ?_, ?_⟩ <;> simp only [g4a] <;> split
  · assumption
  · exact h.hour
  · assumption
  · exact h.minute

theorem rdsInv_g8a {u : Rds} (h : RdsInv u) (c : Config) (t f : BitVec 1) (event : BitVec 11) (location : BitVec 16) :
    RdsInv (g8a c t f event location u).1 := by
  unfold g8a
  split <;> exact h

/-- A group 8A changes no register and emits no event, accepted or not (R239). -/
@[simp] theorem g8a_eq (c : Config) (t f : BitVec 1) (event : BitVec 11) (location : BitVec 16) (u : Rds) :
    g8a c t f event location u = (u, []) := by
  unfold g8a
  split <;> rfl

theorem rdsInv_groupRule {u : Rds} (h : RdsInv u) (c : Config) (b cc d : Block) : RdsInv (groupRule c b cc d u).1 := by
  unfold groupRule
  split
  · exact h
  · split
    · exact rdsInv_g0a h _ _ _
    · exact rdsInv_g2a h _ _ _ _ _ _ _
    · exact rdsInv_g4a h _ _ _
    · exact rdsInv_g8a h _ _ _ _ _
    · exact h

/-! ## The scanner (43_station_scanner.md) -/

theorem scanInv_start {c : Config} {u : Scan} (hn : 0 < c.nFft) (h : ScanInv c u) (thr : RNum) (token : Word) :
    ScanInv c (scanStart thr token u) := ⟨fun _ => rfl, trivial, by simp [scanStart], hn, h.blk⟩

theorem scanInv_stop {c : Config} {u : Scan} (h : ScanInv c u) : ScanInv c (scanStop u) :=
  ⟨fun _ => rfl, trivial, by simp [scanStop], h.blkIdx, h.blk⟩

theorem scanInv_stored {c : Config} {u : Scan} (h : ScanInv c u) (z : Cplx) : ScanInv c (blockStored c z u) := by
  refine ⟨h.idleEmpty, h.differ, h.counted, ?_, spaceOk_write h.blk h.blkIdx z⟩
  have := h.blkIdx
  simp only [blockStored]
  split <;> omega

/-- R267: an accumulation either adds to the last candidate, at the same frequency, or appends a new one. -/
theorem accumulate_head (c : Config) (f : Word) (r : RNum) (x : Candidate) (l : List Candidate) :
    ∃ y m, accumulate c f r (x :: l) = y :: m ∧ y.freq = x.freq := by
  cases l with
  | nil =>
    simp only [accumulate]
    split
    · exact ⟨_, _, rfl, rfl⟩
    · exact ⟨_, _, rfl, rfl⟩
  | cons z l => exact ⟨_, _, rfl, rfl⟩

theorem neighboursDiffer_accumulate {l : List Candidate} (h : neighboursDiffer l) (c : Config) (f : Word) (r : RNum) :
    neighboursDiffer (accumulate c f r l) := by
  induction l with
  | nil => trivial
  | cons x l ih =>
    cases l with
    | nil =>
      simp only [accumulate]
      split
      · trivial
      · next hne => exact ⟨hne, trivial⟩
    | cons y l =>
      obtain ⟨h1, h2⟩ := h
      obtain ⟨z, m, hz, hf⟩ := accumulate_head c f r y l
      have h3 := ih h2
      simp only [accumulate]
      rw [hz] at h3 ⊢
      exact ⟨hf ▸ h1, h3⟩

theorem counted_accumulate {l : List Candidate} (h : ∀ x ∈ l, 1 ≤ x.count) (c : Config) (f : Word) (r : RNum) :
    ∀ x ∈ accumulate c f r l, 1 ≤ x.count := by
  induction l with
  | nil => simp [accumulate]
  | cons x l ih =>
    cases l with
    | nil =>
      have := h x (by simp)
      simp only [accumulate]
      split <;> simp <;> omega
    | cons y l =>
      simp only [accumulate, List.mem_cons, forall_eq_or_imp] at h ⊢
      refine ⟨h.1, fun z hz => ih ?_ z hz⟩
      simpa using h.2

/-- The angle of a term of the transform, with `rnd` the identity (R265). -/
theorem toReal_dftAngle {c : Config} (h : c.rnd = .exact) (k n : Nat) :
    (dftAngle c k n).toReal = -(2 * Real.pi * k * n / c.nFft) := by
  simp only [dftAngle, Config.div_exact h, Config.mul_exact h, Config.neg_exact h, toReal_div, toReal_mul, toReal_neg,
    toReal_rat, toReal_pi, toReal_ofNat]
  push_cast
  ring

/-- What the end of a block does (R264): a candidate accumulates, or the scan finishes, or nothing happens. -/
theorem evaluate_cases (s : State) :
    (s.scan.threshold.lt (ratioDb s.params s.scan.blk) = true ∧
      evaluate s = s.withScan { s.scan with cand := accumulate s.params s.eng.freq (ratioDb s.params s.scan.blk) s.scan.cand }) ∨
    (s.scan.threshold.lt (ratioDb s.params s.scan.blk) = false ∧ s.scan.cand ≠ [] ∧
      evaluate s = ((s.withScan (finishScan s.scan)).withEng
        { s.eng with timerArmed := false, seekActive := false }).emit [.stationFound (winner s.params s.scan.cand) s.scan.token]) ∨
    (s.scan.threshold.lt (ratioDb s.params s.scan.blk) = false ∧ s.scan.cand = [] ∧ evaluate s = s) := by
  unfold evaluate
  simp only
  split
  · next h => exact .inl ⟨h, rfl⟩
  · next h =>
    rw [Bool.not_eq_true] at h
    split
    · next hc => exact .inr (.inl ⟨h, hc, rfl⟩)
    · next hc => exact .inr (.inr ⟨h, by simpa using hc, rfl⟩)

/-- What one fed sample does (R263). -/
theorem scanFeed_cases (z : Cplx) (s : State) :
    (s.scan.scanning = false ∧ scanFeed z s = s) ∨
    (s.scan.scanning = true ∧ s.scan.blkIdx + 1 ≠ s.params.nFft ∧
      scanFeed z s = s.withScan (blockStored s.params z s.scan)) ∨
    (s.scan.scanning = true ∧ s.scan.blkIdx + 1 = s.params.nFft ∧
      scanFeed z s = evaluate (s.withScan (blockStored s.params z s.scan))) := by
  unfold scanFeed
  cases h : s.scan.scanning with
  | false => simp
  | true =>
    simp only [Bool.true_eq_false, if_false, false_and, true_and, false_or]
    split
    · next hb => exact .inr ⟨hb, rfl⟩
    · next hb => exact .inl ⟨hb, rfl⟩

/-- What feeding the scanner leaves alone. -/
theorem scanFeed_frame (z : Cplx) (s : State) :
    (scanFeed z s).params = s.params ∧ (scanFeed z s).cr = s.cr ∧ (scanFeed z s).dem = s.dem ∧
    (scanFeed z s).rds = s.rds ∧ (scanFeed z s).arb = s.arb ∧ (scanFeed z s).inq = s.inq ∧ (scanFeed z s).port = s.port ∧
    (scanFeed z s).out.rbq = s.out.rbq ∧ (scanFeed z s).out.fpq = s.out.fpq ∧ (scanFeed z s).out.rsq = s.out.rsq := by
  rcases scanFeed_cases z s with ⟨-, h⟩ | ⟨-, -, h⟩ | ⟨-, -, h⟩
  · simp [h]
  · simp [h]
  · rcases evaluate_cases (s.withScan (blockStored s.params z s.scan)) with ⟨-, h'⟩ | ⟨-, -, h'⟩ | ⟨-, -, h'⟩ <;>
      simp [h, h']

/-- Feeding the scanner keeps its part of R60 and the seek's. -/
theorem inv_scanFeed {c : Config} {z : Cplx} {s : State} (hc : s.params = c) (h1 : ScanInv c s.scan)
    (h2 : SeekInv s.eng s.scan) : ScanInv c (scanFeed z s).scan ∧ SeekInv (scanFeed z s).eng (scanFeed z s).scan := by
  subst hc
  have h3 := scanInv_stored h1 z
  have h4 : SeekInv s.eng (blockStored s.params z s.scan) := ⟨h2.timer, h2.session, h2.range⟩
  rcases scanFeed_cases z s with ⟨-, h⟩ | ⟨-, -, h⟩ | ⟨hsc, -, h⟩
  · rw [h]; exact ⟨h1, h2⟩
  · rw [h]; exact ⟨h3, h4⟩
  · rw [h]
    generalize ht : s.withScan (blockStored s.params z s.scan) = t at *
    have e1 : t.scan = blockStored s.params z s.scan := by rw [← ht]; rfl
    have e2 : t.eng = s.eng := by rw [← ht]; rfl
    rw [← e1] at h3 h4
    rw [← e2] at h4
    have e3 : t.scan.scanning = true := by rw [e1]; exact hsc
    rcases evaluate_cases t with ⟨-, h'⟩ | ⟨-, -, h'⟩ | ⟨-, -, h'⟩
    · rw [h']
      refine ⟨⟨fun hf => ?_, neighboursDiffer_accumulate h3.differ _ _ _, counted_accumulate h3.counted _ _ _, h3.blkIdx,
        h3.blk⟩, ⟨h4.timer, h4.session, h4.range⟩⟩
      exact absurd (hf.symm.trans e3) (by simp)
    · rw [h']
      exact ⟨⟨fun _ => rfl, trivial, by simp [finishScan], h3.blkIdx, h3.blk⟩,
        ⟨fun hf => by simp at hf, fun hf => by simp at hf, fun hf => by simp at hf⟩⟩
    · rw [h']; exact ⟨h3, h4⟩

/-! ## The engine (45_engine_control.md) -/

/-- `Advance` lands in its range (R342). -/
theorem advance_range (f step lo hi : Word) (h : lo.toNat ≤ hi.toNat) :
    lo.toNat ≤ (advance f step lo hi).toNat ∧ (advance f step lo hi).toNat ≤ hi.toNat := by
  have h1 := hi.isLt
  unfold advance
  generalize u32Value f + s32Value step = g
  simp only
  split_ifs with h2 h3
  · exact ⟨le_rfl, h⟩
  · exact ⟨h, le_rfl⟩
  · rw [BitVec.toNat_ofInt]
    simp only [u32Value] at h2 h3
    norm_num at *
    rw [Int.emod_eq_of_lt (by omega) (by omega)]
    omega

/-- What a frequency change does (R322). -/
theorem setFreq_cases (f : Word) (s : State) :
    setFreq f s = ((s.withEng { s.eng with freq := f }).request (.setFreq f)).emit [.freqChanged f] := rfl

/-- What opening a seek does (R340): the context, one advanced frequency, a fresh scan session, an armed timer. -/
theorem seekRun_eq (thr : RNum) (fmin fmax step interval token : Word) (s : State) :
    seekRun thr fmin fmax step interval token s =
      (((s.withEng { s.eng with
          freq := advance s.eng.freq step fmin fmax, seekActive := true, seekPre := s.eng.freq, seekMin := fmin,
          seekMax := fmax, seekStep := step, seekInterval := interval, seekToken := token, timerArmed := true }).withScan
        (scanStart thr token s.scan)).request (.setFreq (advance s.eng.freq step fmin fmax))).emit
          [.freqChanged (advance s.eng.freq step fmin fmax)] := by
  simp only [seekRun, setFreq, State.withEng, State.withScan, State.request, State.emit, State.withOut]

/-- The RDS reset changes the RDS registers and emits the two clear events, label first (R241). -/
theorem rdsReset_eq (s : State) :
    rdsReset s = (s.withRds { s.rds with pi := none, label := [], labelMask := 0#4, text := [], textMask := 0#16 }).emit
      [.labelClear, .textClear] := rfl

end Sys2Proof.Machine
end

