-- ==== Sys2Proof/Laws/Datapath.lean ====
section
/-! SUPPORT. Laws/Datapath.lean: what the stages of `SAMPLE` do (41_demodulator.md), and that they keep the datapath's
invariants. -/

namespace Sys2Proof.Machine

theorem length_shiftIn {α : Type} {len : Nat} {dl : List α} (h : dl.length = len) (x : α) :
    (shiftIn len x dl).length = len := by
  simp only [shiftIn, List.length_take, List.length_cons]
  omega

theorem abs_nonneg_cplx {c : Config} (h : c.rnd = .exact) (z : Cplx) : 0 ≤ (z.abs c).toReal := by
  simp [Cplx.abs, Config.sqrt_exact h]

theorem toReal_abs_cplx {c : Config} (h : c.rnd = .exact) (z : Cplx) :
    (z.abs c).toReal = Real.sqrt (z.re.toReal * z.re.toReal + z.im.toReal * z.im.toReal) := by
  simp [Cplx.abs, Cplx.normSq, Config.sqrt_exact h, Config.add_exact h, Config.mul_exact h]

/-- R177: the target gain is at least the floor. -/
theorem gainTarget_ge (c : Config) (peak : RNum) : c.gainFloor.toReal ≤ (gainTarget c peak).toReal := by
  simp [gainTarget]

/-- R177: the new gain is the weighted sum of the old one and the target. -/
theorem toReal_gainUpdate {c : Config} (h : c.rnd = .exact) (u : Demod) :
    (gainUpdate c u).gainAvg.toReal =
      c.emaOld.toReal * u.gainAvg.toReal + c.emaNew.toReal * (gainTarget c u.peak).toReal := by
  simp [gainUpdate, Config.add_exact h, Config.mul_exact h]

/-- A weighted mean of two values above `m` is above `m`. -/
theorem convex_gt {a b x y m : ℝ} (ha : 0 ≤ a) (hb : 0 ≤ b) (hs : a + b = 1) (hx : m < x) (hy : m < y) :
    m < a * x + b * y := by
  rcases ha.lt_or_eq with h | h
  · have e : a * m + b * m = m := by rw [← add_mul, hs, one_mul]
    linarith [mul_lt_mul_of_pos_left hx h, mul_le_mul_of_nonneg_left hy.le hb]
  · have hb1 : b = 1 := by linarith
    rw [← h, hb1]
    linarith

/-- R176: `PeakTrack` either counts on within the window or closes it. -/
theorem peakTrack_cases (c : Config) (a : RNum) (u : Demod) :
    (u.peakCnt + 1 ≠ (c.peakWindow : Nat) ∧
      peakTrack c a u = { u with peak := RNum.max u.peak a, peakCnt := u.peakCnt + 1 }) ∨
    (u.peakCnt + 1 = (c.peakWindow : Nat) ∧
      peakTrack c a u = gainUpdate c { u with peak := RNum.max u.peak a, peakCnt := u.peakCnt + 1 }) := by
  unfold peakTrack
  simp only
  split
  · next h => exact .inr ⟨h, rfl⟩
  · next h => exact .inl ⟨h, rfl⟩

theorem demodInv_inputDecimate {c : Config} {u : Demod} (hr : Config.ratesOk c = true) (h : DemodInv c u) (x : Cplx) :
    DemodInv c (inputDecimate c x u).1 :=
  ⟨length_shiftIn h.inDl x, Nat.mod_lt _ (rIn_pos hr), h.peak, h.peakCnt, h.gain, h.audDl, h.audPh, h.rdsPh⟩

theorem demodInv_peakTrack {c : Config} {u : Demod} (hp : ParamsOk c) (h : DemodInv c u) (a : RNum) :
    DemodInv c (peakTrack c a u) := by
  rcases peakTrack_cases c a u with ⟨hne, he⟩ | ⟨-, he⟩
  · rw [he]
    refine ⟨h.inDl, h.inPh, ?_, ?_, h.gain, h.audDl, h.audPh, h.rdsPh⟩
    · intro he; simp only [toReal_max]; exact le_max_of_le_left (h.peak he)
    · have := h.peakCnt; simp only; omega
  · rw [he]
    refine ⟨h.inDl, h.inPh, ?_, c.peakWindow.pos, ?_, h.audDl, h.audPh, h.rdsPh⟩
    · simp [gainUpdate]
    · intro he
      rw [toReal_gainUpdate he]
      exact convex_gt hp.reals.emaOld hp.reals.emaNew hp.reals.emaSum (h.gain he)
        (hp.reals.gainFloor.trans_le (gainTarget_ge _ _))

theorem demodInv_demodulate {c : Config} {u : Demod} (h : DemodInv c u) (cr : ControlRegs) (v : Cplx) :
    DemodInv c (demodulate c cr v u).1 := ⟨h.inDl, h.inPh, h.peak, h.peakCnt, h.gain, h.audDl, h.audPh, h.rdsPh⟩

/-- What the output pair's stages change: the two de-emphasis memories (R182, R184). -/
theorem decodePair_cases (c : Config) (cr : ControlRegs) (d : RNum) (u : Demod) :
    (u.stereoActive = true ∧ decodePair c cr d u =
      ({ u with deS := deemphStep c (deemphAlpha c cr.deemph) u.deS d,
                deD := deemphStep c (deemphAlpha c cr.deemph) u.deD (diffRaw c u.pt d) },
       matrix c cr.chan (deemphStep c (deemphAlpha c cr.deemph) u.deS d)
         (deemphStep c (deemphAlpha c cr.deemph) u.deD (diffRaw c u.pt d)))) ∨
    (u.stereoActive = false ∧ decodePair c cr d u =
      ({ u with deS := deemphStep c (deemphAlpha c cr.deemph) u.deS d },
       ⟨deemphStep c (deemphAlpha c cr.deemph) u.deS d, deemphStep c (deemphAlpha c cr.deemph) u.deS d⟩)) := by
  unfold decodePair
  cases h : u.stereoActive <;> simp

theorem demodInv_decodePair {c : Config} {u : Demod} (h : DemodInv c u) (cr : ControlRegs) (d : RNum) :
    DemodInv c (decodePair c cr d u).1 := by
  rcases decodePair_cases c cr d u with ⟨-, he⟩ | ⟨-, he⟩ <;> rw [he] <;>
    exact ⟨h.inDl, h.inPh, h.peak, h.peakCnt, h.gain, h.audDl, h.audPh, h.rdsPh⟩

theorem demodInv_audioDecimate {c : Config} {u : Demod} (hr : Config.ratesOk c = true) (h : DemodInv c u) (p : Frame) :
    DemodInv c (audioDecimate c p u).1 :=
  ⟨h.inDl, h.inPh, h.peak, h.peakCnt, h.gain, length_shiftIn h.audDl p, Nat.mod_lt _ (rAud_pos hr), h.rdsPh⟩

/-- R191: the front end counts its calls modulo `R_RDS`, whatever implements it. -/
@[simp] theorem frontStep_rdsPh (c : Config) (rf : FrontState) (stereo : Bool) (d psi3 : RNum) :
    (frontStep c rf stereo d psi3).1.rdsPh = (rf.rdsPh + 1) % c.rRds := rfl

/-- R191: a value comes out on exactly every `R_RDS`-th call. -/
theorem frontStep_isSome (c : Config) (rf : FrontState) (stereo : Bool) (d psi3 : RNum) :
    (frontStep c rf stereo d psi3).2.isSome = decide ((rf.rdsPh + 1) % (c.rRds : Nat) = 0) := by
  by_cases h : (rf.rdsPh + 1) % (c.rRds : Nat) = 0 <;> simp [frontStep, h]

theorem demodInv_rdsFrontEnd {c : Config} {u : Demod} (h : DemodInv c u) (cr : ControlRegs) (d : RNum) :
    DemodInv c (rdsFrontEnd c cr d u).1 := by
  unfold rdsFrontEnd
  split
  · exact h
  · exact ⟨h.inDl, h.inPh, h.peak, h.peakCnt, h.gain, h.audDl, h.audPh, Nat.mod_lt _ c.rRds.pos⟩

theorem demodInv_demodStages {c : Config} {u : Demod} (hp : ParamsOk c) (h : DemodInv c u) (cr : ControlRegs) (v : Cplx) :
    DemodInv c (demodStages c cr v u).dem :=
  demodInv_rdsFrontEnd (demodInv_audioDecimate hp.rates (demodInv_decodePair (demodInv_demodulate
    (demodInv_peakTrack hp h _) _ _) _ _) _) _ _

/-- What stage 8's emission changes: the ring buffer, by one write (R190). -/
theorem emitFrame_cases (f : Option Frame) (s : State) :
    (f = none ∧ emitFrame f s = s) ∨ ∃ x, f = some x ∧ emitFrame f s = s.withArb (arbWrite s.params [x.l, x.r] s.arb) := by
  cases f with
  | none => exact .inl ⟨rfl, rfl⟩
  | some x => exact .inr ⟨x, rfl, rfl⟩

/-- What stage 9's output changes: the history of port RB, by one record (R191). -/
theorem emitRecord_cases (b : Option RbRecord) (s : State) :
    (b = none ∧ emitRecord b s = s) ∨ ∃ x, b = some x ∧ emitRecord b s = s.record x := by
  cases b with
  | none => exact .inl ⟨rfl, rfl⟩
  | some x => exact .inr ⟨x, rfl, rfl⟩

/-- What the scan diversion does (R175). -/
theorem scanDivert_cases (v : Cplx) (s : State) :
    (s.scan.scanning = false ∧ scanDivert v s = (s, v)) ∨
    (s.scan.scanning = true ∧ scanDivert v s = (scanFeed v s, Cplx.zero)) := by
  unfold scanDivert
  cases h : s.scan.scanning <;> simp

@[simp] theorem emitFrame_frame (f : Option Frame) (s : State) :
    (emitFrame f s).params = s.params ∧ (emitFrame f s).cr = s.cr ∧ (emitFrame f s).dem = s.dem ∧
    (emitFrame f s).rds = s.rds ∧ (emitFrame f s).scan = s.scan ∧ (emitFrame f s).eng = s.eng ∧
    (emitFrame f s).inq = s.inq ∧ (emitFrame f s).port = s.port ∧ (emitFrame f s).out = s.out := by
  rcases emitFrame_cases f s with ⟨-, h⟩ | ⟨x, -, h⟩ <;> simp [h]

@[simp] theorem emitRecord_frame (b : Option RbRecord) (s : State) :
    (emitRecord b s).params = s.params ∧ (emitRecord b s).cr = s.cr ∧ (emitRecord b s).dem = s.dem ∧
    (emitRecord b s).rds = s.rds ∧ (emitRecord b s).scan = s.scan ∧ (emitRecord b s).eng = s.eng ∧
    (emitRecord b s).arb = s.arb ∧ (emitRecord b s).inq = s.inq ∧ (emitRecord b s).port = s.port ∧
    (emitRecord b s).out.evq = s.out.evq ∧ (emitRecord b s).out.fpq = s.out.fpq ∧
    (emitRecord b s).out.rsq = s.out.rsq := by
  rcases emitRecord_cases b s with ⟨-, h⟩ | ⟨x, -, h⟩ <;> simp [h]

/-- What `FmTick` does (R172), effect by effect in the order of 20_memory.md R105. -/
theorem fmTick_eq (cr : ControlRegs) (v : Cplx) (s : State) :
    fmTick cr v s =
      emitRecord (demodStages s.params cr (scanDivert (Cplx.smul s.params (u32Real cr.att) v) s).2
          (scanDivert (Cplx.smul s.params (u32Real cr.att) v) s).1.dem).rb
        (emitFrame (demodStages s.params cr (scanDivert (Cplx.smul s.params (u32Real cr.att) v) s).2
            (scanDivert (Cplx.smul s.params (u32Real cr.att) v) s).1.dem).frame
          ((scanDivert (Cplx.smul s.params (u32Real cr.att) v) s).1.withDem
            (demodStages s.params cr (scanDivert (Cplx.smul s.params (u32Real cr.att) v) s).2
              (scanDivert (Cplx.smul s.params (u32Real cr.att) v) s).1.dem).dem)) := rfl

/-- What the scan diversion leaves alone. -/
theorem scanDivert_frame (v : Cplx) (s : State) :
    (scanDivert v s).1.params = s.params ∧ (scanDivert v s).1.cr = s.cr ∧ (scanDivert v s).1.dem = s.dem ∧
    (scanDivert v s).1.rds = s.rds ∧ (scanDivert v s).1.arb = s.arb ∧ (scanDivert v s).1.inq = s.inq ∧
    (scanDivert v s).1.port = s.port ∧ (scanDivert v s).1.out.rbq = s.out.rbq ∧
    (scanDivert v s).1.out.fpq = s.out.fpq ∧ (scanDivert v s).1.out.rsq = s.out.rsq := by
  rcases scanDivert_cases v s with ⟨-, h⟩ | ⟨-, h⟩ <;> rw [h]
  · simp
  · exact scanFeed_frame v s

/-- What `SAMPLE` does when it runs (R170): the decimator, and `FmTick` on the sample it completes. -/
theorem sampleStep_cases (x : Cplx) (s : State) :
    ((s.dem.inPh + 1) % s.params.rIn ≠ 0 ∧ sampleStep x s = s.withDem (inputDecimate s.params x s.dem).1) ∨
    ((s.dem.inPh + 1) % s.params.rIn = 0 ∧
      sampleStep x s = fmTick s.cr (firCplx s.params s.params.hIn (shiftIn s.params.hIn.length x s.dem.inDl))
        (s.withDem (inputDecimate s.params x s.dem).1)) := by
  unfold sampleStep
  simp only [inputDecimate]
  by_cases h : (s.dem.inPh + 1) % s.params.rIn = 0
  · exact .inr ⟨h, by simp [h]⟩
  · exact .inl ⟨h, by simp [h]⟩

/-- What the frame of `fmTick` is: no stage touches the control registers, the RDS registers or the seek's setup. -/
theorem fmTick_frame (cr : ControlRegs) (v : Cplx) (s : State) :
    (fmTick cr v s).params = s.params ∧ (fmTick cr v s).cr = s.cr ∧ (fmTick cr v s).rds = s.rds ∧
    (fmTick cr v s).inq = s.inq ∧ (fmTick cr v s).port = s.port ∧ (fmTick cr v s).out.fpq = s.out.fpq ∧
    (fmTick cr v s).out.rsq = s.out.rsq := by
  obtain ⟨h1, h2, -, h4, -, h6, h7, -, h9, h10⟩ := scanDivert_frame (Cplx.smul s.params (u32Real cr.att) v) s
  rw [fmTick_eq]
  refine ⟨?_, ?_, ?_, ?_, ?_, ?_, ?_⟩ <;> simp [*]

theorem sampleStep_frame (x : Cplx) (s : State) :
    (sampleStep x s).params = s.params ∧ (sampleStep x s).cr = s.cr ∧ (sampleStep x s).rds = s.rds ∧
    (sampleStep x s).inq = s.inq ∧ (sampleStep x s).port = s.port ∧ (sampleStep x s).out.fpq = s.out.fpq ∧
    (sampleStep x s).out.rsq = s.out.rsq := by
  rcases sampleStep_cases x s with ⟨-, h⟩ | ⟨-, h⟩ <;> rw [h]
  · simp
  · simpa using fmTick_frame s.cr (firCplx s.params s.params.hIn (shiftIn s.params.hIn.length x s.dem.inDl))
      (s.withDem (inputDecimate s.params x s.dem).1)

/-- R176, R177: stage 4 changes the peak, its count and the gain. -/
theorem peakTrack_eq (c : Config) (a : RNum) (u : Demod) :
    peakTrack c a u = { u with
      peak := (peakTrack c a u).peak, peakCnt := (peakTrack c a u).peakCnt, gainAvg := (peakTrack c a u).gainAvg } := by
  rcases peakTrack_cases c a u with ⟨-, h⟩ | ⟨-, h⟩ <;> rw [h]
  rfl

/-- What stages 4 to 9 leave in every register (R172), stage by stage. -/
theorem demodStages_regs {c : Config} {cr : ControlRegs} {v : Cplx} {u p : Demod} {d alpha : RNum}
    (hd : d = fmDemod c v u.zPrev) (hp : p = peakTrack c (v.abs c) u) (ha : alpha = deemphAlpha c cr.deemph) :
    let w := (demodStages c cr v u).dem
    w.inDl = u.inDl ∧ w.inPh = u.inPh ∧ w.peak = p.peak ∧ w.peakCnt = p.peakCnt ∧ w.gainAvg = p.gainAvg ∧ w.zPrev = v ∧
    w.nm = noiseStep c u.nm d ∧ w.pt = pilotStep c u.pt d ∧
    w.stereoActive = stereoSelected cr.mode (pilotFound c (pilotLevel c w.pt) (noiseFloor c w.pt)) ∧
    w.deS = deemphStep c alpha u.deS d ∧
    w.deD = (if w.stereoActive then deemphStep c alpha u.deD (diffRaw c w.pt d) else u.deD) ∧
    w.audDl = (Frame.smul c w.gainAvg (if w.stereoActive then matrix c cr.chan w.deS w.deD else ⟨w.deS, w.deS⟩) ::
      u.audDl).take c.hAud.length ∧
    w.audPh = (u.audPh + 1) % c.rAud ∧
    (demodStages c cr v u).frame =
      (if (u.audPh + 1) % c.rAud = 0 then some (squelch c cr w (firFrame c c.hAud w.audDl)) else none) ∧
    (cr.rdsMode = .off → w.rf = u.rf ∧ (demodStages c cr v u).rb = none) ∧
    (cr.rdsMode ≠ .off → ∀ x, x = frontStep c u.rf w.stereoActive d (c.mul (.rat 3) (mixPhase c w.pt)) →
      w.rf = x.1 ∧ (demodStages c cr v u).rb = x.2.map fun b => ⟨cr.rdsMode, b⟩) := by
  obtain ⟨pk, n, g, hk⟩ : ∃ pk n g,
      peakTrack c (v.abs c) u = { u with peak := pk, peakCnt := n, gainAvg := g } := ⟨_, _, _, peakTrack_eq _ _ _⟩
  rw [hk] at hp
  subst hd ha hp
  cases hb : stereoSelected cr.mode
      (pilotFound c (pilotLevel c (pilotStep c u.pt (fmDemod c v u.zPrev)))
        (noiseFloor c (pilotStep c u.pt (fmDemod c v u.zPrev)))) <;>
  by_cases hr : cr.rdsMode = .off <;>
  by_cases ha : (u.audPh + 1) % c.rAud = 0 <;>
  simp [demodStages, squelch, hk, demodulate, decodePair, audioDecimate, shiftIn, rdsFrontEnd, hb, hr, ha]

theorem evaluate_withDem (s : State) (u : Demod) : evaluate (s.withDem u) = (evaluate s).withDem u := by
  rcases evaluate_cases s with ⟨h1, h⟩ | ⟨h1, h2, h⟩ | ⟨h1, h2, h⟩ <;>
    rcases evaluate_cases (s.withDem u) with ⟨g1, g⟩ | ⟨g1, g2, g⟩ | ⟨g1, g2, g⟩ <;>
    rw [h, g] <;> first | rfl | simp_all

/-- Feeding the scanner does not touch the datapath's registers. -/
theorem scanFeed_withDem (z : Cplx) (s : State) (u : Demod) : scanFeed z (s.withDem u) = (scanFeed z s).withDem u := by
  have hw : (s.withDem u).withScan (blockStored s.params z s.scan) =
      (s.withScan (blockStored s.params z s.scan)).withDem u := rfl
  rcases scanFeed_cases z s with ⟨h1, h⟩ | ⟨h1, h2, h⟩ | ⟨h1, h2, h⟩ <;>
    simp_all [scanFeed, evaluate_withDem]

theorem scanDivert_withDem (v : Cplx) (s : State) (u : Demod) :
    scanDivert v (s.withDem u) = ((scanDivert v s).1.withDem u, (scanDivert v s).2) := by
  unfold scanDivert
  rw [scanFeed_withDem]
  cases h : s.scan.scanning <;> simp [h]

theorem scanDivert_snd (v : Cplx) (s : State) : (scanDivert v s).2 = if s.scan.scanning then Cplx.zero else v := by
  rcases scanDivert_cases v s with ⟨h, he⟩ | ⟨h, he⟩ <;> simp [h, he]

/-- An FM-rate sample (R170 to R175), effect by effect in the order of 20_memory.md R105. -/
theorem sampleStep_due {s : State} {i q : Word} (hp : (s.dem.inPh + 1) % s.params.rIn = 0) :
    sampleStep (f32Sample i q) s =
      emitRecord (demodStages s.params s.cr (demodSample s i q) (inputDecimate s.params (f32Sample i q) s.dem).1).rb
        (emitFrame (demodStages s.params s.cr (demodSample s i q) (inputDecimate s.params (f32Sample i q) s.dem).1).frame
          ((scanDivert (scaledSample s i q) s).1.withDem
            (demodStages s.params s.cr (demodSample s i q) (inputDecimate s.params (f32Sample i q) s.dem).1).dem)) := by
  rcases sampleStep_cases (f32Sample i q) s with ⟨h, -⟩ | ⟨-, he⟩
  · exact absurd hp h
  rw [he, fmTick_eq]
  simp only [withDem_params]
  rw [show Cplx.smul s.params (u32Real s.cr.att)
    (firCplx s.params s.params.hIn (shiftIn s.params.hIn.length (f32Sample i q) s.dem.inDl)) = scaledSample s i q from rfl,
    scanDivert_withDem]
  simp only [scanDivert_snd, demodSample]
  rfl

end Sys2Proof.Machine
end

