-- ==== Sys2Proof/Laws/Float.lean ====
section
/-! SUPPORT. Laws/Float.lean: the word of an output port is the binary32 nearest to the real number, whatever expression
stands for it (30_encoding.md R148): rounding computed on rationals is rounding in the real numbers. -/

namespace Sys2Proof

/-- The comparison `binaryExp` makes. -/
theorem zpow_le_div_iff (e : Int) (a : Nat) {b : Nat} (hb : 0 < b) :
    (2 : ℝ) ^ e ≤ (a : ℝ) / (b : ℝ) ↔
      (match e with
       | .ofNat k => decide (Nat.pow 2 k * b ≤ a)
       | .negSucc k => decide (b ≤ a * Nat.pow 2 (k + 1))) = true := by
  have hb' : (0 : ℝ) < b := by exact_mod_cast hb
  rw [le_div_iff₀ hb']
  cases e with
  | ofNat k =>
    simp only [decide_eq_true_eq, natPow_eq, Int.ofNat_eq_natCast, zpow_natCast]
    exact_mod_cast Iff.rfl
  | negSucc k =>
    simp only [decide_eq_true_eq, natPow_eq]
    rw [zpow_negSucc, inv_mul_le_iff₀ (by positivity), mul_comm]
    exact_mod_cast Iff.rfl

/-- `binaryExp` is the binary exponent. -/
theorem binaryExp_eq {a b : Nat} (ha : 0 < a) (hb : 0 < b) : binaryExp a b = Int.log 2 ((a : ℝ) / (b : ℝ)) := by
  have ha' : (0 : ℝ) < a := by exact_mod_cast ha
  have hb' : (0 : ℝ) < b := by exact_mod_cast hb
  have hr : (0 : ℝ) < (a : ℝ) / (b : ℝ) := div_pos ha' hb'
  have h2 : ((2 : Nat) : ℝ) = 2 := by norm_num
  have hlo : ∀ n : Nat, 0 < n → (2 : ℝ) ^ (n.log2 : Int) ≤ n := by
    intro n hn
    rw [zpow_natCast]
    exact_mod_cast Nat.log2_self_le hn.ne'
  have hhi : ∀ n : Nat, (n : ℝ) < (2 : ℝ) ^ ((n.log2 : Int) + 1) := by
    intro n
    rw [show ((n.log2 : Int) + 1) = ((n.log2 + 1 : Nat) : Int) by push_cast; rfl, zpow_natCast]
    exact_mod_cast Nat.lt_log2_self
  have hbelow := zpow_le_div_iff ((a.log2 : Int) - (b.log2 : Int)) a hb
  have hup : (a : ℝ) / (b : ℝ) < (2 : ℝ) ^ ((a.log2 : Int) - (b.log2 : Int) + 1) := by
    rw [div_lt_iff₀ hb', show (a.log2 : Int) - (b.log2 : Int) + 1 = ((a.log2 : Int) + 1) - (b.log2 : Int) by ring,
      zpow_sub₀ (by norm_num), div_mul_eq_mul_div, lt_div_iff₀ (by positivity)]
    exact mul_lt_mul (hhi a) (hlo b hb) (by positivity) (by positivity)
  have hdn : (2 : ℝ) ^ ((a.log2 : Int) - (b.log2 : Int) - 1) ≤ (a : ℝ) / (b : ℝ) := by
    rw [le_div_iff₀ hb', show (a.log2 : Int) - (b.log2 : Int) - 1 = (a.log2 : Int) - ((b.log2 : Int) + 1) by ring,
      zpow_sub₀ (by norm_num), div_mul_eq_mul_div, div_le_iff₀ (by positivity)]
    exact mul_le_mul (hlo a ha) (hhi b).le (by positivity) (by positivity)
  have l1 : ∀ x : Int, (2 : ℝ) ^ x ≤ (a : ℝ) / (b : ℝ) ↔ x ≤ Int.log 2 ((a : ℝ) / (b : ℝ)) := by
    intro x
    rw [← Int.zpow_le_iff_le_log (by norm_num) hr, h2]
  have l2 : (a : ℝ) / (b : ℝ) < (2 : ℝ) ^ ((a.log2 : Int) - (b.log2 : Int) + 1) ↔
      Int.log 2 ((a : ℝ) / (b : ℝ)) < (a.log2 : Int) - (b.log2 : Int) + 1 := by
    rw [← not_le, l1, not_le]
  rw [l1] at hdn
  rw [l2] at hup
  have he : binaryExp a b = if (match (a.log2 : Int) - (b.log2 : Int) with
      | .ofNat k => decide (Nat.pow 2 k * b ≤ a)
      | .negSucc k => decide (b ≤ a * Nat.pow 2 (k + 1))) = true then (a.log2 : Int) - (b.log2 : Int)
      else (a.log2 : Int) - (b.log2 : Int) - 1 := rfl
  simp only [← hbelow, l1] at he
  rw [he]
  split_ifs <;> omega

/-- A natural rounds to itself. -/
@[simp] theorem roundEvenReal_natCast (n : Nat) : roundEvenReal (n : ℝ) = n := by simp [roundEvenReal]

/-- Rounding to the nearest natural: within a half, and even where two naturals are as near. -/
theorem roundEvenReal_spec {y : ℝ} (hy : 0 ≤ y) :
    |(roundEvenReal y : ℝ) - y| ≤ 1 / 2 ∧ (|(roundEvenReal y : ℝ) - y| = 1 / 2 → roundEvenReal y % 2 = 0) := by
  have hf : (⌊y⌋₊ : ℝ) = y - Int.fract y := by
    rw [← Int.self_sub_floor y, ← natCast_floor_eq_intCast_floor hy]; ring
  have h1 := Int.fract_nonneg y
  have h2 := Int.fract_lt_one y
  unfold roundEvenReal
  split
  · next h =>
    have h3 : (1 : ℝ) / 2 ≤ Int.fract y := by rcases h with h | ⟨h, -⟩ <;> linarith
    have e : ((⌊y⌋₊ + 1 : ℕ) : ℝ) - y = 1 - Int.fract y := by push_cast; rw [hf]; ring
    rw [e, abs_of_pos (by linarith)]
    refine ⟨by linarith, fun ht => ?_⟩
    rcases h with h | ⟨-, h⟩
    · linarith
    · omega
  · next h =>
    rw [not_or] at h
    have e : (⌊y⌋₊ : ℝ) - y = - Int.fract y := by rw [hf]; ring
    rw [e, abs_neg, abs_of_nonneg h1]
    refine ⟨not_lt.mp h.1, fun ht => ?_⟩
    have := h.2
    simp [ht] at this
    omega

/-- Rounding a quotient of naturals is rounding the real quotient. -/
theorem roundEven_eq (a : Nat) {b : Nat} (hb : 0 < b) : roundEven a b = roundEvenReal ((a : ℝ) / (b : ℝ)) := by
  have hb' : (0 : ℝ) < b := by exact_mod_cast hb
  have hf : ⌊(a : ℝ) / (b : ℝ)⌋₊ = a / b := Nat.floor_div_eq_div a b
  have hr : Int.fract ((a : ℝ) / (b : ℝ)) = ((a % b : Nat) : ℝ) / (b : ℝ) := by
    rw [Int.fract_div_natCast_eq_div_natCast_mod]
  have h1 : (1 / 2 : ℝ) < ((a % b : Nat) : ℝ) / (b : ℝ) ↔ b < 2 * (a % b) := by
    rw [div_lt_div_iff₀ (by norm_num) hb', one_mul, mul_comm]
    exact_mod_cast Iff.rfl
  have h2 : ((a % b : Nat) : ℝ) / (b : ℝ) = 1 / 2 ↔ 2 * (a % b) = b := by
    rw [div_eq_div_iff hb'.ne' (by norm_num), one_mul, mul_comm]
    exact_mod_cast Iff.rfl
  simp only [roundEven, roundEvenReal, hf, hr, h1, h2]

theorem f32Bits_eq {a b : Nat} (ha : 0 < a) (hb : 0 < b) : f32Bits a b = f32BitsReal ((a : ℝ) / (b : ℝ)) := by
  simp only [f32Bits, f32BitsReal, binaryExp_eq ha hb]
  generalize max (Int.log 2 ((a : ℝ) / (b : ℝ))) (-126) = e
  congr 2
  split
  · next k hk =>
    rw [roundEven_eq _ (Nat.mul_pos (by rw [natPow_eq]; positivity) hb), hk, natPow_eq, Int.ofNat_eq_natCast, zpow_natCast]
    push_cast
    rw [div_div, mul_comm (b : ℝ)]
  · next k hk =>
    rw [roundEven_eq _ hb, hk, natPow_eq, zpow_negSucc, div_inv_eq_mul]
    push_cast
    rw [div_mul_eq_mul_div]

/-- Rounding a rational is rounding the real number it is. -/
theorem f32OfRat_eq (q : Rat) : f32OfRat q = f32OfReal (q : ℝ) := by
  have hd : 0 < q.den := q.den_pos
  unfold f32OfRat f32OfReal
  by_cases h0 : q = 0
  · simp [h0]
  · have hn : 0 < q.num.natAbs := Int.natAbs_pos.mpr (Rat.num_ne_zero.mpr h0)
    have habs : ((q.num.natAbs : ℝ) / (q.den : ℝ)) = |(q : ℝ)| := by
      rw [Nat.cast_natAbs, Int.cast_abs, ← Nat.abs_cast q.den, ← abs_div, ← Rat.cast_def]
    have h0' : ¬ (q : ℝ) = 0 := by exact_mod_cast h0
    rw [if_neg h0, if_neg h0', f32Bits_eq hn hd, habs]
    by_cases hneg : q < 0
    · have hr : (q : ℝ) < 0 := by exact_mod_cast hneg
      rw [if_pos hneg, if_pos hr, abs_of_neg hr]
    · have hr : ¬ (q : ℝ) < 0 := by exact_mod_cast hneg
      rw [if_neg hneg, if_neg hr, abs_of_nonneg (not_lt.mp hr)]

/-- R148: the word of a port is the nearest of the real number, ties to even. -/
theorem f32Word_eq (x : RNum) : f32Word x = f32OfReal x.toReal := by
  unfold f32Word
  split
  · exact f32OfRat_eq _
  · exact (nearestWord x).2

end Sys2Proof
end

