-- ==== Sys2Proof/Tests/Slice0.lean ====
section
/-! SUPPORT. Tests/Slice0.lean: the model's own tests. Words, operands and expected values are those of
95_test_vectors.md (S1 to S8, V1.1 to V6.9, P1 to P5) or written out from the tables of 30_encoding.md; the witnesses
at the end show that the hypotheses of every statement can be met, clause by clause. -/

namespace Sys2Proof.Tests

-- one theorem after another, so that the package as one text compiles in few threads
set_option Elab.async false

open Sys2Proof.Machine

/-! ## Helpers -/

/-- What a next state holds, none where there is no next state. -/
def peek {α : Type} (r : Result) (f : State → α) : Option α :=
  match r with
  | .next t => some (f t)
  | .fault _ => none
  | .refused _ => none

/-- What the decoder reads. -/
def decoded (ws : List Word) : Option Instr :=
  match decodeOp ws with
  | .ok i => some i
  | .error _ => none

/-- Why the decoder rejects. -/
def rejected (ws : List Word) : Option Reject :=
  match decodeOp ws with
  | .ok _ => none
  | .error e => some e

/-- The responses after one step on words presented at a port, from reset. -/
def answers (p : Port) (ws : List Word) : Option (List Response) :=
  peek (step { State.reset with inq := [.op p ws] }) fun t => t.out.rsq

/-- A bare status at a port. -/
def bare (p : Port) (st : Status) : Response := ⟨p, none, st, [], []⟩

/-- RUNNING with RDS V1. -/
def running : State :=
  { State.reset with eng := { State.reset.eng with run := .running }, cr := { State.reset.cr with rdsMode := .v1 } }

/-- The same with PI 0x1234 tracked. -/
def tracked : State := { running with rds := { running.rds with pi := some 0x1234#16 } }

/-- A seek in progress at 98.2 MHz over the FM band. -/
def seeking : State :=
  { running with
    eng := { running.eng with
      freq := 98200000#32, seekActive := true, timerArmed := true, seekPre := 98100000#32, seekMin := 87500000#32,
      seekMax := 108000000#32, seekStep := 100000#32, seekToken := 7#32 }
    scan := { running.scan with scanning := true, threshold := .rat 0, token := 7#32 } }

/-- A ring buffer of eight samples with two frames in it, wrapping at the end (V5.2). -/
def wrapped : State :=
  { State.reset with
    params := { State.reset.params with arbCap := 8 }
    arb := ⟨[(0, .rat 7), (1, .rat 8), (6, .rat 5), (7, .rat 6)], 6, 2, 4, [.idle, .blocked 9#32]⟩ }

/-- The parameters of program P4, with both filters of length 2. -/
def p4 : Config :=
  { inputRate := 280000, fmRate := 140000, audioRate := 70000, hIn := [.rat (1/2), .rat (1/2)],
    hAud := [.rat (1/2), .rat (1/2)], deltaF := .prod (.rat 35000) (.recip .pi), arbCap := 8 }

/-- Program P4 before the second half of step 6: mono, the previous FM-rate sample `(1, 0)`. -/
def p4Mid : State :=
  { State.resetOf p4 with
    eng := { (State.resetOf p4).eng with run := .running }
    cr := { (State.resetOf p4).cr with mode := .mono }
    dem := { (State.resetOf p4).dem with
      inDl := [⟨.rat 0, .rat 1⟩, ⟨.rat 1, .rat 0⟩], inPh := 1, peak := .rat 1, peakCnt := 1,
      zPrev := ⟨.rat 1, .rat 0⟩, audPh := 1 } }

/-! ## WellFormed: each check refuses an ill-formed operation -/

theorem test_wf_seek_infinite : (Instr.seek 0x7F800000#32 0#32 1#32 1#32 1#32 1#32).wellFormed = false := by decide
theorem test_wf_setsquelch_nan : (Instr.setsquelch true 0x7FC00000#32).wellFormed = false := by decide
theorem test_wf_sample_i : (Instr.sample 0xFF800000#32 0#32).wellFormed = false := by decide
theorem test_wf_sample_q : (Instr.sample 0#32 0x7F800001#32).wellFormed = false := by decide
theorem test_wf_scanstart_nan : (Instr.scanstart 0xFFC00000#32 7#32).wellFormed = false := by decide
theorem test_wf_scanfeed_q : (Instr.scanfeed 0#32 0x7F800000#32).wellFormed = false := by decide
theorem test_wf_write_odd : (Instr.write [0#32, 0#32, 0#32]).wellFormed = false := by decide
theorem test_wf_write_nan : (Instr.write [0#32, 0x7FC00000#32]).wellFormed = false := by decide
theorem test_wf_write_long (ws : List Word) (h : ws.length = 65536) : (Instr.write ws).wellFormed = false := by
  simp [Instr.wellFormed, writeWellFormed, h]
theorem test_wf_largest_finite : (Instr.setsquelch false 0x7F7FFFFF#32).wellFormed = true := by decide

/-! ## Decoding: words written out from the tables of R125 to R135 -/

theorem test_dec_start : decoded [0x01000000#32] = some .start := by decide
theorem test_dec_stop : decoded [0x02000000#32] = some .stop := by decide
theorem test_dec_tune : decoded [0x10000000#32, 0x05D8E320#32] = some (.tune 98100000#32) := by decide
theorem test_dec_getfreq : decoded [0x11000000#32] = some .getfreq := by decide
theorem test_dec_seek : decoded [0x12000000#32, 0x41200000#32, 0x053724E0#32, 0x066FF300#32, 0x000186A0#32, 0x64#32, 7#32] =
    some (.seek 0x41200000#32 87500000#32 108000000#32 100000#32 100#32 7#32) := by decide
theorem test_dec_cancelseek : decoded [0x13000000#32] = some .cancelseek := by decide
theorem test_dec_setchan : decoded [0x20000004#32] = some (.setchan .diff) ∧ decoded [0x20000002#32] = some (.setchan .right) := by
  decide
theorem test_dec_setdeemph : decoded [0x21000002#32] = some (.setdeemph .t75) ∧ decoded [0x21000000#32] = some (.setdeemph .flat) := by
  decide
theorem test_dec_setsquelch : decoded [0x22000001#32, 0x3F000000#32] = some (.setsquelch true 0x3F000000#32) ∧
    decoded [0x22000000#32, 0#32] = some (.setsquelch false 0#32) := by decide
theorem test_dec_setgain : decoded [0x23000000#32, 3#32] = some (.setgain 3#32) := by decide
theorem test_dec_setrdsmode : decoded [0x24000002#32] = some (.setrdsmode .v2) := by decide
theorem test_dec_setmode : decoded [0x25000000#32] = some (.setmode .mono) ∧ decoded [0x25000001#32] = some (.setmode .stereo) := by
  decide
theorem test_dec_read : decoded [0x40000001#32, 4#32] = some (.read 1#16 4#32) := by decide
theorem test_dec_waiting : decoded [0x41000000#32] = some .waiting := by decide
theorem test_dec_cancel : decoded [0x42000000#32] = some .cancel := by decide
theorem test_dec_flush : decoded [0x43000000#32] = some .flush := by decide
theorem test_dec_sample : decoded [0x80000000#32, 0x3F800000#32, 0xBF800000#32] = some (.sample 0x3F800000#32 0xBF800000#32) := by
  decide
theorem test_dec_group : decoded [0x81000000#32, 0x12340001#32, 0x00004449#32] = some (.group 0x12340001#32 0x4449#32) := by decide
theorem test_dec_tick : decoded [0x82000000#32] = some .tick := by decide
theorem test_dec_timeout : decoded [0x83000001#32] = some (.timeout 1#16) := by decide
theorem test_dec_freqchg : decoded [0x84000000#32, 0x0609B720#32] = some (.freqchg 101300000#32) := by decide
theorem test_dec_wake : decoded [0x85000001#32] = some (.wake 1#16) := by decide
theorem test_dec_write : decoded [0x90000002#32, 0x3F000000#32, 0xBF000000#32] = some (.write [0x3F000000#32, 0xBF000000#32]) := by
  decide
theorem test_dec_scanstart : decoded [0x91000000#32, 0x41200000#32, 7#32] = some (.scanstart 0x41200000#32 7#32) := by decide
theorem test_dec_scanstop : decoded [0x92000000#32] = some .scanstop := by decide
theorem test_dec_scanq : decoded [0x93000000#32] = some .scanq := by decide
theorem test_dec_scanfeed : decoded [0x94000000#32, 0x3F800000#32, 0#32] = some (.scanfeed 0x3F800000#32 0#32) := by decide
theorem test_dec_rdsreset : decoded [0x95000000#32] = some .rdsreset := by decide

-- pi 0x1234; type, version, tp, pty in bits 47..37; the rest of block B in bits 36..32 (R130, R131)
theorem test_dec_gB : decodeGroup 0x12342D75ABCD4142#64 = .rdsGB 0x1234#16 2#4 1#1 0xB#5 0x15#5 0xABCD#16 0x4142#16 := by decide
theorem test_dec_g0A : decodeGroup 0x1234057ECAFE5241#64 = .rdsG0A 0x1234#16 1#1 0xB#5 7#3 2#2 0xCAFE#16 0x52#8 0x41#8 := by decide
theorem test_dec_g1A : decodeGroup 0x1234142100010002#64 = .rdsG1A 0x1234#16 1#1 1#5 1#5 1#16 2#16 := by decide
theorem test_dec_g2A : decodeGroup 0x123420114E455753#64 =
    .rdsG2A 0x1234#16 0#1 0#5 1#1 1#4 0x4E#8 0x45#8 0x57#8 0x53#8 := by decide
theorem test_dec_g3A : decodeGroup 0x1234304300010002#64 = .rdsG3A 0x1234#16 0#1 2#5 3#5 1#16 2#16 := by decide
-- V2.12: day 60000, hour 13, minute 45
theorem test_dec_g4A : decodeGroup 0x12344001D4C0DB40#64 = .rdsG4A 0x1234#16 0#1 0#5 0#3 60000#17 13#5 45#6 0#6 := by decide
theorem test_dec_g5A : decodeGroup 0x1234505F00010002#64 = .rdsG5A 0x1234#16 0#1 2#5 0x1F#5 1#16 2#16 := by decide
theorem test_dec_g6A : decodeGroup 0x1234648000010002#64 = .rdsG6A 0x1234#16 1#1 4#5 0#5 1#16 2#16 := by decide
theorem test_dec_g7A : decodeGroup 0x1234700800010002#64 = .rdsG7A 0x1234#16 0#1 0#5 8#5 1#16 2#16 := by decide
-- V2.13: t 0, f 1, event 101, location 8000
theorem test_dec_g8A : decodeGroup 0x1234800800651F40#64 =
    .rdsG8A 0x1234#16 0#1 0#5 0#1 1#1 0#3 0#1 0#1 0#3 101#11 8000#16 := by decide
theorem test_dec_g9A : decodeGroup 0x1234900100010002#64 = .rdsG9A 0x1234#16 0#1 0#5 1#5 1#16 2#16 := by decide
theorem test_dec_g10A : decodeGroup 0x1234A00200010002#64 = .rdsG10A 0x1234#16 0#1 0#5 2#5 1#16 2#16 := by decide
theorem test_dec_g11A : decodeGroup 0x1234B00300010002#64 = .rdsG11A 0x1234#16 0#1 0#5 3#5 1#16 2#16 := by decide
theorem test_dec_g12A : decodeGroup 0x1234C00400010002#64 = .rdsG12A 0x1234#16 0#1 0#5 4#5 1#16 2#16 := by decide
theorem test_dec_g13A : decodeGroup 0x1234D00500010002#64 = .rdsG13A 0x1234#16 0#1 0#5 5#5 1#16 2#16 := by decide
theorem test_dec_g14A : decodeGroup 0x1234E00600010002#64 = .rdsG14A 0x1234#16 0#1 0#5 6#5 1#16 2#16 := by decide
theorem test_dec_g15A : decodeGroup 0x1234F00000000000#64 = .rdsG15A 0x1234#16 0#1 0#5 0#5 0#16 0#16 := by decide

/-! ## Refusals (V6.7) -/

theorem test_rej_unassigned : rejected [0x03000000#32] = some .unassigned ∧ rejected [0xA0000000#32] = some .unassigned := by decide
theorem test_rej_reserved : rejected [0x20010001#32] = some .reserved := by decide
theorem test_rej_immediate : rejected [0x01000001#32] = some .immediate := by decide
theorem test_rej_enumeration : rejected [0x20000005#32] = some .enumeration ∧ rejected [0x21000003#32] = some .enumeration ∧
    rejected [0x24000003#32] = some .enumeration ∧ rejected [0x25000002#32] = some .enumeration := by decide
theorem test_rej_squelch_bits : rejected [0x22000002#32, 0x3F000000#32] = some .squelchBits := by decide
theorem test_rej_nan : rejected [0x22000001#32, 0x7FC00000#32] = some .nonFinite := by decide
theorem test_rej_stream_nan : rejected [0x80000000#32, 0x7FC00000#32, 0#32] = some .nonFiniteStream := by decide
theorem test_rej_header_first : rejected [0x94000001#32, 0x7FC00000#32, 0#32] = some .immediate ∧
    rejected [0x94010000#32, 0x7FC00000#32, 0#32] = some .reserved := by decide
theorem test_rej_odd : rejected [0x90000001#32, 0#32] = some .oddCount := by decide
theorem test_rej_truncated : rejected [0x10000000#32] = some .truncated := by decide
theorem test_port_sample_at_cp : answers .cp [0x80000000#32, 0x3F800000#32, 0#32] = some [bare .cp .errOp] := by decide +kernel
theorem test_port_write_at_ap : answers .ap [0x90000002#32, 0#32, 0#32] = some [bare .ap .errOp] := by decide +kernel
theorem test_port_tune_at_ap : answers .ap [0x10000000#32, 0x05D8E320#32] = some [bare .ap .errOp] := by decide +kernel
theorem test_port_cancel_at_cp : answers .cp [0x42000000#32] = some [bare .cp .ok] := by decide +kernel
theorem test_port_errop_first : answers .cp [0x03010000#32] = some [bare .cp .errOp] := by decide +kernel
theorem test_port_reader_range : answers .ap [0x40000002#32, 1#32] = some [bare .ap .errArg] := by decide +kernel
theorem test_port_stream_silent : answers .sp [0x82000000#32] = some [] := by decide +kernel

/-! ## Output words (P1, P3) -/

theorem test_event_words : (Event.labelChange [0x52#8, 0x41#8, 0x20#8, 0x20#8, 0x20#8, 0x20#8, 0x20#8, 0x20#8]).words =
    [0x02000000#32, 0x52412020#32, 0x20202020#32] := by decide
theorem test_event_station : (Event.stationFound 87500000#32 7#32).words = [0x07000000#32, 0x053724E0#32, 7#32] := by decide
theorem test_f32_word : f32Word (.rat (9/64)) = 0x3E100000#32 ∧ f32Word (.rat (-1/16)) = 0xBD800000#32 := by decide +kernel
theorem test_f32_negative_zero : f32Word (.rat (mkRat (-1) (2 ^ 151))) = 0x80000000#32 ∧ f32Word (.rat 0) = 0#32 := by decide +kernel
theorem test_f32_ties_even : f32Word (.rat (16777217 : Rat)) = 0x4B800000#32 ∧ f32Word (.rat (16777219 : Rat)) = 0x4B800002#32 := by
  decide +kernel

/-! ## ENG (S1, S2, S7, V6) -/

theorem test_start : peek (exec .start State.reset) (fun t => (t.eng.run, t.out.fpq)) = some (.running, [.start]) := by decide
theorem test_start_again : peek (exec .start running) (fun t => (t.eng.run, t.out.fpq)) = some (.running, []) := by decide
theorem test_stop : peek (exec .stop running) (fun t => (t.eng.run, t.out.fpq)) = some (.paused, [.stop]) := by decide
theorem test_stop_idle : peek (exec .stop State.reset) (fun t => (t.eng.run, t.out.fpq)) = some (.idle, []) := by decide
theorem test_tune : peek (exec (.tune 98100000#32) State.reset) (fun t => (t.eng.freq, t.out.fpq, t.out.evq)) =
    some (98100000#32, [.setFreq 98100000#32], [.freqChanged 98100000#32, .labelClear, .textClear]) := by decide
theorem test_getfreq : peek (exec .getfreq seeking) (fun t => t.out.rsq.map (·.counts)) = some [[98200000#32]] := by decide
theorem test_seek_wraps_up :
    peek (exec (.seek 0x41A00000#32 87500000#32 108000000#32 100000#32 100#32 1#32)
      { State.reset with eng := { State.reset.eng with freq := 108000000#32 } }) (fun t => (t.eng.freq, t.eng.seekPre)) =
    some (87500000#32, 108000000#32) := by decide
theorem test_seek_wraps_down :
    peek (exec (.seek 0x41A00000#32 87500000#32 108000000#32 0xFFFE7960#32 100#32 2#32)
      { State.reset with eng := { State.reset.eng with freq := 87500000#32 } }) (fun t => t.eng.freq) =
    some 108000000#32 := by decide
theorem test_advance_no_overflow : advance 4294967295#32 2147483647#32 0#32 4294967295#32 = 0#32 ∧
    advance 0#32 0x80000000#32 0#32 98100000#32 = 98100000#32 ∧ advance 107900000#32 100000#32 87500000#32 108000000#32 = 108000000#32 := by
  decide
theorem test_tick : peek (exec .tick seeking) (fun t => (t.eng.freq, t.out.evq)) =
    some (98300000#32, [.freqChanged 98300000#32]) := by decide
theorem test_tick_retires : peek (exec .tick { seeking with scan := State.reset.scan }) (fun t => (t.eng.freq, t.eng.timerArmed)) =
    some (98200000#32, false) := by decide
theorem test_cancelseek : peek (exec .cancelseek seeking) (fun t => (t.eng.freq, t.scan.scanning, t.eng.timerArmed, t.out.evq)) =
    some (98100000#32, false, false, [.freqChanged 98100000#32, .labelClear, .textClear]) := by decide
theorem test_cancelseek_idle : peek (exec .cancelseek State.reset) (fun t => (t.out.evq, t.out.fpq)) = some ([], []) := by decide
theorem test_freqchg : peek (exec (.freqchg 101300000#32) State.reset) (fun t => (t.eng.freq, t.out.evq, t.out.fpq)) =
    some (101300000#32, [.freqChanged 101300000#32], []) := by decide
theorem test_setmode : peek (exec (.setmode .mono) State.reset) (fun t => t.cr.mode) = some .mono := by decide
theorem test_setchan : peek (exec (.setchan .left) State.reset) (fun t => t.cr.chan) = some .left := by decide
theorem test_setdeemph : peek (exec (.setdeemph .t75) State.reset) (fun t => t.cr.deemph) = some .t75 := by decide
theorem test_setsquelch : peek (exec (.setsquelch true 0x3F000000#32) State.reset) (fun t => (t.cr.sqEn, t.cr.sqLevel)) =
    some (true, .rat (1/2)) := by decide +kernel
theorem test_setgain : peek (exec (.setgain 3#32) State.reset) (fun t => t.cr.att) = some 3#32 := by decide
theorem test_setrdsmode : peek (exec (.setrdsmode .v2) State.reset) (fun t => t.cr.rdsMode) = some .v2 := by decide

/-! ## ARB (P2, V5) -/

theorem test_write_truncates :
    peek (exec (.write [0x3F800000#32, 0x40000000#32, 0x40400000#32, 0x40800000#32])
      { wrapped with arb := ⟨[], 0, 6, 6, []⟩ })
      (fun t => (t.arb.store, t.arb.wr, t.arb.occ)) = some ([(6, .rat 1), (7, .rat 2)], 0, 8) := by decide +kernel
theorem test_write_odd_first : peek (exec (.write [0x7FC00000#32]) State.reset) (fun t => t.out.rsq) =
    some [bare .inside .errArg] ∧ peek (exec (.write [0#32, 0x7FC00000#32]) State.reset) (fun t => t.out.rsq) = some [] := by
  decide +kernel
theorem test_read_wraps : peek (exec (.read 0#16 2#32) wrapped) (fun t => (t.out.rsq.map (·.samples), t.arb.rd, t.arb.occ)) =
    some ([[.rat 5, .rat 6, .rat 7, .rat 8]], 2, 0) := by decide +kernel
theorem test_read_blocks : peek (exec (.read 0#16 2#32) State.reset) (fun t => (t.arb.readers, t.out.rsq)) =
    some ([.blocked 2#32, .idle], []) := by decide +kernel
theorem test_wake : peek (exec (.wake 1#16) wrapped) (fun t => (t.out.rsq.map (·.counts), t.arb.readers)) =
    some ([[2#32]], [.idle, .idle]) := by decide +kernel
theorem test_wake_cancelled : peek (exec (.wake 1#16) { wrapped with arb := { wrapped.arb with readers := [.idle, .cancelled] } })
    (fun t => (t.out.rsq.map (·.status), t.arb.occ)) = some ([.cancelled], 4) := by decide
theorem test_timeout : peek (exec (.timeout 1#16) { wrapped with arb := { wrapped.arb with occ := 0, rd := 2 } })
    (fun t => (t.out.rsq.map (·.counts), t.arb.readers)) = some ([[0#32]], [.idle, .idle]) := by decide
theorem test_timeout_with_data : peek (exec (.timeout 1#16) wrapped) (fun t => (t.out.rsq.length, t.arb.readers)) =
    some (0, [.idle, .blocked 9#32]) := by decide
theorem test_cancel : peek (exec .cancel wrapped) (fun t => t.arb.readers) = some [.idle, .cancelled] := by decide
theorem test_waiting : peek (exec .waiting wrapped) (fun t => t.out.rsq.map (·.counts)) = some [[2#32]] := by decide
theorem test_flush : peek (exec .flush wrapped) (fun t => (t.arb.rd, t.arb.wr, t.arb.occ, t.arb.readers)) =
    some (2, 2, 0, [.idle, .blocked 9#32]) := by decide

/-! ## RDS (P1, V2) -/

theorem test_group_new_pi : peek (exec (.group 0x12340000#32 0x00005241#32) running) (fun t => (t.rds.pi, t.rds.labelMask, t.out.evq)) =
    some (some 0x1234#16, 1#4, [.labelClear, .textClear,
      .labelChange [0x52#8, 0x41#8, 0x20#8, 0x20#8, 0x20#8, 0x20#8, 0x20#8, 0x20#8]]) := by decide
theorem test_group_off : peek (exec (.group 0x12340000#32 0x00005241#32) { running with cr := State.reset.cr })
    (fun t => (t.rds.pi, t.out.evq)) = some (none, []) := by decide
theorem test_g0A_completes :
    peek (exec (.rdsG0A 0x1234#16 0#1 0#5 0#3 3#2 0#16 0x20#8 0x20#8) { tracked with rds := { tracked.rds with labelMask := 7#4 } })
      (fun t => (t.rds.labelMask, t.out.evq.map Event.isLabelComplete)) = some (0#4, [true]) := by decide
theorem test_g0A_restarts :
    peek (exec (.rdsG0A 0x1234#16 0#1 0#5 0#3 0#2 0#16 0x41#8 0x42#8) { tracked with rds := { tracked.rds with labelMask := 0xE#4 } })
      (fun t => (t.rds.labelMask, t.rds.labelChars.take 3)) = some (1#4, [0x41#8, 0x42#8, 0x20#8]) := by decide
theorem test_g2A_flip :
    peek (exec (.rdsG2A 0x1234#16 0#1 0#5 1#1 1#4 0x4E#8 0x45#8 0x57#8 0x53#8)
      { tracked with rds := { tracked.rds with lastAb := some false, textMask := 1#16, text := [(0, 0x48#8), (1, 0x45#8)] } })
      (fun t => (t.rds.textMask, t.rds.text, t.out.evq.length)) =
    some (2#16, [(4, 0x4E#8), (5, 0x45#8), (6, 0x57#8), (7, 0x53#8)], 2) := by decide
theorem test_g2A_terminator :
    peek (exec (.rdsG2A 0x1234#16 0#1 0#5 0#1 0#4 0x4F#8 0x4B#8 0x0D#8 0x20#8) tracked)
      (fun t => (t.rds.textMask, t.rds.text, t.out.evq.map fun e => e.words.take 2)) =
    some (0#16, [], [[0x05000000#32, 0x4F4B0D20#32], [0x06000000#32, 0x4F4B0D20#32]]) := by decide
theorem test_g4A_minute_out_of_range :
    peek (exec (.rdsG4A 0x1234#16 0#1 0#5 0#3 60000#17 13#5 63#6 0#6) tracked)
      (fun t => (t.rds.clkDay, t.rds.clkHour, t.rds.clkMin)) = some (60000#17, 13#5, 0#6) := by decide
theorem test_g8A_accepted : tmcAccepted {} 0#1 1#1 101#11 8000#16 = true ∧ tmcAccepted {} 1#1 1#1 101#11 8000#16 = false ∧
    tmcAccepted {} 0#1 0#1 101#11 8000#16 = false ∧ tmcAccepted {} 0#1 1#1 0#11 8000#16 = false := by decide
theorem test_gB_adopts_pi : peek (exec (.rdsGB 0x5678#16 2#4 0#1 0#5 0#5 0#16 0#16) tracked) (fun t => (t.rds.pi, t.out.evq)) =
    some (some 0x5678#16, [.labelClear, .textClear]) := by decide
theorem test_g1A_ignored : peek (exec (.rdsG1A 0x1234#16 0#1 0#5 0#5 0#16 0#16) tracked) (fun t => t.out.evq) = some [] := by decide
theorem test_rdsreset_keeps_ab : peek (exec .rdsreset { tracked with rds := { tracked.rds with lastAb := some true, clkHour := 13#5 } })
    (fun t => (t.rds.pi, t.rds.lastAb, t.rds.clkHour)) = some (none, some true, 13#5) := by decide

/-! ## SCAN (V4) -/

/-- The block STRONG1 of 95_test_vectors.md, section 4. -/
def strong1 : List (Nat × Cplx) :=
  [(0, ⟨.rat 2, .rat 0⟩), (1, ⟨.rat 0, .rat 1⟩), (2, ⟨.rat (-1), .rat 0⟩), (3, ⟨.rat 0, .rat (-1)⟩),
   (4, ⟨.rat 1, .rat 0⟩), (5, ⟨.rat 0, .rat 1⟩), (6, ⟨.rat (-1), .rat 0⟩), (7, ⟨.rat 0, .rat (-1)⟩)]

theorem test_dft_strong1 : dftBin {} strong1 2 = ⟨.rat 9, .rat 0⟩ ∧ dftBin {} strong1 6 = ⟨.rat 1, .rat 0⟩ := by decide +kernel
theorem test_bins : sigBins { sigLo := 1, sigHi := 1, nFft := 8 } = [1, 7] ∧ noiseBins {} = [3, 5] := by decide
theorem test_accumulate : accumulate {} 98200000#32 (.rat 3) [⟨98200000#32, .rat 2, 1⟩] = [⟨98200000#32, .rat 5, 2⟩] ∧
    accumulate {} 98300000#32 (.rat 3) [⟨98200000#32, .rat 2, 1⟩] = [⟨98200000#32, .rat 2, 1⟩, ⟨98300000#32, .rat 3, 1⟩] := by
  decide +kernel
/-- Candidates with the given averages. -/
def withAverages (l : List Rat) : List Candidate := l.map fun q => ⟨0#32, .rat q, 1⟩
theorem test_winner_even : winnerIndex {} (withAverages [12, 15]) = 1 ∧ winnerIndex {} (withAverages [15, 12]) = 0 ∧
    winnerIndex {} (withAverages [15, 15]) = 0 ∧ winnerIndex {} (withAverages [12, 15, 18, 11]) = 2 ∧
    winnerIndex {} (withAverages [12, 15, 15, 11]) = 1 := by decide +kernel
theorem test_winner_odd : winnerIndex {} (withAverages [12]) = 0 ∧ winnerIndex {} (withAverages [1, 2, 3, 4, 5]) = 2 := by decide +kernel
theorem test_scanstart : peek (exec (.scanstart 0x41200000#32 7#32) seeking)
    (fun t => (t.scan.scanning, t.scan.threshold, t.scan.token, t.scan.blkIdx)) = some (true, .rat 10, 7#32, 0) := by decide +kernel
theorem test_scanstop : peek (exec .scanstop { seeking with scan := { seeking.scan with cand := [⟨98100000#32, .rat 25, 1⟩] } })
    (fun t => (t.scan.scanning, t.scan.cand.length, t.out.evq)) = some (false, 0, []) := by decide
theorem test_scanq : peek (exec .scanq seeking) (fun t => t.out.rsq.map (·.counts)) = some [[1#32]] := by decide
theorem test_scanfeed : peek (exec (.scanfeed 0x3F000000#32 0#32) { seeking with scan := { seeking.scan with blkIdx := 6 } })
    (fun t => (t.scan.blk, t.scan.blkIdx)) = some ([(6, ⟨.rat (1/2), .rat 0⟩)], 7) := by decide +kernel

/-! ## DEMOD (V1, P4, P5) -/

theorem test_sample_decimates :
    peek (exec (.sample 0x40400000#32 0#32) { p4Mid with dem := { p4Mid.dem with inDl := [⟨.rat 1, .rat 0⟩, Cplx.zero] } })
      (fun t => (t.dem.inDl, t.dem.inPh, t.dem.zPrev)) =
    some ([⟨.rat 3, .rat 0⟩, ⟨.rat 1, .rat 0⟩], 0, ⟨.rat 2, .rat 0⟩) := by decide +kernel
theorem test_sample_p4_step6 :
    peek (exec (.sample 0#32 0x3F800000#32) p4Mid) (fun t => (t.dem.deS, t.arb.store, t.arb.occ)) =
    some (.rat (1/16), [(0, .rat (1/32)), (1, .rat (1/32))], 2) := by decide +kernel
theorem test_gain : (gainUpdate { maxDev := .rat 2 } { p4Mid.dem with peak := .rat 4 }).gainAvg = .rat (9/10) ∧
    (gainUpdate { maxDev := .rat 2 } { p4Mid.dem with peak := .rat 40, gainAvg := .rat (9/10) }).gainAvg = .rat (37/50) ∧
    (gainUpdate { maxDev := .rat 2 } { p4Mid.dem with peak := .rat 0, gainAvg := .rat (37/50) }).gainAvg = .rat (153/250) := by
  decide +kernel
theorem test_scale_k : scaleK p4 = .rat 2 := by decide +kernel
theorem test_discriminator : refFmDemod {} (.rat 2) ⟨.rat 0, .rat 1⟩ ⟨.rat 1, .rat 0⟩ = .rat (1/2) ∧
    refFmDemod {} (.rat 2) ⟨.rat 1, .rat 0⟩ ⟨.rat 0, .rat 1⟩ = .rat (-1/2) ∧
    refFmDemod {} (.rat 2) Cplx.zero ⟨.rat 1, .rat 0⟩ = .rat 0 := by decide +kernel
theorem test_alpha : deemphAlpha p4 .t50 = .rat (1/8) ∧ deemphAlpha p4 .t75 = .rat (2/23) := by decide +kernel
theorem test_pilot : pilotFound {} (.rat (1/5)) (.rat (1/10)) = true ∧ pilotFound {} (.rat (1412/10000)) (.rat (1/10)) = false ∧
    pilotFound {} (.rat 0) (.rat 0) = false ∧ pilotFound {} (.rat (1/1000)) (.rat 0) = true := by decide +kernel
theorem test_mixer : diffRaw { pilot := .constant (.rat 0) (.rat 0) (.rat 0) } p4Mid.dem.pt (.rat (1/4)) = .rat (1/2) ∧
    diffRaw { pilot := .constant (.rat 0) (.rat 0) (.prod (.rat (1/2)) .pi) } p4Mid.dem.pt (.rat (1/4)) = .rat (-1/2) := by
  decide +kernel
/-- A margin of 20 dB is a factor of ten (R181). -/
theorem test_pilot_margin : pilotFound { pilotMarginDb := .rat 20 } (.rat (11/10)) (.rat (1/10)) = true ∧
    pilotFound { pilotMarginDb := .rat 20 } (.rat (9/10)) (.rat (1/10)) = false := by decide +kernel
theorem test_matrix : matrix {} .stereo (.rat (1/2)) (.rat (1/4)) = ⟨.rat (3/4), .rat (1/4)⟩ ∧
    matrix {} .right (.rat (1/2)) (.rat (1/4)) = ⟨.rat (1/4), .rat (1/4)⟩ ∧
    matrix {} .left (.rat (1/2)) (.rat (1/4)) = ⟨.rat (3/4), .rat (3/4)⟩ ∧
    matrix {} .diff (.rat (1/2)) (.rat (1/4)) = ⟨.rat (1/4), .rat (1/4)⟩ := by decide +kernel
theorem test_squelch : squelched true (.rat (1/2)) (.rat (1/2)) = false ∧ squelched true (.rat (51/100)) (.rat (1/2)) = true ∧
    squelched false (.rat 100) (.rat (1/2)) = false := by decide +kernel

/-- The reference `H_AUD` is the mean of `R_AUD` frames (R204); the defaults that follow the rates (R6, R8). -/
theorem test_default_filter : ({ fmRate := 16, audioRate := 8 } : Config).hAud = [.rat (1/2), .rat (1/2)] ∧
    (({ fmRate := 17 } : Config).peakWindow : Nat) = 8 ∧ (({} : Config).rRds : Nat) = 8 := by decide +kernel

/-! ## Construction (V6.8) -/

theorem test_construct_rate : Config.failure { inputRate := 1000000, fmRate := 192000, audioRate := 48000 } false = some .rate ∧
    Config.failure { inputRate := 192000, fmRate := 192000, audioRate := 44100 } true = some .rate := by decide +kernel
theorem test_construct_source : Config.failure { inputRate := 1920000, fmRate := 192000, audioRate := 48000 } false = some .source := by
  decide +kernel
theorem test_construct_param : Config.failure { arbCap := 7 } true = some .param ∧ Config.failure { sigHi := 3 } true = some .param := by
  decide +kernel
theorem test_construct_ok : Config.failure { inputRate := 1920000, fmRate := 192000, audioRate := 48000 } true = none := by
  decide +kernel

/-! ## Witnesses: concrete states and operands that meet the hypotheses of the statements, clause by clause -/

theorem witness_DecodeInvertsEncode : (Instr.write [0x3F800000#32, 0x7F7FFFFF#32]).wellFormed = true := by decide

/-- `START` presented at CP, with a `TICK` behind it. -/
def pendingStart : State := { State.reset with inq := [.op .cp [0x01000000#32], .op .tk [0x82000000#32]] }

theorem witness_WrittenWordsDecode :
    ([0x52#8, 0x41#8, 0x44#8, 0x49#8, 0x4F#8, 0x20#8, 0x31#8, 0x20#8] : List Byte).length % 4 = 0 ∧
    (f32Finite 0x7F7FFFFF#32 = true ∧ f32Finite 0x7F800000#32 = false) ∧ (f32Finite 0x80000001#32 = true ∧ 0x80000001#32 ≠ 0x80000000#32) ∧
    |(3 / 2 : ℝ)| < 2 ^ 128 - 2 ^ 103 :=
  ⟨by decide, by decide, by decide, by norm_num⟩
theorem witness_StepRunsDecodedOperation :
    pendingStart.inq = .op .cp [0x01000000#32] :: [.op .tk [0x82000000#32]] ∧
    opLength 0x01000000#32 ≤ [0x01000000#32].length ∧ portAccepts .cp 0x01000000#32 = true ∧
    decodeOp [0x01000000#32] = .ok .start := ⟨rfl, by decide, by decide, rfl⟩
theorem witness_StepRunsDecodedOperation_group :
    ({ State.reset with inq := [.group 0x1234000000005241#64] } : State).inq = .group 0x1234000000005241#64 :: [] := rfl
theorem witness_EncodedOperationRuns :
    Instr.start.wellFormed = true ∧ encode .start = .op [0x01000000#32] ∧
    pendingStart.inq = .op (homePort 0x01000000#32) [0x01000000#32] :: [.op .tk [0x82000000#32]] :=
  ⟨rfl, by decide, by decide⟩
theorem witness_InternalOpcodesRefusedAtPorts :
    (Port.ap ≠ .inside ∧ opLength 0x90000002#32 ≤ [0x90000002#32, 0#32, 0#32].length ∧
      (opOf 0x90000002#32).toNat ∉ acceptedAt .ap) ∧
    (Port.cp ≠ .inside ∧ opLength 0x80000000#32 ≤ [0x80000000#32, 0#32, 0#32].length ∧
      (opOf 0x80000000#32).toNat ∉ acceptedAt .cp) ∧
    (Port.sp ≠ .inside ∧ opLength 0xB3000000#32 ≤ [0xB3000000#32].length ∧ (opOf 0xB3000000#32).toNat ∉ acceptedAt .sp) ∧
    ({ State.reset with inq := [.op .ap [0x90000002#32, 0#32, 0#32]] } : State).inq =
      .op .ap (0x90000002#32 :: [0#32, 0#32]) :: [] := by decide
theorem witness_ReservedBitsRefused :
    (opLength 0x20010001#32 ≤ [0x20010001#32].length ∧ portAccepts .cp 0x20010001#32 = true ∧ rsvOf 0x20010001#32 ≠ 0#8) ∧
    (opLength 0x82FF0000#32 ≤ [0x82FF0000#32].length ∧ portAccepts .tk 0x82FF0000#32 = true ∧ rsvOf 0x82FF0000#32 ≠ 0#8) ∧
    ({ State.reset with inq := [.op .cp [0x20010001#32]] } : State).inq = .op .cp [0x20010001#32] :: [] := by decide
/-- One word for each other clause of `MalformedWords`, at the boundary of its range, whole and at its port. -/
theorem witness_ReservedBitsRefused_clauses :
    ((opOf 0x01000001#32).toNat ∈ immMustBeZero ∧ immOf 0x01000001#32 ≠ 0#16) ∧ 4 < (immOf 0x20000005#32).toNat ∧
    2 < (immOf 0x21000003#32).toNat ∧ 2 < (immOf 0x24000003#32).toNat ∧ 1 < (immOf 0x25000002#32).toNat ∧
    (immOf 0x22000002#32).extractLsb' 1 15 ≠ 0#15 ∧ (immOf 0x90000001#32).toNat % 2 = 1 ∧
    (∃ w rest, [0x7F800000#32, 0#32] = w :: rest ∧ f32Finite w = false) ∧
    [0x01000001#32, 0x20000005#32, 0x21000003#32, 0x24000003#32, 0x25000002#32, 0x22000002#32].all (portAccepts .cp) ∧
    [0x90000001#32, 0x91000000#32].all (portAccepts .inside) :=
  ⟨by decide, by decide, by decide, by decide, by decide, by decide, by decide, ⟨_, _, rfl, by decide⟩, by decide, by decide⟩
theorem witness_ReservedBitsRefused_samples :
    (NonFiniteSamples 0x80000000#32 [0#32, 0x7FC00000#32] ∧ opLength 0x80000000#32 ≤ 3 ∧ portAccepts .sp 0x80000000#32 = true) ∧
    (NonFiniteSamples 0x90000002#32 [0#32, 0x7FC00000#32] ∧ opLength 0x90000002#32 ≤ 3 ∧
      portAccepts .inside 0x90000002#32 = true) := by
  unfold NonFiniteSamples
  decide

theorem paramsOk_default : ParamsOk {} := by
  refine ⟨by decide, by decide, ?_⟩
  constructor <;> simp <;> norm_num

theorem inv_pendingStart : Inv pendingStart :=
  ⟨paramsOk_default,
    ⟨by decide, by decide, by decide, by decide, by decide, by decide, by decide, spaceOk_nil _⟩,
    ⟨fun _ => rfl, trivial, fun _ h => (nomatch h), by decide, spaceOk_nil _⟩,
    ⟨fun h => (nomatch h), fun h => (nomatch h), fun h => (nomatch h)⟩,
    ⟨by decide, by decide, spaceOk_nil _, spaceOk_nil _, by decide, by decide⟩,
    ⟨by decide, by decide, by simp [pendingStart, State.reset, State.resetOf, Demod.reset], by decide,
      by simp [pendingStart, State.reset, State.resetOf, Demod.reset], by decide, by decide, by decide⟩,
    by
      intro d hd
      simp only [pendingStart, List.mem_cons, List.not_mem_nil, or_false] at hd
      rcases hd with rfl | rfl <;> simp [Delivery.AtPort]⟩

theorem witness_InvariantKeptByEveryStep : Inv pendingStart ∧ ∃ t, step pendingStart = .next t :=
  ⟨inv_pendingStart, _, rfl⟩
theorem witness_InvariantHoldsAtReset : ParamsOk { inputRate := 32, fmRate := 16, audioRate := 8, arbCap := 2 } := by
  refine ⟨by decide, by decide, ?_⟩
  constructor <;> simp <;> norm_num
theorem witness_HistoriesOnlyGrow : ∃ t, step pendingStart = .next t ∧ t.out.fpq = [.start] := ⟨_, rfl, rfl⟩
theorem witness_ConstructionCodes :
    Config.failure { inputRate := 1, fmRate := 1, audioRate := 1 } true = some .rate ∧
    Config.failure { inputRate := 2, fmRate := 2, audioRate := 2 } false = some .source ∧
    Config.failure { arbCap := 0 } true = some .param ∧ Config.failure { emaOld := .rat (9/10) } true = some .param ∧
    Config.failure { arbCap := 2 } true = none := by decide +kernel

theorem witness_StartRunsTheEngine : State.reset.eng.run ≠ .running ∧ running.eng.run = .running := by decide
theorem witness_StopPausesTheEngine : running.eng.run = .running ∧ State.reset.eng.run ≠ .running := by decide
theorem witness_GetfreqAnswersTheFrequency : ∃ t, exec (.tune 98100000#32) State.reset = .next t := ⟨_, rfl⟩
theorem witness_SettersWriteTheirRegister : f32Finite 0xFF7FFFFF#32 = true ∧ f32Finite 0xFF800000#32 = false := by decide
theorem witness_SeekOpensASession :
    (f32Finite 0x41A00000#32 = true ∧ (98100000#32 : Word).toNat ≤ (98100000#32 : Word).toNat) ∧
    f32Finite 0x7F800000#32 = false ∧ f32Finite 0xFFFFFFFF#32 = false ∧ (0#32 : Word).toNat < (1#32 : Word).toNat := by
  decide
theorem witness_AdvanceWrapsInItsRange :
    (10#32 : Word).toNat ≤ (20#32 : Word).toNat ∧
    (((20#32 : Word).toNat : Int) < (20#32 : Word).toNat + (1#32 : Word).toInt) ∧
    (((10#32 : Word).toNat : Int) + (0xFFFFFFFF#32 : Word).toInt < (10#32 : Word).toNat) ∧
    (((10#32 : Word).toNat : Int) ≤ (10#32 : Word).toNat + (0#32 : Word).toInt ∧
      ((20#32 : Word).toNat : Int) + (0#32 : Word).toInt ≤ (20#32 : Word).toNat) := by decide
theorem witness_TickAdvancesTheFrequency :
    (seeking.eng.timerArmed = true ∧ seeking.eng.seekActive = true ∧ seeking.scan.scanning = true) ∧
    (({ seeking with scan := State.reset.scan } : State).eng.timerArmed = true ∧
      ({ seeking with scan := State.reset.scan } : State).scan.scanning = false) ∧
    State.reset.eng.timerArmed = false := by decide
theorem witness_CancelseekRestoresTheFrequency : seeking.eng.seekActive = true ∧ State.reset.eng.seekActive = false := by decide

/-! ### SCAN -/

theorem witness_ScanSessionOpensAndCloses : f32Finite 0x00000001#32 = true ∧ f32Finite 0x7F800000#32 = false := by decide
theorem witness_ScanfeedStoresTheSample :
    f32Finite 0x3F800000#32 = true ∧ f32Finite 0x80000000#32 = true ∧ Memory.wf Cplx.zero strong1 = true ∧
    f32Finite 0xFFC00000#32 = false ∧ State.reset.scan.scanning = false ∧
    ({ seeking with scan := { seeking.scan with blk := strong1, blkIdx := 6 } } : State).scan.blkIdx + 1 ≠
      seeking.params.nFft := by decide +kernel

theorem mul_zero_cplx {c : Config} (hx : c.rnd = .exact) (z : Cplx) : Cplx.mul c Cplx.zero z = Cplx.zero := by
  have h : ∀ a : RNum, (RNum.rat 0).mul a = .rat 0 := by
    intro a
    unfold RNum.mul
    have hs : ∀ b : RNum, b.scale 0 = .rat 0 := by
      intro b
      cases b <;> simp [RNum.scale, RNum.join]
      all_goals (split <;> rfl)
    simpa [RNum.split] using hs a
  simp [Cplx.mul, Config.add_exact hx, Config.sub_exact hx, Config.mul_exact hx, Cplx.zero, h, RNum.sub, RNum.add, RNum.addTerm, RNum.split, RNum.join]

theorem dftBin_nil {c : Config} (hx : c.rnd = .exact) (k : Nat) : dftBin c [] k = Cplx.zero := by
  unfold dftBin
  induction List.range c.nFft with
  | nil => rfl
  | cons n l ih =>
    have h : dftTerm c [] k n = Cplx.zero := mul_zero_cplx hx _
    rw [List.foldr_cons, ih, h, Cplx.add, Config.add_exact hx, Config.add_exact hx]
    decide +kernel

/-- The ratio of the block ZERO is 0 (95_test_vectors.md, section 4). -/
theorem test_ratio_zero_block : ratioDb {} [] = .rat 0 := by
  have h : (sigBins {}).map (fun k => (dftBin {} [] k).abs {}) = (sigBins {}).map fun _ => Cplx.zero.abs {} := by
    simp only [dftBin_nil (c := {}) rfl]
  have h' : (noiseBins {}).map (fun k => (dftBin {} [] k).abs {}) = (noiseBins {}).map fun _ => Cplx.zero.abs {} := by
    simp only [dftBin_nil (c := {}) rfl]
  unfold ratioDb meanMagnitude
  rw [h, h']
  decide +kernel

/-- The last sample of a block of zeros, against threshold `thr`, with the given candidates. -/
def lastOfZeros (thr : RNum) (cand : List Candidate) : State :=
  { seeking with scan := { seeking.scan with threshold := thr, blkIdx := 7, cand := cand } }

theorem blockWith_zeros (thr : RNum) (cand : List Candidate) : blockWith (lastOfZeros thr cand) (f32Sample 0#32 0#32) = [] := by
  have h : f32Sample 0#32 0#32 = Cplx.zero := by decide +kernel
  rw [h]
  rfl

theorem witness_BlockEndThreeWay (q : Rat) (cand : List Candidate) :
    f32Finite 0#32 = true ∧ (lastOfZeros (.rat q) cand).scan.scanning = true ∧
    (lastOfZeros (.rat q) cand).scan.blkIdx + 1 = (lastOfZeros (.rat q) cand).params.nFft := ⟨by decide, rfl, rfl⟩
theorem witness_BlockEndThreeWay_above : (lastOfZeros (.rat (-1)) []).scan.threshold.toReal <
    (ratioDb (lastOfZeros (.rat (-1)) []).params (blockWith (lastOfZeros (.rat (-1)) []) (f32Sample 0#32 0#32))).toReal := by
  rw [blockWith_zeros]
  have h : ratioDb (lastOfZeros (.rat (-1)) []).params [] = .rat 0 := test_ratio_zero_block
  rw [h]
  simp [lastOfZeros]
theorem witness_BlockEndThreeWay_at (cand : List Candidate) :
    (ratioDb (lastOfZeros (.rat 0) cand).params (blockWith (lastOfZeros (.rat 0) cand) (f32Sample 0#32 0#32))).toReal ≤
      (lastOfZeros (.rat 0) cand).scan.threshold.toReal ∧ (lastOfZeros (.rat 0) cand).scan.cand = cand := by
  rw [blockWith_zeros]
  have h : ratioDb (lastOfZeros (.rat 0) cand).params [] = .rat 0 := test_ratio_zero_block
  rw [h]
  exact ⟨le_refl _, rfl⟩

theorem witness_AccumulateComparesTheLast :
    ({} : Config).rnd = .exact ∧ (⟨98200000#32, .rat 2, 1⟩ : Candidate).freq = 98200000#32 ∧ (⟨98200000#32, .rat 2, 1⟩ : Candidate).freq ≠ 98300000#32 := by
  decide
theorem witness_WinnerIsTheMiddle :
    ({} : Config).rnd = .exact ∧ withAverages [12] ≠ [] ∧ (withAverages [12]).length % 2 = 1 ∧ (withAverages [15, 15]).length % 2 = 0 := by decide
theorem witness_DftIsTheTransform : ({} : Config).rnd = .exact := rfl
theorem witness_RatioIsADifferenceOfLogs : ({} : Config).logMag = .reference ∧ ({} : Config).rnd = .exact ∧
    Config.sizesOk { sigLo := 1, sigHi := 2, noiseLo := 1, noiseHi := 1, nFft := 8 } = true := ⟨rfl, rfl, by decide⟩

/-! ### ARB -/

theorem arbInv_reset : ArbInv State.reset.params State.reset.arb :=
  ⟨by decide, by decide, by decide, by decide, by decide, by decide, by decide, spaceOk_nil _⟩

/-- The ring buffer of R290's example: six samples of eight in use, the next write at the end. -/
def nearlyFull : State :=
  { wrapped with arb := ⟨[(0, .rat 1), (5, .rat 2)], 0, 6, 6, [.idle, .cancelled]⟩ }

theorem arbInv_nearlyFull : ArbInv nearlyFull.params nearlyFull.arb :=
  ⟨by decide, by decide, by decide, by decide, by decide, by decide, by decide,
    ⟨by decide +kernel, by
      intro e he
      simp only [nearlyFull, List.mem_cons, List.not_mem_nil, or_false] at he
      rcases he with rfl | rfl <;> decide⟩⟩

theorem witness_WriteStoresWhatFits :
    Config.sizesOk nearlyFull.params = true ∧ ArbInv nearlyFull.params nearlyFull.arb ∧
    [0x3F800000#32, 0x40000000#32, 0x40400000#32, 0x40800000#32].all f32Finite = true ∧
    [0x3F800000#32, 0x40000000#32, 0x40400000#32, 0x40800000#32].length % 2 = 0 ∧
    nearlyFull.params.arbCap - nearlyFull.arb.occ = 2 ∧ [0x7FC00000#32].length % 2 = 1 ∧
    [0#32, 0x7FC00000#32].length % 2 = 0 ∧ [0#32, 0x7FC00000#32].all f32Finite = false :=
  ⟨by decide, arbInv_nearlyFull, by decide, by decide, by decide, by decide, by decide, by decide⟩
theorem witness_ReadDeliversTheOldestFrames :
    (¬ validReader wrapped 2#16 ∧ wrapped.arb.reader 1#16 ≠ .idle) ∧
    (validReader wrapped 1#16 ∧ validReader wrapped 0#16 ∧ wrapped.arb.reader 0#16 = .idle ∧ 0 < wrapped.arb.occ) ∧
    (validReader State.reset 1#16 ∧ State.reset.arb.reader 1#16 = .idle ∧ State.reset.arb.occ = 0) := by
  unfold validReader
  decide
theorem witness_WrittenFramesAreReadBack :
    Config.sizesOk State.reset.params = true ∧ ArbInv State.reset.params State.reset.arb ∧ State.reset.arb.occ = 0 ∧
    validReader State.reset 1#16 ∧ State.reset.arb.reader 1#16 = .idle ∧ [0x3F000000#32, 0xBF000000#32].all f32Finite = true ∧
    [0x3F000000#32, 0xBF000000#32].length % 2 = 0 ∧ 0 < [0x3F000000#32, 0xBF000000#32].length ∧
    [0x3F000000#32, 0xBF000000#32].length ≤ State.reset.params.arbCap ∧
    [0x3F000000#32, 0xBF000000#32].length ≤ 2 * (1#32 : Word).toNat ∧
    ∃ t, exec (.write [0x3F000000#32, 0xBF000000#32]) State.reset = .next t :=
  ⟨by decide, arbInv_reset, rfl, by unfold validReader; decide, by decide, by decide, by decide, by decide, by decide, by decide,
    _, rfl⟩
/-- Both readers blocked on an empty buffer. -/
def starved : State := { State.reset with arb := { State.reset.arb with readers := [.blocked 1#32, .blocked 0xFFFFFFFF#32] } }
theorem witness_WakeEndsAnOutstandingRead :
    ¬ validReader wrapped 2#16 ∧
    (validReader wrapped 1#16 ∧ wrapped.arb.reader 1#16 = .blocked 9#32 ∧ 0 < wrapped.arb.occ ∧ wrapped.arb.reader 0#16 = .idle) ∧
    (validReader nearlyFull 1#16 ∧ nearlyFull.arb.reader 1#16 = .cancelled) ∧
    (validReader starved 1#16 ∧ starved.arb.reader 1#16 = .blocked 0xFFFFFFFF#32 ∧ starved.arb.occ = 0) := by
  unfold validReader
  decide
theorem witness_TimeoutEndsABlockedRead :
    ¬ validReader starved 2#16 ∧
    (validReader starved 0#16 ∧ starved.arb.reader 0#16 = .blocked 1#32 ∧ starved.arb.occ = 0) ∧
    (validReader wrapped 1#16 ∧ wrapped.arb.reader 1#16 = .blocked 9#32 ∧ 0 < wrapped.arb.occ) ∧
    (validReader nearlyFull 1#16 ∧ nearlyFull.arb.reader 1#16 = .cancelled ∧ nearlyFull.arb.reader 0#16 = .idle) := by
  unfold validReader
  decide
theorem witness_CancelMarksBlockedReaders :
    starved.arb.reader 1#16 = .blocked 0xFFFFFFFF#32 ∧ nearlyFull.arb.reader 1#16 = .cancelled ∧
    nearlyFull.arb.reader 0#16 = .idle ∧ (∃ u, exec .cancel starved = .next u) := ⟨by decide, by decide, by decide, _, rfl⟩

/-! ### RDS -/

theorem groupsOn_tracked : GroupsOn tracked := by unfold GroupsOn; decide
theorem witness_GroupsAreGated : ¬ GroupsOn State.reset ∧ ¬ GroupsOn { running with cr := State.reset.cr } := by
  unfold GroupsOn
  decide
theorem witness_IgnoredGroupsChangeNothing : GroupsOn tracked ∧ tracked.rds.pi = some 0x1234#16 := ⟨groupsOn_tracked, rfl⟩
theorem witness_NewPiClearsFirst : GroupsOn tracked ∧ tracked.rds.pi ≠ some (gPi 0x0000000000005241#64) :=
  ⟨groupsOn_tracked, by decide⟩
theorem witness_LabelSegmentIsStored :
    GroupsOn tracked ∧ tracked.rds.pi = some 0x1234#16 ∧ Memory.wf 0x20#8 tracked.rds.label = true := ⟨groupsOn_tracked, rfl, rfl⟩
theorem witness_TextFragmentIsStored :
    GroupsOn tracked ∧ tracked.rds.pi = some 0x1234#16 ∧ Memory.wf 0x20#8 tracked.rds.text = true ∧
    false = decide (tracked.rds.lastAb = some (!(1#1 : BitVec 1).getLsbD 0)) ∧
    0x8000#16 = (if false then 0#16 else tracked.rds.textMask) ||| (1#16 <<< (15#4 : BitVec 4).toNat) ∧
    true = (decide (0x41#8 = tracked.params.textEnd) || decide (0x41#8 = tracked.params.textEnd) ||
      decide (0x41#8 = tracked.params.textEnd) || decide (0x0D#8 = tracked.params.textEnd) || decide (0x8000#16 = 0xFFFF#16)) :=
  ⟨groupsOn_tracked, rfl, rfl, by decide, by decide, by decide⟩
theorem witness_ClockFieldsAreStored : GroupsOn tracked ∧ tracked.rds.pi = some 0x1234#16 ∧ (23#5 : BitVec 5).toNat ≤ 23 ∧
    ¬ (24#5 : BitVec 5).toNat ≤ 23 ∧ (59#6 : BitVec 6).toNat ≤ 59 ∧ ¬ (60#6 : BitVec 6).toNat ≤ 59 :=
  ⟨groupsOn_tracked, rfl, by decide, by decide, by decide, by decide⟩
theorem witness_FourSegmentsCompleteTheLabel :
    GroupsOn tracked ∧ tracked.rds.pi = some 0x1234#16 ∧ Memory.wf 0x20#8 tracked.rds.label = true := ⟨groupsOn_tracked, rfl, rfl⟩
theorem witness_GroupEmitsAtMostFive : ∃ t, exec (.group 0x12340000#32 0x00005241#32) running = .next t ∧ t.out.evq.length = 3 :=
  ⟨_, rfl, by decide⟩

/-! ### DEMOD -/

theorem witness_SampleWithinTheDecimation :
    State.reset.eng.run ≠ .running ∧ f32Finite 0x7F800000#32 = false ∧ f32Finite 0x3F800000#32 = true ∧
    ({ p4Mid with dem := { p4Mid.dem with inPh := 0 } } : State).eng.run = .running ∧
    (({ p4Mid with dem := { p4Mid.dem with inPh := 0 } } : State).dem.inPh + 1) % p4Mid.params.rIn ≠ 0 := by decide
theorem witness_SampleCompletesAndItsFrame :
    (f32Finite 0x3F800000#32 = true ∧ f32Finite 0#32 = true ∧ p4Mid.eng.run = .running ∧ p4Mid.scan.scanning = false) ∧
    (Memory.wf (.rat 0) p4Mid.arb.store = true ∧ writeCount p4Mid.params p4Mid.arb 2 = 2 ∧ p4Mid.arb.wr = 0 ∧
      p4Mid.params.arbCap = 8) ∧
    (Memory.wf Cplx.zero seeking.scan.blk = true ∧ seeking.eng.run = .running ∧ 1 ≠ seeking.scan.blkIdx) := by
  decide +kernel
theorem witness_ScanningSilencesTheDemodulator :
    (f32Finite 0#32 = true ∧ seeking.eng.run = .running ∧ (seeking.dem.inPh + 1) % seeking.params.rIn = 0 ∧
      (∃ t, exec (.sample 0#32 0#32) seeking = .next t) ∧ seeking.scan.scanning = true ∧ 0 ≤ seeking.dem.peak.toReal) ∧
    (p4Mid.eng.run = .running ∧ (p4Mid.dem.inPh + 1) % p4Mid.params.rIn = 0 ∧
      (∃ t, exec (.sample 0#32 0#32) p4Mid = .next t) ∧ p4Mid.scan.scanning = false) ∧
    seeking.params.rnd = .exact ∧ p4Mid.params.rnd = .exact :=
  ⟨⟨by decide, rfl, by decide, ⟨_, rfl⟩, rfl, by simp [seeking, running, State.reset, State.resetOf, Demod.reset]⟩,
    ⟨rfl, by decide, ⟨_, rfl⟩, rfl⟩, rfl, rfl⟩
theorem witness_FirIsTheDotProduct : ({} : Config).rnd = .exact := rfl
theorem witness_GainFollowsThePeak :
    ({} : Config).rnd = .exact ∧ ({ p4Mid.dem with peakCnt := 7 } : Demod).peakCnt + 1 = (({} : Config).peakWindow : Nat) ∧
    ({ p4Mid.dem with peakCnt := 6 } : Demod).peakCnt + 1 ≠ (({} : Config).peakWindow : Nat) := by decide
theorem witness_GainNeverFallsBelowTheFloor :
    RealParams running.params ∧ running.params.rnd = .exact ∧ running.params.gainFloor.toReal ≤ running.dem.gainAvg.toReal ∧
    ∃ t, exec (.sample 0x3F800000#32 0#32) running = .next t :=
  ⟨paramsOk_default.reals, rfl, by simp [running, State.reset, State.resetOf, Demod.reset]; norm_num, _, rfl⟩
/-- The tracker of program P5, with the given levels. -/
def stub (level floor : Rat) : Config := { pilot := .constant (.rat level) (.rat floor) (.rat 0) }
/-- The tracker's state after a sample. -/
def afterSample (level floor : Rat) : PilotState :=
  (demodulate (stub level floor) running.cr ⟨.rat 0, .rat 1⟩ p4Mid.dem).1.pt
theorem witness_StereoNeedsThePilot :
    (stub (1/5) (1/10)).rnd = .exact ∧ (stub 0 0).rnd = .exact ∧
    pilotFound (stub (1/5) (1/10)) (pilotLevel (stub (1/5) (1/10)) (afterSample (1/5) (1/10)))
      (noiseFloor (stub (1/5) (1/10)) (afterSample (1/5) (1/10))) = true ∧
    pilotFound (stub 0 0) (pilotLevel (stub 0 0) (afterSample 0 0)) (noiseFloor (stub 0 0) (afterSample 0 0)) = false ∧
    (({} : Config).rnd = .exact ∧ ({} : Config).pilot = .reference) := by
  refine ⟨rfl, rfl, ?_, ?_, rfl, rfl⟩ <;> decide +kernel
theorem witness_DiscriminatorFormula : ({} : Config).rnd = .exact ∧ ({} : Config).fmDemod = .reference := ⟨rfl, rfl⟩
theorem witness_SquelchMutesStrictlyAbove : ({} : Config).rnd = .exact ∧ ({} : Config).noise = .reference := ⟨rfl, rfl⟩
theorem witness_DeemphasisApproachesItsInput : p4.rnd = .exact ∧ 0 < p4.fmRate ∧ 0 < (deemphTau p4 .t50).toReal ∧ 0 < (deemphTau p4 .flat).toReal := by
  refine ⟨rfl, by decide, ?_, ?_⟩ <;> simp [deemphTau, p4]
theorem witness_MatrixPairs : p4.rnd = .exact ∧ p4Mid.dem.stereoActive = false ∧
    ({ p4Mid.dem with stereoActive := true } : Demod).stereoActive = true := ⟨rfl, rfl, rfl⟩
/-- The seventh FM-rate sample of R191's example has been taken: the next one is the eighth. -/
def eighth : State := { running with dem := { running.dem with rf := { running.dem.rf with rdsPh := 7 } } }
theorem witness_RecordOnEveryEighthCall :
    (eighth.eng.run = .running ∧ (eighth.dem.inPh + 1) % eighth.params.rIn = 0 ∧
      (∃ t, exec (.sample 0#32 0#32) eighth = .next t) ∧ eighth.cr.rdsMode ≠ .off ∧ (eighth.dem.rf.rdsPh + 1) % eighth.params.rRds = 0) ∧
    ((running.dem.inPh + 1) % running.params.rIn = 0 ∧ (∃ t, exec (.sample 0#32 0#32) running = .next t) ∧
      (running.dem.rf.rdsPh + 1) % running.params.rRds ≠ 0) ∧
    p4Mid.cr.rdsMode = .off ∧
    (({} : Config).rnd = .exact ∧ ({} : Config).front = .reference ∧ 1 ≤ ({} : Config).hRds.length) := by
  refine ⟨⟨rfl, by decide, ⟨_, rfl⟩, by decide, by decide⟩, ⟨by decide, ⟨_, rfl⟩, by decide⟩, rfl, rfl, rfl, le_rfl⟩
theorem witness_FrameOnEveryAudioPeriod :
    (p4Mid.dem.audPh + 1) % p4Mid.params.rAud = 0 ∧
    (({ p4Mid with dem := { p4Mid.dem with audPh := 0 } } : State).dem.audPh + 1) % p4Mid.params.rAud ≠ 0 ∧
    p4Mid.eng.run = .running ∧ (p4Mid.dem.inPh + 1) % p4Mid.params.rIn = 0 ∧
    ∃ t, exec (.sample 0#32 0x3F800000#32) p4Mid = .next t := ⟨by decide, by decide, rfl, by decide, _, rfl⟩

end Sys2Proof.Tests
end

section
/-! PROOFS. What every step keeps: the histories only grow, the parameters stay (10_state.md R54, R59), and R60 with the
counters of R57 is an invariant. One relation, `Keeps`, carries both through a step: one rule for each update of the
state, one lemma for each operation, and a case split along `exec` and `fetch`. -/

namespace Sys2Proof.Machine

/-! ## The relation between the states before and after -/

/-- The parameters stay and each output history is continued (10_state.md R54, R59). -/
structure Grows (s t : State) : Prop where
  params : t.params = s.params
  evq : s.out.evq <+: t.out.evq
  rbq : s.out.rbq <+: t.out.rbq
  fpq : s.out.fpq <+: t.out.fpq
  rsq : s.out.rsq <+: t.out.rsq

/-- `Grows`, and the invariant is kept. -/
structure Keeps (s t : State) : Prop extends Grows s t where
  inv : Inv s → Inv t

/-- A next state, where the result has one, satisfies `P`. -/
def Answers (P : State → Prop) (r : Result) : Prop := ∀ t, r = .next t → P t

theorem answers_next {P : State → Prop} {t : State} (h : P t) : Answers P (.next t) := by
  rintro _ ⟨⟩
  exact h

theorem Grows.refl (s : State) : Grows s s :=
  ⟨rfl, List.prefix_refl _, List.prefix_refl _, List.prefix_refl _, List.prefix_refl _⟩

theorem Grows.trans {s t u : State} (h : Grows s t) (g : Grows t u) : Grows s u :=
  ⟨g.params.trans h.params, h.evq.trans g.evq, h.rbq.trans g.rbq, h.fpq.trans g.fpq, h.rsq.trans g.rsq⟩

/-- An update that touches neither the parameters nor the histories. -/
theorem Grows.of_eq {s t : State} (hp : t.params = s.params) (ho : t.out = s.out) : Grows s t :=
  ⟨hp, by rw [ho], by rw [ho], by rw [ho], by rw [ho]⟩

namespace Keeps

variable {s t u : State}

theorem refl (s : State) : Keeps s s := ⟨Grows.refl s, id⟩

theorem trans (h : Keeps s t) (g : Keeps t u) : Keeps s u := ⟨h.toGrows.trans g.toGrows, g.inv ∘ h.inv⟩

/-! ## One rule per update of the state -/

/-- An update of the units alone keeps what the invariant says where it keeps the invariant. -/
theorem update (h : Keeps s t) (hp : u.params = t.params) (ho : u.out = t.out) (hi : Inv t → Inv u) : Keeps s u :=
  h.trans ⟨Grows.of_eq hp ho, hi⟩

/-- The histories are no part of the invariant. -/
theorem withOut (h : Keeps s t) {o : Outputs} (he : t.out.evq <+: o.evq) (hb : t.out.rbq <+: o.rbq)
    (hf : t.out.fpq <+: o.fpq) (hr : t.out.rsq <+: o.rsq) : Keeps s (t.withOut o) :=
  h.trans ⟨⟨rfl, he, hb, hf, hr⟩, fun i => ⟨i.params, i.arb, i.scan, i.seek, i.rds, i.dem, i.ports⟩⟩

theorem emit (h : Keeps s t) (es : List Event) : Keeps s (t.emit es) :=
  h.withOut (List.prefix_append _ _) (List.prefix_refl _) (List.prefix_refl _) (List.prefix_refl _)

theorem record (h : Keeps s t) (b : RbRecord) : Keeps s (t.record b) :=
  h.withOut (List.prefix_refl _) (List.prefix_append _ _) (List.prefix_refl _) (List.prefix_refl _)

theorem request (h : Keeps s t) (f : FpRequest) : Keeps s (t.request f) :=
  h.withOut (List.prefix_refl _) (List.prefix_refl _) (List.prefix_append _ _) (List.prefix_refl _)

theorem respond (h : Keeps s t) (r : Response) : Keeps s (t.respond r) :=
  h.withOut (List.prefix_refl _) (List.prefix_refl _) (List.prefix_refl _) (List.prefix_append _ _)

theorem respondStatus (h : Keeps s t) (p : Port) (st : Status) : Keeps s (t.respondStatus p st) := h.respond _

theorem refuse (h : Keeps s t) (p : Port) (st : Status) : Keeps s (t.refuse p st) := by
  rcases refuse_cases t p st with ⟨-, e⟩ | ⟨-, e⟩ <;> rw [e]
  · exact h.respondStatus p st
  · exact h

/-- The invariant says nothing of the configuration registers. -/
theorem withCr (h : Keeps s t) (v : ControlRegs) : Keeps s (t.withCr v) :=
  h.update rfl rfl fun i => ⟨i.params, i.arb, i.scan, i.seek, i.rds, i.dem, i.ports⟩

theorem withDem (h : Keeps s t) {v : Demod} (hv : ParamsOk t.params → DemodInv t.params t.dem → DemodInv t.params v) :
    Keeps s (t.withDem v) :=
  h.update rfl rfl fun i => ⟨i.params, i.arb, i.scan, i.seek, i.rds, hv i.params i.dem, i.ports⟩

theorem withRds (h : Keeps s t) {v : Rds} (hv : RdsInv t.rds → RdsInv v) : Keeps s (t.withRds v) :=
  h.update rfl rfl fun i => ⟨i.params, i.arb, i.scan, i.seek, hv i.rds, i.dem, i.ports⟩

theorem withArb (h : Keeps s t) {v : Arb}
    (hv : Config.sizesOk t.params = true → ArbInv t.params t.arb → ArbInv t.params v) : Keeps s (t.withArb v) :=
  h.update rfl rfl fun i => ⟨i.params, hv i.params.sizes i.arb, i.scan, i.seek, i.rds, i.dem, i.ports⟩

theorem withEng (h : Keeps s t) {e : Engine} (he : SeekInv t.eng t.scan → SeekInv e t.scan) : Keeps s (t.withEng e) :=
  h.update rfl rfl fun i => ⟨i.params, i.arb, i.scan, he i.seek, i.rds, i.dem, i.ports⟩

/-- R60 (e) binds the engine to the scanner, so an operation that opens or closes a session changes both at once. -/
theorem withEngScan (h : Keeps s t) {e : Engine} {v : Scan}
    (hv : Config.sizesOk t.params = true → ScanInv t.params t.scan → ScanInv t.params v)
    (he : SeekInv t.eng t.scan → SeekInv e v) : Keeps s ((t.withEng e).withScan v) :=
  h.update rfl rfl fun i => ⟨i.params, i.arb, hv i.params.sizes i.scan, he i.seek, i.rds, i.dem, i.ports⟩

/-- Taking a delivery: what stays presented has to be at real ports again. -/
theorem taken (h : Keeps s t) (p : Port) {ds : List Delivery}
    (hd : (∀ d ∈ t.inq, d.AtPort) → ∀ d ∈ ds, d.AtPort) : Keeps s (t.taken p ds) :=
  h.update rfl rfl fun i => ⟨i.params, i.arb, i.scan, i.seek, i.rds, i.dem, hd i.ports⟩

end Keeps

/-! ## The ring buffer (44_audio_ring_buffer.md) -/

theorem keeps_deliverFrames (r : BitVec 16) (frames : Word) (s : State) : Keeps s (deliverFrames r frames s) := by
  rw [deliverFrames_cases]
  have hle := (framesReady_le s.arb frames).2
  exact ((Keeps.refl s).withArb fun hp ha => arbInv_pop hp ha hle (by omega)).respond _

theorem Keeps.setReader {s t : State} (h : Keeps s t) (r : BitVec 16) (v : Reader) :
    Keeps s (t.withArb (t.arb.setReader r v)) := h.withArb fun _ ha => arbInv_setReader ha r v

theorem execRead_keeps (r : BitVec 16) (frames : Word) (s : State) : Answers (Keeps s) (execRead r frames s) := by
  unfold execRead
  split_ifs
  · exact answers_next ((Keeps.refl s).refuse _ _)
  · exact answers_next ((Keeps.refl s).refuse _ _)
  · exact answers_next ((Keeps.refl s).respond _)
  · exact answers_next (keeps_deliverFrames r frames s)
  · exact answers_next ((Keeps.refl s).setReader _ _)

theorem execWake_keeps (r : BitVec 16) (s : State) : Answers (Keeps s) (execWake r s) := by
  unfold execWake
  split
  · exact answers_next ((Keeps.refl s).refuse _ _)
  · split
    · split
      · exact answers_next ((keeps_deliverFrames r _ s).setReader _ _)
      · exact answers_next (Keeps.refl s)
    · exact answers_next (((Keeps.refl s).setReader _ _).respond _)
    · exact answers_next (Keeps.refl s)

theorem execTimeout_keeps (r : BitVec 16) (s : State) : Answers (Keeps s) (execTimeout r s) := by
  unfold execTimeout
  split
  · exact answers_next ((Keeps.refl s).refuse _ _)
  · split
    · split
      · exact answers_next (((Keeps.refl s).setReader _ _).respond _)
      · exact answers_next (Keeps.refl s)
    · exact answers_next (Keeps.refl s)
    · exact answers_next (Keeps.refl s)

theorem execCancel_keeps (s : State) : Answers (Keeps s) (execCancel s) :=
  answers_next (((Keeps.refl s).withArb fun _ ha => arbInv_readers ha (List.length_map _)).respondStatus _ _)

theorem execFlush_keeps (s : State) : Answers (Keeps s) (execFlush s) :=
  answers_next (((Keeps.refl s).withArb fun hp ha => arbInv_flush hp ha).respondStatus _ _)

theorem execWrite_keeps (samples : List Word) (s : State) : Answers (Keeps s) (execWrite samples s) := by
  unfold execWrite
  split
  · exact answers_next ((Keeps.refl s).refuse _ _)
  · split
    · exact answers_next (Keeps.refl s)
    · exact answers_next (((Keeps.refl s).withArb fun hp ha => arbInv_write hp ha _).respond _)

/-! ## The RDS unit (42_rds_group_decoder.md) -/

theorem Keeps.rdsReset {s t : State} (h : Keeps s t) : Keeps s (rdsReset t) :=
  (h.withRds fun hr => rdsInv_pi (rdsInv_clear hr) none).emit _

/-- A group keeps the RDS registers' invariant where its type's rule does (R231). -/
theorem keeps_onGroup (pi : Block) {rule : Rds → Rds × List Event} (hr : ∀ u, RdsInv u → RdsInv (rule u).1) (s : State) :
    Keeps s (onGroup pi rule s) := by
  rcases onGroup_cases pi rule s with ⟨-, -, e⟩ | ⟨-, e⟩ <;> rw [e]
  · exact ((Keeps.refl s).withRds fun h => hr _ (rdsInv_piCheck h pi)).emit _
  · exact Keeps.refl s

theorem execGroup_keeps (ab cd : Word) (s : State) : Answers (Keeps s) (execGroup ab cd s) :=
  answers_next (keeps_onGroup _ (fun _ hu => rdsInv_groupRule hu _ _ _ _) s)

/-- A dropped group still tracks its PI (R233, R240). -/
theorem gIgnored_keeps (pi : Block) (s : State) : Answers (Keeps s) (.next (onGroup pi gIgnored s)) :=
  answers_next (keeps_onGroup pi (fun _ hu => hu) s)

/-! ## The engine and the scan session (45_engine_control.md) -/

/-- The invariant says nothing of the frequency. -/
theorem Keeps.withFreq {s t : State} (h : Keeps s t) (f : Word) : Keeps s (t.withEng { t.eng with freq := f }) :=
  h.withEng fun hs => ⟨hs.timer, hs.session, hs.range⟩

/-- The invariant says nothing of the run state. -/
theorem Keeps.withRun {s t : State} (h : Keeps s t) (r : RunState) : Keeps s (t.withEng { t.eng with run := r }) :=
  h.withEng fun hs => ⟨hs.timer, hs.session, hs.range⟩

/-- With no seek active only the timer has to be off. -/
theorem seekInv_inactive {e : Engine} (u : Scan) (ha : e.seekActive = false) (ht : e.timerArmed = false) : SeekInv e u :=
  ⟨by simp [ht], by simp [ha], by simp [ha]⟩

theorem Keeps.setFreq {s t : State} (h : Keeps s t) (f : Word) : Keeps s (setFreq f t) :=
  ((h.withFreq f).request _).emit _

theorem execStart_keeps (s : State) : Answers (Keeps s) (execStart s) := by
  unfold execStart
  split
  · exact answers_next ((((Keeps.refl s).request .start).withRun .running).respondStatus _ _)
  · exact answers_next ((Keeps.refl s).respondStatus _ _)

theorem execStop_keeps (s : State) : Answers (Keeps s) (execStop s) := by
  unfold execStop
  split
  · exact answers_next ((((Keeps.refl s).request .stop).withRun .paused).respondStatus _ _)
  · exact answers_next ((Keeps.refl s).respondStatus _ _)

theorem execTune_keeps (freq : Word) (s : State) : Answers (Keeps s) (execTune freq s) :=
  answers_next (((Keeps.refl s).setFreq freq).rdsReset.respondStatus _ _)

theorem execFreqchg_keeps (freq : Word) (s : State) : Answers (Keeps s) (execFreqchg freq s) :=
  answers_next (((Keeps.refl s).withFreq freq).emit _)

theorem execSetsquelch_keeps (en : Bool) (level : Word) (s : State) : Answers (Keeps s) (execSetsquelch en level s) := by
  unfold execSetsquelch
  split
  · exact answers_next ((Keeps.refl s).refuse _ _)
  · exact answers_next (((Keeps.refl s).withCr _).respondStatus _ _)

/-- A scan session opens on any state: the block has an element 0, and the list of candidates begins empty (R260). -/
theorem scanInv_opened {c : Config} (hp : Config.sizesOk c = true) {u : Scan} (h : ScanInv c u) (thr : RNum)
    (token : Word) : ScanInv c (scanStart thr token u) := by
  obtain ⟨-, -, -, hn, -⟩ := sizesOk_cases hp
  exact scanInv_start (by omega) h thr token

/-- R340: the range is checked first, and the session is open when the seek becomes active. -/
theorem keeps_seekRun (thr : RNum) {fmin fmax : Word} (hr : fmin.toNat ≤ fmax.toNat) (step interval token : Word)
    (s : State) : Keeps s (seekRun thr fmin fmax step interval token s) := by
  rw [seekRun_eq]
  exact (((Keeps.refl s).withEngScan (fun hp hu => scanInv_opened hp hu thr token)
    fun _ => ⟨fun _ => rfl, fun _ => rfl, fun _ => hr⟩).request _).emit _

theorem execSeek_keeps (thr fmin fmax step interval token : Word) (s : State) :
    Answers (Keeps s) (execSeek thr fmin fmax step interval token s) := by
  unfold execSeek
  split
  · exact answers_next ((Keeps.refl s).refuse _ _)
  · split
    · exact answers_next ((Keeps.refl s).refuse _ _)
    · next hr =>
      have hr' : fmin.toNat ≤ fmax.toNat := by simpa [u32Value] using hr
      exact answers_next ((keeps_seekRun _ hr' _ _ _ s).respondStatus _ _)

theorem execTick_keeps (s : State) : Answers (Keeps s) (execTick s) := by
  unfold execTick
  split_ifs
  · exact answers_next (Keeps.refl s)
  · exact answers_next ((Keeps.refl s).withEng fun hs => ⟨fun ht => (nomatch ht), hs.session, hs.range⟩)
  · exact answers_next ((Keeps.refl s).setFreq _)

/-- What `CANCELSEEK` does in a seek (R343), with the session and the seek closed together. -/
theorem execCancelseek_active {s : State} (h : s.eng.seekActive = true) :
    execCancelseek s = .next ((rdsReset (setFreq s.eng.seekPre
      ((s.withEng { s.eng with timerArmed := false, seekActive := false }).withScan (scanStop s.scan)))).respondStatus
        .cp .ok) := if_pos h

theorem execCancelseek_keeps (s : State) : Answers (Keeps s) (execCancelseek s) := by
  cases ha : s.eng.seekActive with
  | true =>
    rw [execCancelseek_active ha]
    have hclosed := (Keeps.refl s).withEngScan (e := { s.eng with timerArmed := false, seekActive := false })
      (fun _ hu => scanInv_stop hu) fun _ => seekInv_inactive _ rfl rfl
    exact answers_next ((hclosed.setFreq _).rdsReset.respondStatus _ _)
  | false =>
    have hok : execCancelseek s = .next (s.respondStatus .cp .ok) := by simp [execCancelseek, ha]
    rw [hok]
    exact answers_next ((Keeps.refl s).respondStatus _ _)

theorem execScanstart_keeps (thr token : Word) (s : State) : Answers (Keeps s) (execScanstart thr token s) := by
  unfold execScanstart
  split
  · exact answers_next ((Keeps.refl s).refuse _ _)
  · exact answers_next ((Keeps.refl s).withEngScan (e := s.eng) (fun hp hu => scanInv_opened hp hu _ token)
      fun hs => ⟨hs.timer, fun _ => rfl, hs.range⟩)

/-! ## The scanner and the datapath (43_station_scanner.md, 41_demodulator.md) -/

theorem evaluate_evq (s : State) : s.out.evq <+: (evaluate s).out.evq := by
  rcases evaluate_cases s with ⟨-, e⟩ | ⟨-, -, e⟩ | ⟨-, -, e⟩ <;> simp [e]

theorem scanFeed_evq (z : Cplx) (s : State) : s.out.evq <+: (scanFeed z s).out.evq := by
  rcases scanFeed_cases z s with ⟨-, e⟩ | ⟨-, -, e⟩ | ⟨-, -, e⟩ <;> rw [e]
  · exact List.prefix_refl _
  · exact evaluate_evq (s.withScan (blockStored s.params z s.scan))

theorem keeps_scanFeed (z : Cplx) (s : State) : Keeps s (scanFeed z s) := by
  obtain ⟨hp, -, hd, hr, ha, hq, -, hb, hf, hs⟩ := scanFeed_frame z s
  refine ⟨⟨hp, scanFeed_evq z s, by rw [hb], by rw [hf], by rw [hs]⟩, fun i => ?_⟩
  obtain ⟨hscan, hseek⟩ := inv_scanFeed (z := z) rfl i.scan i.seek
  exact ⟨hp ▸ i.params, by rw [hp, ha]; exact i.arb, by rw [hp]; exact hscan, hseek, hr ▸ i.rds,
    by rw [hp, hd]; exact i.dem, hq ▸ i.ports⟩

theorem execScanfeed_keeps (a b : Word) (s : State) : Answers (Keeps s) (execScanfeed a b s) := by
  unfold execScanfeed
  split
  · exact answers_next (Keeps.refl s)
  · exact answers_next (keeps_scanFeed _ s)

theorem keeps_scanDivert (v : Cplx) (s : State) : Keeps s (scanDivert v s).1 := by
  rcases scanDivert_cases v s with ⟨-, e⟩ | ⟨-, e⟩ <;> rw [e]
  · exact Keeps.refl s
  · exact keeps_scanFeed v s

theorem Keeps.emitFrame {s t : State} (h : Keeps s t) (f : Option Frame) : Keeps s (emitFrame f t) := by
  rcases emitFrame_cases f t with ⟨-, e⟩ | ⟨x, -, e⟩ <;> rw [e]
  · exact h
  · exact h.withArb fun hp ha => arbInv_write hp ha _

theorem Keeps.emitRecord {s t : State} (h : Keeps s t) (b : Option RbRecord) : Keeps s (emitRecord b t) := by
  rcases emitRecord_cases b t with ⟨-, e⟩ | ⟨x, -, e⟩ <;> rw [e]
  · exact h
  · exact h.record x

theorem keeps_fmTick (cr : ControlRegs) (v : Cplx) (s : State) : Keeps s (fmTick cr v s) := by
  obtain ⟨hp, -⟩ := scanDivert_frame (Cplx.smul s.params (u32Real cr.att) v) s
  rw [fmTick_eq]
  refine (((keeps_scanDivert _ s).withDem fun hok hd => ?_).emitFrame _).emitRecord _
  rw [hp] at hok hd ⊢
  exact demodInv_demodStages hok hd cr _

theorem keeps_sampleStep (x : Cplx) (s : State) : Keeps s (sampleStep x s) := by
  have hdec : Keeps s (s.withDem (inputDecimate s.params x s.dem).1) :=
    (Keeps.refl s).withDem fun hok hd => demodInv_inputDecimate hok.rates hd x
  rcases sampleStep_cases x s with ⟨-, e⟩ | ⟨-, e⟩ <;> rw [e]
  · exact hdec
  · exact hdec.trans (keeps_fmTick _ _ _)

theorem execSample_keeps (a b : Word) (s : State) : Answers (Keeps s) (execSample a b s) := by
  unfold execSample
  split
  · exact answers_next (Keeps.refl s)
  · split
    · exact answers_next (keeps_sampleStep _ s)
    · exact answers_next (Keeps.refl s)

/-! ## Every operation -/

/-- Every operation but `SCANSTOP` keeps the invariant. On its own, `SCANSTOP` closes a session under an active seek,
against R60 (e); no port accepts it (log entry 6). -/
theorem exec_keeps {i : Instr} (hi : i ≠ .scanstop) (s : State) : Answers (Keeps s) (exec i s) := by
  cases i with
  | start => exact execStart_keeps s
  | stop => exact execStop_keeps s
  | tune freq => exact execTune_keeps freq s
  | freqchg freq => exact execFreqchg_keeps freq s
  | getfreq | waiting | scanq => exact answers_next ((Keeps.refl s).respond _)
  | seek thr fmin fmax step interval token => exact execSeek_keeps thr fmin fmax step interval token s
  | cancelseek => exact execCancelseek_keeps s
  | tick => exact execTick_keeps s
  | setmode | setchan | setdeemph | setgain | setrdsmode =>
    exact answers_next (((Keeps.refl s).withCr _).respondStatus _ _)
  | setsquelch en level => exact execSetsquelch_keeps en level s
  | read r frames => exact execRead_keeps r frames s
  | wake r => exact execWake_keeps r s
  | timeout r => exact execTimeout_keeps r s
  | cancel => exact execCancel_keeps s
  | flush => exact execFlush_keeps s
  | write samples => exact execWrite_keeps samples s
  | sample a b => exact execSample_keeps a b s
  | scanstart thr token => exact execScanstart_keeps thr token s
  | scanstop => exact absurd rfl hi
  | scanfeed a b => exact execScanfeed_keeps a b s
  | rdsreset => exact answers_next (Keeps.refl s).rdsReset
  | group ab cd => exact execGroup_keeps ab cd s
  | rdsG0A => exact answers_next (keeps_onGroup _ (fun _ hu => rdsInv_g0a hu _ _ _) s)
  | rdsG2A => exact answers_next (keeps_onGroup _ (fun _ hu => rdsInv_g2a hu _ _ _ _ _ _ _) s)
  | rdsG4A => exact answers_next (keeps_onGroup _ (fun _ hu => rdsInv_g4a hu _ _ _) s)
  | rdsG8A => exact answers_next (keeps_onGroup _ (fun _ hu => rdsInv_g8a hu _ _ _ _ _) s)
  | rdsGB pi | rdsG1A pi | rdsG3A pi | rdsG5A pi | rdsG6A pi | rdsG7A pi | rdsG9A pi | rdsG10A pi | rdsG11A pi
  | rdsG12A pi | rdsG13A pi | rdsG14A pi | rdsG15A pi => exact gIgnored_keeps pi s

/-- The histories grow under every operation, `SCANSTOP` among them. -/
theorem exec_grows (i : Instr) (s : State) : Answers (Grows s) (exec i s) := by
  by_cases hi : i = .scanstop
  · subst hi
    exact answers_next (Grows.of_eq rfl rfl)
  · exact fun t ht => (exec_keeps hi s t ht).toGrows

/-! ## Fetching -/

/-- No group type is `SCANSTOP`. -/
theorem decodeGroup_ne_scanstop (g : BitVec 64) : decodeGroup g ≠ .scanstop := by
  unfold decodeGroup
  split
  · exact Instr.noConfusion
  · split <;> exact Instr.noConfusion

/-- `SCANSTOP` is accepted on the internal path alone (R128). -/
theorem ne_scanstop_of_port {p : Port} {h : Word} {ws : List Word} {i : Instr} (hp : p ≠ .inside)
    (ha : portAccepts p h = true) (hd : decodeOp (h :: ws) = .ok i) : i ≠ .scanstop := by
  rintro rfl
  obtain ⟨_, _, _, _, hw, -, -, -, hargs⟩ := decodeOp_cases hd
  obtain ⟨rfl, rfl⟩ := List.cons.inj hw
  have hop : headerInfo h = some (0, [.inside]) := by rw [headerInfo, decodeArgs_scanstop hargs]; rfl
  exact hp (portAccepts_internal hop ha)

/-- What stays of a delivery stays at its port. -/
theorem atPort_restOf {p : Port} {ws : List Word} {ds : List Delivery} (hp : p ≠ .inside) (hd : ∀ d ∈ ds, d.AtPort)
    (n : Nat) : ∀ d ∈ restOf p ws n ds, d.AtPort := by
  unfold restOf
  split
  · exact hd
  · exact List.forall_mem_cons.mpr ⟨hp, hd⟩

/-- What a step can do: it takes a delivery, or part of one, and then nothing more, a refusal, or an operation, which is
not `SCANSTOP` where every delivery is at a real port. -/
theorem step_cases {s t : State} (h : step s = .next t) :
    ∃ u, Keeps s u ∧ (t = u ∨ (∃ p st, t = u.refuse p st) ∨
      ∃ i, ((∀ d ∈ s.inq, d.AtPort) → i ≠ .scanstop) ∧ exec i u = .next t) := by
  have htail {d : Delivery} {ds : List Delivery} (hq : s.inq = d :: ds) (hs : ∀ d ∈ s.inq, d.AtPort) :
      d.AtPort ∧ ∀ d ∈ ds, d.AtPort := List.forall_mem_cons.mp (hq ▸ hs)
  unfold step at h
  rcases fetch_cases s with ⟨-, e⟩ | ⟨g, ds, hq, e⟩ | ⟨p, ds, hq, e⟩ | ⟨p, hd, ws, ds, hq, hop⟩
  · rw [e] at h
    exact ⟨s, Keeps.refl s, .inl (Host.Outcome.next.inj h).symm⟩
  · rw [e] at h
    exact ⟨_, (Keeps.refl s).taken _ fun hs => (htail hq hs).2,
      .inr (.inr ⟨_, fun _ => decodeGroup_ne_scanstop g, h⟩)⟩
  · rw [e] at h
    exact ⟨s.taken s.port ds, (Keeps.refl s).taken _ fun hs => (htail hq hs).2, .inl (Host.Outcome.next.inj h).symm⟩
  · have hrest : Keeps s (s.taken p (restOf p (hd :: ws) (opLength hd) ds)) :=
      (Keeps.refl s).taken _ fun hs => atPort_restOf (htail hq hs).1 (htail hq hs).2 _
    rcases hop with ⟨-, e⟩ | ⟨-, -, e⟩ | ⟨-, -, err, -, e⟩ | ⟨-, ha, i, hi, e⟩ <;> rw [e] at h
    · exact ⟨s.taken s.port ds, (Keeps.refl s).taken _ fun hs => (htail hq hs).2, .inl (Host.Outcome.next.inj h).symm⟩
    · exact ⟨_, hrest, .inr (.inl ⟨_, _, (Host.Outcome.next.inj h).symm⟩)⟩
    · cases hst : rejectStatus err with
      | none => rw [hst] at h; exact ⟨_, hrest, .inl (Host.Outcome.next.inj h).symm⟩
      | some st => rw [hst] at h; exact ⟨_, hrest, .inr (.inl ⟨_, _, (Host.Outcome.next.inj h).symm⟩)⟩
    · exact ⟨_, hrest, .inr (.inr ⟨i, fun hs => ne_scanstop_of_port (htail hq hs).1 ha hi, h⟩)⟩

/-! ## The reset state (70_reset_and_hazards.md R411) -/

theorem arbInv_resetOf {c : Config} (hp : Config.sizesOk c = true) : ArbInv c (Arb.reset c) := by
  obtain ⟨-, hcap, -⟩ := sizesOk_cases hp
  have hpos : 0 < c.arbCap := by omega
  exact ⟨rfl, rfl, rfl, (Nat.zero_mod _).symm, Nat.zero_le _, hpos, List.length_replicate, spaceOk_nil _⟩

theorem scanInv_resetOf {c : Config} (hp : Config.sizesOk c = true) : ScanInv c Scan.reset := by
  obtain ⟨-, -, -, hn, -⟩ := sizesOk_cases hp
  have hpos : 0 < c.nFft := by omega
  exact ⟨fun _ => rfl, trivial, fun _ hx => (nomatch hx), hpos, spaceOk_nil _⟩

theorem rdsInv_resetOf : RdsInv Rds.reset :=
  ⟨by decide, by decide, spaceOk_nil _, spaceOk_nil _, by decide, by decide⟩

/-- R30: `RDS_PH` begins at 0 whatever the front end is. -/
theorem frontInit_rdsPh (c : Config) : (frontInit c).rdsPh = 0 := by
  unfold frontInit
  split <;> rfl

theorem demodInv_resetOf {c : Config} (hr : Config.ratesOk c = true) : DemodInv c (Demod.reset c) where
  inDl := List.length_replicate
  inPh := rIn_pos hr
  peak _ := by simp [Demod.reset]
  peakCnt := c.peakWindow.pos
  gain _ := by simp [Demod.reset]
  audDl := List.length_replicate
  audPh := rAud_pos hr
  rdsPh := by
    rw [Demod.reset, frontInit_rdsPh]
    exact c.rRds.pos

theorem inv_resetOf {c : Config} (hp : ParamsOk c) : Inv (State.resetOf c) where
  params := hp
  arb := arbInv_resetOf hp.sizes
  scan := scanInv_resetOf hp.sizes
  seek := seekInv_inactive _ rfl rfl
  rds := rdsInv_resetOf
  dem := demodInv_resetOf hp.rates
  ports _ hd := nomatch hd

/-- The parameters of log entry 3 pass the checks of R371 and R372. -/
theorem paramsOk_reset : ParamsOk {} :=
  ⟨by decide, by decide, (realsOk_iff {}).mp (by decide +kernel)⟩

/-! ## The statements -/

/-- Settles O7: the delivery taken, the refusal and the operation run each keep the invariant. -/
theorem invariantKeptByEveryStep : Obligations.InvariantKeptByEveryStep := by
  intro s t hs hstep
  obtain ⟨u, hu, rfl | ⟨p, st, rfl⟩ | ⟨i, hi, he⟩⟩ := step_cases hstep
  · exact hu.inv hs
  · exact (hu.refuse p st).inv hs
  · exact (hu.trans (exec_keeps (hi hs.ports) u t he)).inv hs

/-- Settles O10, which asks nothing of the state: `SCANSTOP` on the internal path is among its steps. -/
theorem historiesOnlyGrow : Obligations.HistoriesOnlyGrow := by
  intro s t hstep
  have hg : Grows s t := by
    obtain ⟨u, hu, rfl | ⟨p, st, rfl⟩ | ⟨i, -, he⟩⟩ := step_cases hstep
    · exact hu.toGrows
    · exact (hu.refuse p st).toGrows
    · exact hu.toGrows.trans (exec_grows i u t he)
  exact ⟨hg.params, hg.evq, hg.rbq, hg.fpq, hg.rsq⟩

/-- Settles O8, unit by unit as R411 sets the registers. -/
theorem invariantHoldsAtReset : Obligations.InvariantHoldsAtReset :=
  ⟨inv_resetOf paramsOk_reset, fun _ hp => inv_resetOf hp⟩

end Sys2Proof.Machine
end

section
/-! PROOFS. The encoder and the decoder agree (30_encoding.md R122 to R135): the field lemmas of a group's head, the
words of an operation read by its arguments, and one arm per constructor. -/

namespace Sys2Proof

/-! ## The fields of a group's first 27 bits (R130, R131) -/

section
variable (pi : Block) (gtype : BitVec 4) (ver tp : BitVec 1) (pty : BitVec 5)

@[simp] theorem groupHead_pi : (groupHead pi gtype ver tp pty).extractLsb' 11 16 = pi := by
  simp (disch := omega) only [groupHead, extract_upper, extract_whole, Nat.reduceSub]

@[simp] theorem groupHead_type : (groupHead pi gtype ver tp pty).extractLsb' 7 4 = gtype := by
  simp (disch := omega) only [groupHead, extract_upper, extract_lower, extract_whole, Nat.reduceSub]

@[simp] theorem groupHead_version : (groupHead pi gtype ver tp pty).getLsbD 6 = ver.getLsbD 0 := by
  simp (disch := omega) only [groupHead, bit_upper, bit_lower, Nat.reduceSub]

@[simp] theorem groupHead_tp : (groupHead pi gtype ver tp pty).extractLsb' 5 1 = tp := by
  simp (disch := omega) only [groupHead, extract_upper, extract_lower, extract_whole, Nat.reduceSub]

@[simp] theorem groupHead_pty : (groupHead pi gtype ver tp pty).extractLsb' 0 5 = pty := by
  simp (disch := omega) only [groupHead, extract_lower, extract_whole]

end

/-! ## The decoder, type by type (R131) -/

section
variable {g : BitVec 64}

theorem decodeGroup_versionB (hv : g.getLsbD 43 = true) :
    decodeGroup g = .rdsGB (gPi g) (gType g) (gTp g) (gPty g) (g.extractLsb' 32 5) (g.extractLsb' 16 16)
      (g.extractLsb' 0 16) := if_pos hv

theorem decodeGroup_type0 (hv : g.getLsbD 43 = false) (ht : gType g = 0#4) :
    decodeGroup g = .rdsG0A (gPi g) (gTp g) (gPty g) (g.extractLsb' 34 3) (g.extractLsb' 32 2) (g.extractLsb' 16 16)
      (g.extractLsb' 8 8) (g.extractLsb' 0 8) := by
  rw [decodeGroup, hv, ht]; rfl

theorem decodeGroup_type2 (hv : g.getLsbD 43 = false) (ht : gType g = 2#4) :
    decodeGroup g = .rdsG2A (gPi g) (gTp g) (gPty g) (g.extractLsb' 36 1) (g.extractLsb' 32 4) (g.extractLsb' 24 8)
      (g.extractLsb' 16 8) (g.extractLsb' 8 8) (g.extractLsb' 0 8) := by
  rw [decodeGroup, hv, ht]; rfl

theorem decodeGroup_type4 (hv : g.getLsbD 43 = false) (ht : gType g = 4#4) :
    decodeGroup g = .rdsG4A (gPi g) (gTp g) (gPty g) (g.extractLsb' 34 3) (g.extractLsb' 17 17) (g.extractLsb' 12 5)
      (g.extractLsb' 6 6) (g.extractLsb' 0 6) := by
  rw [decodeGroup, hv, ht]; rfl

theorem decodeGroup_type8 (hv : g.getLsbD 43 = false) (ht : gType g = 8#4) :
    decodeGroup g = .rdsG8A (gPi g) (gTp g) (gPty g) (g.extractLsb' 36 1) (g.extractLsb' 35 1) (g.extractLsb' 32 3)
      (g.extractLsb' 31 1) (g.extractLsb' 30 1) (g.extractLsb' 27 3) (g.extractLsb' 16 11) (g.extractLsb' 0 16) := by
  rw [decodeGroup, hv, ht]; rfl

end

/-- A row of the group table FMRX does not act on (R240): every field past the head is carried and unused. -/
abbrev UnusedRow := Block → BitVec 1 → BitVec 5 → BitVec 5 → Block → Block → Instr

/-- The rows of the A types that are not 0A, 2A, 4A and 8A (R133, R240), by type code. -/
def unusedRow (t : BitVec 4) : Option UnusedRow :=
  match t.toNat with
  | 1 => some .rdsG1A
  | 3 => some .rdsG3A
  | 5 => some .rdsG5A
  | 6 => some .rdsG6A
  | 7 => some .rdsG7A
  | 9 => some .rdsG9A
  | 10 => some .rdsG10A
  | 11 => some .rdsG11A
  | 12 => some .rdsG12A
  | 13 => some .rdsG13A
  | 14 => some .rdsG14A
  | 15 => some .rdsG15A
  | _ => none

/-- A type code is one of the four FMRX acts on or has an unused row. -/
theorem typeCode_cases (t : BitVec 4) : t = 0#4 ∨ t = 2#4 ∨ t = 4#4 ∨ t = 8#4 ∨ ∃ row, unusedRow t = some row := by
  have hall : ∀ t : BitVec 4, t = 0#4 ∨ t = 2#4 ∨ t = 4#4 ∨ t = 8#4 ∨ (unusedRow t).isSome = true := by decide
  simpa only [Option.isSome_iff_exists] using hall t

theorem decodeGroup_unused {g : BitVec 64} {row : UnusedRow} (hv : g.getLsbD 43 = false)
    (hr : unusedRow (gType g) = some row) :
    decodeGroup g = row (gPi g) (gTp g) (gPty g) (g.extractLsb' 32 5) (g.extractLsb' 16 16) (g.extractLsb' 0 16) := by
  unfold unusedRow at hr
  split at hr <;> cases hr <;> (next ht => rw [decodeGroup, hv, ht]; rfl)

/-! ## Groups read back (R130 to R135) -/

section
variable (pi : Block) (tp : BitVec 1) (pty : BitVec 5)

theorem decodeGroup_encode_rdsGB (gtype : BitVec 4) (rest : BitVec 5) (c d : Block) :
    decodeGroup (groupHead pi gtype 1#1 tp pty ++ rest ++ c ++ d) = .rdsGB pi gtype tp pty rest c d := by
  rw [decodeGroup_versionB]
  all_goals simp (disch := omega) only [gPi, gType, gTp, gPty, extract_upper, extract_lower, extract_whole, bit_upper,
    Nat.reduceSub, groupHead_pi, groupHead_type, groupHead_version, groupHead_tp, groupHead_pty]
  rfl

theorem decodeGroup_encode_rdsG0A (taMsDi : BitVec 3) (idx : BitVec 2) (af : Block) (c0 c1 : Byte) :
    decodeGroup (groupHead pi 0#4 0#1 tp pty ++ taMsDi ++ idx ++ af ++ c0 ++ c1) =
      .rdsG0A pi tp pty taMsDi idx af c0 c1 := by
  rw [decodeGroup_type0]
  all_goals simp (disch := omega) only [gPi, gType, gTp, gPty, extract_upper, extract_lower, extract_whole, bit_upper,
    Nat.reduceSub, groupHead_pi, groupHead_type, groupHead_version, groupHead_tp, groupHead_pty]
  rfl

theorem decodeGroup_encode_rdsG2A (ab : BitVec 1) (idx : BitVec 4) (t0 t1 t2 t3 : Byte) :
    decodeGroup (groupHead pi 2#4 0#1 tp pty ++ ab ++ idx ++ t0 ++ t1 ++ t2 ++ t3) =
      .rdsG2A pi tp pty ab idx t0 t1 t2 t3 := by
  rw [decodeGroup_type2]
  all_goals simp (disch := omega) only [gPi, gType, gTp, gPty, extract_upper, extract_lower, extract_whole, bit_upper,
    Nat.reduceSub, groupHead_pi, groupHead_type, groupHead_version, groupHead_tp, groupHead_pty]
  rfl

theorem decodeGroup_encode_rdsG4A (spare : BitVec 3) (day : BitVec 17) (hour : BitVec 5) (minute offset : BitVec 6) :
    decodeGroup (groupHead pi 4#4 0#1 tp pty ++ spare ++ day ++ hour ++ minute ++ offset) =
      .rdsG4A pi tp pty spare day hour minute offset := by
  rw [decodeGroup_type4]
  all_goals simp (disch := omega) only [gPi, gType, gTp, gPty, extract_upper, extract_lower, extract_whole, bit_upper,
    Nat.reduceSub, groupHead_pi, groupHead_type, groupHead_version, groupHead_tp, groupHead_pty]
  rfl

theorem decodeGroup_encode_rdsG8A (t f : BitVec 1) (dp : BitVec 3) (d dir : BitVec 1) (extent : BitVec 3)
    (event : BitVec 11) (location : BitVec 16) :
    decodeGroup (groupHead pi 8#4 0#1 tp pty ++ t ++ f ++ dp ++ d ++ dir ++ extent ++ event ++ location) =
      .rdsG8A pi tp pty t f dp d dir extent event location := by
  rw [decodeGroup_type8]
  all_goals simp (disch := omega) only [gPi, gType, gTp, gPty, extract_upper, extract_lower, extract_whole, bit_upper,
    Nat.reduceSub, groupHead_pi, groupHead_type, groupHead_version, groupHead_tp, groupHead_pty]
  rfl

theorem decodeGroup_encode_unused {t : BitVec 4} {row : UnusedRow} (hr : unusedRow t = some row) (rest : BitVec 5)
    (c d : Block) : decodeGroup (groupHead pi t 0#1 tp pty ++ rest ++ c ++ d) = row pi tp pty rest c d := by
  have ht : gType (groupHead pi t 0#1 tp pty ++ rest ++ c ++ d) = t := by
    simp (disch := omega) only [gType, extract_upper, Nat.reduceSub, groupHead_type]
  rw [decodeGroup_unused (row := row) _ (ht.symm ▸ hr)]
  all_goals simp (disch := omega) only [gPi, gTp, gPty, extract_upper, extract_lower, extract_whole, bit_upper,
    Nat.reduceSub, groupHead_pi, groupHead_version, groupHead_tp, groupHead_pty]
  rfl

end

/-! ## The words of an operation -/

/-- The words of an operation are read back where its arguments are (R124). -/
theorem decode_header {op : BitVec 8} {imm : BitVec 16} {ws : List Word} {n : Nat} {ps : List Port} {i : Instr}
    (h : opInfo op.toNat imm = some (n, ps)) (hl : ws.length = n) (ha : decodeArgs op.toNat imm ws = .ok i) :
    decode (.op (header op imm :: ws)) = .ok i := (decodeOp_header h hl).trans ha

theorem ifFinite_true {ok : Bool} (h : ok = true) (e : Reject) (r : Except Reject Instr) : ifFinite ok e r = r :=
  if_pos h

/-- An enumeration's code is read back (R129). -/
theorem byCode_some {α : Type} {x : Option α} {a : α} (h : x = some a) (mk : α → Instr) : byCode x mk = .ok (mk a) := by
  rw [h, byCode]

/-- `SETSQUELCH`'s `en` is bit 0 of `imm16` (R125). -/
theorem squelchArgs_flag (en : Bool) {level : Word} (h : f32Finite level = true) :
    squelchArgs (if en then 1#16 else 0#16) level = .ok (.setsquelch en level) := by
  cases en <;> exact ifFinite_true h .nonFinite _

/-- `WRITE`'s count is the number of its samples (R128). -/
theorem decode_encode_write {ws : List Word} (h : writeWellFormed ws = true) :
    decode (encode (.write ws)) = .ok (.write ws) := by
  simp only [writeWellFormed, Bool.and_eq_true, decide_eq_true_eq] at h
  obtain ⟨⟨hfits, heven⟩, hfin⟩ := h
  have hlen : (BitVec.ofNat 16 ws.length).toNat = ws.length := by
    rw [BitVec.toNat_ofNat, Nat.mod_eq_of_lt hfits]
  have hcount : ¬ (BitVec.ofNat 16 ws.length).toNat % 2 = 1 := by omega
  have hargs : writeArgs (BitVec.ofNat 16 ws.length) ws = .ok (.write ws) := by
    rw [writeArgs, if_neg hcount, ifFinite_true hfin]
  exact decode_header (n := (BitVec.ofNat 16 ws.length).toNat) (ps := [.inside]) rfl hlen.symm hargs

/-- Settles O1: an operation by its arguments, a group field by field. -/
theorem decodeInvertsEncode : Obligations.DecodeInvertsEncode := by
  intro i hw
  cases i with
  | start | stop | tune | getfreq | cancelseek | setgain | read | waiting | cancel | flush | group | tick | timeout
  | freqchg | wake | scanstop | scanq | rdsreset => exact decode_header rfl rfl rfl
  | setchan chan => exact decode_header rfl rfl (byCode_some (chanOf_code chan) _)
  | setdeemph deemph => exact decode_header rfl rfl (byCode_some (deemphOf_code deemph) _)
  | setrdsmode mode => exact decode_header rfl rfl (byCode_some (rdsModeOf_code mode) _)
  | setmode mode => exact decode_header rfl rfl (byCode_some (modeOf_code mode) _)
  | setsquelch en level => exact decode_header rfl rfl (squelchArgs_flag en hw)
  | seek | scanstart => exact decode_header rfl rfl (ifFinite_true hw .nonFinite _)
  | sample | scanfeed => exact decode_header rfl rfl (ifFinite_true hw .nonFiniteStream _)
  | write ws => exact decode_encode_write hw
  | rdsGB => exact congrArg Except.ok (decodeGroup_encode_rdsGB ..)
  | rdsG0A => exact congrArg Except.ok (decodeGroup_encode_rdsG0A ..)
  | rdsG2A => exact congrArg Except.ok (decodeGroup_encode_rdsG2A ..)
  | rdsG4A => exact congrArg Except.ok (decodeGroup_encode_rdsG4A ..)
  | rdsG8A => exact congrArg Except.ok (decodeGroup_encode_rdsG8A ..)
  | rdsG1A | rdsG3A | rdsG5A | rdsG6A | rdsG7A | rdsG9A | rdsG10A | rdsG11A | rdsG12A | rdsG13A | rdsG14A | rdsG15A =>
    exact congrArg Except.ok (decodeGroup_encode_unused _ _ _ rfl ..)

end Sys2Proof
end

section
/-! PROOFS. What the next step does with the words presented at a port (30_encoding.md R121 to R140): run, refused or
dropped. -/

namespace Sys2Proof.Machine

/-! ## A step, by what the fetch answers -/

section
variable {s : State} {p : Port} {h : Word} {ws : List Word} {ds : List Delivery}

/-- An accepted operation that decodes is run (R121, R124). -/
theorem step_of_decoded {i : Instr} (hq : s.inq = .op p (h :: ws) :: ds) (hl : opLength h ≤ (h :: ws).length)
    (ha : portAccepts p h = true) (hd : decodeOp (h :: ws) = .ok i) :
    step s = exec i (s.taken p (restOf p (h :: ws) (opLength h) ds)) := by
  have hwhole : ¬ ws.length + 1 < opLength h := Nat.not_lt.mpr hl
  simp [step, fetch, hq, hwhole, ha, hd]

/-- An opcode the port does not accept is refused with ERR_OP before its words are looked at (R140, R381). -/
theorem step_of_unaccepted (hq : s.inq = .op p (h :: ws) :: ds) (hl : opLength h ≤ (h :: ws).length)
    (ha : portAccepts p h = false) :
    step s = .next ((s.taken p (restOf p (h :: ws) (opLength h) ds)).refuse p .errOp) := by
  have hwhole : ¬ ws.length + 1 < opLength h := Nat.not_lt.mpr hl
  simp [step, fetch, hq, hwhole, ha]

/-- An accepted operation whose words are malformed is refused with the decoder's status (R140). -/
theorem step_of_refused {e : Reject} {st : Status} (hq : s.inq = .op p (h :: ws) :: ds)
    (hl : opLength h ≤ (h :: ws).length) (ha : portAccepts p h = true) (hd : decodeOp (h :: ws) = .error e)
    (he : rejectStatus e = some st) :
    step s = .next ((s.taken p (restOf p (h :: ws) (opLength h) ds)).refuse p st) := by
  have hwhole : ¬ ws.length + 1 < opLength h := Nat.not_lt.mpr hl
  simp [step, fetch, hq, hwhole, ha, hd, he]

/-- An accepted operation the decoder gives no status is dropped (R373). -/
theorem step_of_dropped {e : Reject} (hq : s.inq = .op p (h :: ws) :: ds) (hl : opLength h ≤ (h :: ws).length)
    (ha : portAccepts p h = true) (hd : decodeOp (h :: ws) = .error e) (he : rejectStatus e = none) :
    step s = .next (s.taken p (restOf p (h :: ws) (opLength h) ds)) := by
  have hwhole : ¬ ws.length + 1 < opLength h := Nat.not_lt.mpr hl
  simp [step, fetch, hq, hwhole, ha, hd, he]

/-- A bare group is always run (R130). -/
theorem step_of_group {g : BitVec 64} (hq : s.inq = .group g :: ds) :
    step s = exec (decodeGroup g) (s.taken .gp ds) := by
  simp [step, fetch, hq]

end

/-- A delivery of exactly one operation leaves nothing behind (R124). -/
theorem restOf_whole {p : Port} {ws : List Word} {n : Nat} (hn : ws.length ≤ n) (ds : List Delivery) :
    restOf p ws n ds = ds := by
  rw [restOf, List.drop_eq_nil_of_le hn]

/-- What refusing changes: one response, at a port that carries them (R373, R385). -/
theorem refuse_eq (s : State) (p : Port) (st : Status) :
    s.refuse p st = { s with out := { s.out with
      rsq := if portResponds p then s.out.rsq ++ [⟨p, none, st, [], []⟩] else s.out.rsq } } := by
  unfold State.refuse
  split <;> rfl

/-! ## Running an operation -/

/-- Settles O2. -/
theorem stepRunsDecodedOperation : Obligations.StepRunsDecodedOperation :=
  ⟨fun _ _ _ _ _ _ hq hl ha hd => step_of_decoded hq hl ha hd, fun _ _ _ hq => step_of_group hq⟩

/-- A well-formed operation's words are as many as its header announces, and its own port accepts them (R121, R124). -/
theorem wholeWire_encode {i : Instr} {ws : List Word} (hw : i.wellFormed = true) (henc : encode i = .op ws) :
    Laws.wholeWire i (.op ws) := by
  cases i with
  | write samples => exact henc ▸ Laws.EncodesWhole.write samples hw
  | rdsGB | rdsG0A | rdsG1A | rdsG2A | rdsG3A | rdsG4A | rdsG5A | rdsG6A | rdsG7A | rdsG8A | rdsG9A | rdsG10A | rdsG11A
  | rdsG12A | rdsG13A | rdsG14A | rdsG15A => exact Wire.noConfusion henc
  | start | stop | tune | getfreq | seek | cancelseek | setchan | setdeemph | setsquelch | setgain | setrdsmode | setmode
  | read | waiting | cancel | flush | sample | group | tick | timeout | freqchg | wake | scanstart | scanstop | scanq
  | scanfeed | rdsreset =>
    cases henc
    exact Laws.wholeWire_op rfl rfl

/-- Settles O3: the encoding is whole and accepted at its own port, and it decodes to the operation (O1). -/
theorem encodedOperationRuns : Obligations.EncodedOperationRuns := by
  intro i s h ws ds hw henc hq
  obtain ⟨hlen, -, hacc⟩ := wholeWire_encode hw henc
  have hdec := decodeInvertsEncode i hw
  rw [henc] at hdec
  rw [step_of_decoded hq hlen.le hacc hdec, restOf_whole hlen.ge]
  rfl

/-! ## The opcodes of a port (R125 to R128) -/

/-- The table of R125 to R128 and the lists of `acceptedAt` name the same opcodes, whatever `imm16` is. -/
theorem opInfo_accepts (p : Port) (op : Nat) (imm : BitVec 16) :
    (opInfo op imm).any (fun info => info.2.contains p) = decide (op ∈ acceptedAt p) := by
  unfold opInfo
  split
  case h_29 =>
    symm
    rw [Option.any_none, decide_eq_false_iff_not]
    intro hop
    cases p <;> simp only [acceptedAt, List.mem_cons, List.not_mem_nil, or_false, imp_false] at * <;> omega
  all_goals cases p <;> rfl

theorem portAccepts_iff (p : Port) (h : Word) : portAccepts p h = true ↔ (opOf h).toNat ∈ acceptedAt p := by
  rw [← decide_eq_true_iff (p := _ ∈ _), ← opInfo_accepts p _ (immOf h), portAccepts, headerInfo]
  cases opInfo (opOf h).toNat (immOf h) <;> rfl

/-- The opcodes of R125 to R127, by range: what lies outside is unassigned, internal or an output record's (R142). -/
theorem mem_acceptedAt_range {p : Port} {op : Nat} (hp : p ≠ .inside) (hop : op ∈ acceptedAt p) :
    (0x01 ≤ op ∧ op ≤ 0x02) ∨ (0x10 ≤ op ∧ op ≤ 0x13) ∨ (0x20 ≤ op ∧ op ≤ 0x25) ∨ (0x40 ≤ op ∧ op ≤ 0x43) ∨
      (0x80 ≤ op ∧ op ≤ 0x85) := by
  cases p with
  | inside => exact absurd rfl hp
  | cp | ap | sp | gp | tk | fn =>
    simp only [acceptedAt, List.mem_cons, List.not_mem_nil, or_false] at hop
    omega

/-- Settles O5: the opcodes a port accepts are those of its table, and any other is refused. -/
theorem internalOpcodesRefusedAtPorts : Obligations.InternalOpcodesRefusedAtPorts := by
  refine ⟨?_, portAccepts_iff, ?_⟩
  · intro s p h ws ds hp hq hl hop
    have hacc : portAccepts p h = false := by
      rw [Bool.eq_false_iff, ne_eq, portAccepts_iff]
      exact hop
    have hresp : portResponds p = true ↔ p = .cp ∨ p = .ap := by
      cases p <;> simp_all [portResponds]
    rw [step_of_unaccepted hq hl hacc, refuse_eq]
    simp only [hresp]
    rfl
  · intro p op hp hrange hop
    have := mem_acceptedAt_range hp hop
    omega

end Sys2Proof.Machine
end

section
/-! PROOFS. The malformed words of R140 and the samples of R373 that are no values: which of the decoder's tests each
fails, and what the port answers (30_encoding.md R122, R129, R140; 60_exceptions.md R373). -/

namespace Sys2Proof.Machine

/-- The decoder rejects, with this answer at a port that carries responses. -/
def Rejects (st : Option Status) (r : Except Reject Instr) : Prop := ∃ e, r = .error e ∧ rejectStatus e = st

theorem rejects_error (e : Reject) : Rejects (rejectStatus e) (.error e) := ⟨e, rfl, rfl⟩

/-! ## The decoder's tests, one by one -/

section
variable {st : Option Status} {imm : BitVec 16} {ws : List Word}

theorem rejects_args0 {r : Except Reject Instr} (hl : ws.length = 0) (h : Rejects st r) : Rejects st (args0 ws r) := by
  obtain rfl := List.length_eq_zero_iff.mp hl
  exact h

theorem rejects_args1 {r : Word → Except Reject Instr} (hl : ws.length = 1) (h : ∀ a, ws = [a] → Rejects st (r a)) :
    Rejects st (args1 ws r) := by
  obtain ⟨a, rfl⟩ := List.length_eq_one_iff.mp hl
  exact h a rfl

theorem rejects_args2 {r : Word → Word → Except Reject Instr} (hl : ws.length = 2)
    (h : ∀ a b, ws = [a, b] → Rejects st (r a b)) : Rejects st (args2 ws r) := by
  obtain ⟨a, b, rfl⟩ := List.length_eq_two.mp hl
  exact h a b rfl

theorem rejects_args6 {r : Word → Word → Word → Word → Word → Word → Except Reject Instr} (hl : ws.length = 6)
    (h : ∀ a b c d e f, ws = [a, b, c, d, e, f] → Rejects st (r a b c d e f)) : Rejects st (args6 ws r) := by
  match ws, hl with
  | [a, b, c, d, e, f], _ => exact h a b c d e f rfl

theorem rejects_immZero_of_ne (h : imm ≠ 0#16) (r : Except Reject Instr) : Rejects (some .errArg) (immZero imm r) := by
  rw [immZero, if_neg h]
  exact rejects_error .immediate

/-- What is tested after `imm16` is refused alike. -/
theorem rejects_immZero {r : Except Reject Instr} (h : Rejects (some .errArg) r) :
    Rejects (some .errArg) (immZero imm r) := by
  unfold immZero
  split
  · exact h
  · exact rejects_error .immediate

theorem rejects_ifFinite {ok : Bool} (h : ok = false) (e : Reject) (r : Except Reject Instr) :
    Rejects (rejectStatus e) (ifFinite ok e r) := by
  rw [h]
  exact rejects_error e

theorem rejects_byCode {α : Type} {x : Option α} (h : x = none) (mk : α → Instr) :
    Rejects (some .errArg) (byCode x mk) := by
  rw [h]
  exact rejects_error .enumeration

theorem rejects_squelchArgs_bits (h : imm.extractLsb' 1 15 ≠ 0#15) (level : Word) :
    Rejects (some .errArg) (squelchArgs imm level) := by
  rw [squelchArgs, if_neg h]
  exact rejects_error .squelchBits

theorem rejects_squelchArgs_level {level : Word} (h : f32Finite level = false) :
    Rejects (some .errArg) (squelchArgs imm level) := by
  unfold squelchArgs
  split
  · exact rejects_ifFinite h .nonFinite _
  · exact rejects_error .squelchBits

theorem rejects_writeArgs_odd (h : imm.toNat % 2 = 1) : Rejects (some .errArg) (writeArgs imm ws) := by
  rw [writeArgs, if_pos h]
  exact rejects_error .oddCount

theorem rejects_writeArgs_samples (he : imm.toNat % 2 = 0) (h : ws.all f32Finite = false) :
    Rejects none (writeArgs imm ws) := by
  rw [writeArgs, if_neg (by omega)]
  exact rejects_ifFinite h .nonFiniteStream _

/-! ## Codes outside the tables of R129 -/

theorem chanOf_eq_none (h : 4 < imm.toNat) : chanOf imm = none := by
  unfold chanOf
  split <;> first | omega | rfl

theorem deemphOf_eq_none (h : 2 < imm.toNat) : deemphOf imm = none := by
  unfold deemphOf
  split <;> first | omega | rfl

theorem rdsModeOf_eq_none (h : 2 < imm.toNat) : rdsModeOf imm = none := by
  unfold rdsModeOf
  split <;> first | omega | rfl

theorem modeOf_eq_none (h : 1 < imm.toNat) : modeOf imm = none := by
  unfold modeOf
  split <;> first | omega | rfl

end

/-! ## The arguments of an operation with all its words -/

section
variable {op n : Nat} {imm : BitVec 16} {ps : List Port} {ws : List Word}

/-- R125 to R128: the opcodes whose `imm16` must be 0, by their number of operand words. -/
theorem rejects_immediate (hi : opInfo op imm = some (n, ps)) (hl : ws.length = n) (hop : op ∈ immMustBeZero)
    (himm : imm ≠ 0#16) : Rejects (some .errArg) (decodeArgs op imm ws) := by
  simp only [immMustBeZero, List.mem_cons, List.not_mem_nil, or_false] at hop
  rcases hop with rfl | rfl | rfl | rfl | rfl | rfl | rfl | rfl | rfl | rfl | rfl | rfl | rfl | rfl | rfl | rfl | rfl |
    rfl | rfl
  all_goals cases hi
  any_goals exact rejects_args0 hl (rejects_immZero_of_ne himm _)
  any_goals exact rejects_args1 hl fun _ _ => rejects_immZero_of_ne himm _
  any_goals exact rejects_args2 hl fun _ _ _ => rejects_immZero_of_ne himm _
  exact rejects_args6 hl fun _ _ _ _ _ _ _ => rejects_immZero_of_ne himm _

/-- R123, R140: the first operand of `SEEK`, `SETSQUELCH` and `SCANSTART` is an f32. -/
theorem rejects_nonFinite {w : Word} {rest : List Word} (hi : opInfo op imm = some (n, ps))
    (hl : ((w :: rest).take n).length = n) (hop : op ∈ [0x12, 0x22, 0x91]) (hw : f32Finite w = false) :
    Rejects (some .errArg) (decodeArgs op imm ((w :: rest).take n)) := by
  simp only [List.mem_cons, List.not_mem_nil, or_false] at hop
  rcases hop with rfl | rfl | rfl <;> cases hi
  · refine rejects_args6 hl fun thr _ _ _ _ _ e => ?_
    obtain ⟨rfl, -⟩ := List.cons.inj e
    exact rejects_immZero (rejects_ifFinite hw .nonFinite _)
  · refine rejects_args1 (r := squelchArgs imm) hl fun level e => ?_
    obtain ⟨rfl, -⟩ := List.cons.inj e
    exact rejects_squelchArgs_level hw
  · refine rejects_args2 hl fun thr _ e => ?_
    obtain ⟨rfl, -⟩ := List.cons.inj e
    exact rejects_immZero (rejects_ifFinite hw .nonFinite _)

/-- R373: the samples of `SAMPLE` and `SCANFEED` have to be values; they are tested last. -/
theorem rejects_samples (hi : opInfo op 0#16 = some (n, ps)) (hl : (ws.take n).length = n) (hop : op ∈ [0x80, 0x94])
    (hws : (ws.take 2).all f32Finite = false) : Rejects none (decodeArgs op 0#16 (ws.take n)) := by
  simp only [List.mem_cons, List.not_mem_nil, or_false] at hop
  have hpair {a b : Word} (e : ws.take 2 = [a, b]) : (f32Finite a && f32Finite b) = false := by
    simpa [e] using hws
  rcases hop with rfl | rfl
  all_goals
    cases hi
    exact rejects_args2 hl fun a b e => rejects_ifFinite (hpair e) .nonFiniteStream _

end

/-! ## The words of an operation -/

section
variable {h : Word} {n : Nat} {ps : List Port} {ws : List Word}

/-- The opcode is looked up first, then `rsv`, then the arguments (R381). -/
theorem decodeOp_assigned (hi : headerInfo h = some (n, ps)) (hl : n ≤ ws.length) :
    decodeOp (h :: ws) =
      if rsvOf h ≠ 0#8 then .error .reserved else decodeArgs (opOf h).toNat (immOf h) (ws.take n) := by
  simp only [decodeOp, hi, Nat.not_lt.mpr hl, if_false]

/-- The clauses of `MalformedWords`, each at the test it fails. -/
theorem rejects_of_malformed (hi : headerInfo h = some (n, ps)) (hl : n ≤ ws.length) (hm : MalformedWords h ws) :
    Rejects (some .errArg) (decodeOp (h :: ws)) := by
  have hlen : (ws.take n).length = n := List.length_take_of_le hl
  rw [decodeOp_assigned hi hl]
  split
  · exact rejects_error .reserved
  · next hr =>
    rw [headerInfo] at hi
    rcases hm with hr' | ⟨hop, himm⟩ | ⟨hop, hc⟩ | ⟨hop, hc⟩ | ⟨hop, hc⟩ | ⟨hop, hc⟩ | ⟨hop, hb⟩ | ⟨hop, ho⟩ |
      ⟨hop, w, rest, rfl, hw⟩
    · exact absurd hr' hr
    · exact rejects_immediate hi hlen hop himm
    · rw [hop] at hi ⊢
      cases hi
      exact rejects_args0 hlen (rejects_byCode (chanOf_eq_none hc) _)
    · rw [hop] at hi ⊢
      cases hi
      exact rejects_args0 hlen (rejects_byCode (deemphOf_eq_none hc) _)
    · rw [hop] at hi ⊢
      cases hi
      exact rejects_args0 hlen (rejects_byCode (rdsModeOf_eq_none hc) _)
    · rw [hop] at hi ⊢
      cases hi
      exact rejects_args0 hlen (rejects_byCode (modeOf_eq_none hc) _)
    · rw [hop] at hi ⊢
      cases hi
      exact rejects_args1 hlen fun level _ => rejects_squelchArgs_bits hb level
    · rw [hop]
      exact rejects_writeArgs_odd ho
    · exact rejects_nonFinite hi hlen hop hw

/-- The clauses of `NonFiniteSamples`: nothing else is amiss, and the samples are tested last. -/
theorem rejects_of_nonFiniteSamples (hi : headerInfo h = some (n, ps)) (hl : n ≤ ws.length)
    (hs : NonFiniteSamples h ws) : Rejects none (decodeOp (h :: ws)) := by
  have hlen : (ws.take n).length = n := List.length_take_of_le hl
  obtain ⟨hr, ⟨hop, himm, hws⟩ | ⟨hop, he, hws⟩⟩ := hs
  · rw [decodeOp_assigned hi hl, if_neg (not_not.mpr hr)]
    rw [headerInfo, himm] at hi
    rw [himm]
    exact rejects_samples hi hlen hop hws
  · rw [decodeOp_assigned hi hl, if_neg (not_not.mpr hr)]
    rw [headerInfo, hop] at hi
    cases hi
    rw [hop]
    exact rejects_writeArgs_samples he hws

end

/-- An accepted opcode is assigned, and `opLength` counts its words (R124). -/
theorem headerInfo_of_accepts {p : Port} {h : Word} (ha : portAccepts p h = true) :
    ∃ n ps, headerInfo h = some (n, ps) ∧ opLength h = 1 + n := by
  unfold portAccepts at ha
  split at ha
  · next info hi => exact ⟨info.1, info.2, hi, by rw [opLength, hi]⟩
  · cases ha

/-- Settles O6. -/
theorem reservedBitsRefused : Obligations.ReservedBitsRefused := by
  intro s p h ws ds hq hl ha
  obtain ⟨n, ps, hi, hn⟩ := headerInfo_of_accepts ha
  have hws : n ≤ ws.length := by
    rw [hn, List.length_cons] at hl
    omega
  constructor
  · intro hm
    obtain ⟨e, hd, he⟩ := rejects_of_malformed hi hws hm
    rw [step_of_refused hq hl ha hd he, refuse_eq]
    rfl
  · intro hs
    obtain ⟨e, hd, he⟩ := rejects_of_nonFiniteSamples hi hws hs
    rw [step_of_dropped hq hl ha hd he]
    rfl

end Sys2Proof.Machine
end

section
/-! PROOFS. `GROUP` and the group its four blocks make (42_rds_group_decoder.md R231, R234): every group runs the rule of
its type on its blocks. -/

namespace Sys2Proof.Machine

/-- A field of a field. -/
theorem extract_extract {w n k : Nat} (x : BitVec w) (a b : Nat) (h : b + k ≤ n) :
    (x.extractLsb' a n).extractLsb' b k = x.extractLsb' (a + b) k := by
  apply BitVec.eq_of_getLsbD_eq
  intro i hi
  simp only [BitVec.getLsbD_extractLsb', hi, show b + i < n by omega, decide_true, Bool.true_and, Nat.add_assoc]

/-- A bit of a field. -/
theorem bit_extract {w n : Nat} (x : BitVec w) (a b : Nat) (h : b < n) :
    (x.extractLsb' a n).getLsbD b = x.getLsbD (a + b) := by
  simp only [BitVec.getLsbD_extractLsb', h, decide_true, Bool.true_and]

/-- The rule `GROUP` dispatches to (R231, R234), on the blocks of a 64-bit group. -/
def ruleOf (c : Config) (g : BitVec 64) : Rds → Rds × List Event :=
  groupRule c (g.extractLsb' 32 16) (g.extractLsb' 16 16) (g.extractLsb' 0 16)

section
variable {g : BitVec 64} (c : Config)

theorem ruleOf_versionB (hv : g.getLsbD 43 = true) : ruleOf c g = gIgnored := by
  funext u
  simp (disch := omega) only [ruleOf, groupRule, bit_extract, Nat.reduceAdd, hv, if_true]

theorem ruleOf_type0 (hv : g.getLsbD 43 = false) (ht : gType g = 0#4) :
    ruleOf c g = g0a (g.extractLsb' 32 2) (g.extractLsb' 8 8) (g.extractLsb' 0 8) := by
  funext u
  rw [gType] at ht
  simp (disch := omega) only [ruleOf, groupRule, bit_extract, extract_extract, Nat.reduceAdd, Nat.add_zero, hv, ht]
  rfl

theorem ruleOf_type2 (hv : g.getLsbD 43 = false) (ht : gType g = 2#4) :
    ruleOf c g = g2a c (g.getLsbD 36) (g.extractLsb' 32 4) (g.extractLsb' 24 8) (g.extractLsb' 16 8)
      (g.extractLsb' 8 8) (g.extractLsb' 0 8) := by
  funext u
  rw [gType] at ht
  simp (disch := omega) only [ruleOf, groupRule, bit_extract, extract_extract, Nat.reduceAdd, Nat.add_zero, hv, ht]
  rfl

theorem ruleOf_type4 (hv : g.getLsbD 43 = false) (ht : gType g = 4#4) :
    ruleOf c g = g4a (g.extractLsb' 17 17) (g.extractLsb' 12 5) (g.extractLsb' 6 6) := by
  funext u
  have hday : g.extractLsb' 32 2 ++ g.extractLsb' 17 15 = g.extractLsb' 17 17 :=
    BitVec.extractLsb'_append_extractLsb'_eq_extractLsb' rfl
  have hhour : g.extractLsb' 16 1 ++ g.extractLsb' 12 4 = g.extractLsb' 12 5 :=
    BitVec.extractLsb'_append_extractLsb'_eq_extractLsb' rfl
  rw [gType] at ht
  simp (disch := omega) only [ruleOf, groupRule, bit_extract, extract_extract, Nat.reduceAdd, Nat.add_zero, hv, ht,
    hday, hhour]
  rfl

theorem ruleOf_type8 (hv : g.getLsbD 43 = false) (ht : gType g = 8#4) :
    ruleOf c g = g8a c (g.extractLsb' 36 1) (g.extractLsb' 35 1) (g.extractLsb' 16 11) (g.extractLsb' 0 16) := by
  funext u
  rw [gType] at ht
  simp (disch := omega) only [ruleOf, groupRule, bit_extract, extract_extract, Nat.reduceAdd, Nat.add_zero, hv, ht]
  rfl

theorem ruleOf_unused {row : UnusedRow} (hv : g.getLsbD 43 = false) (hr : unusedRow (gType g) = some row) :
    ruleOf c g = gIgnored := by
  funext u
  unfold unusedRow at hr
  rw [gType] at hr
  split at hr <;> cases hr <;>
  · next ht =>
    simp (disch := omega) only [ruleOf, groupRule, bit_extract, extract_extract, Nat.reduceAdd, hv, ht]
    rfl

end

/-- An unused row only tracks its PI (R232, R240). -/
theorem exec_unused {t : BitVec 4} {row : UnusedRow} (hr : unusedRow t = some row) (pi : Block) (tp : BitVec 1)
    (pty rest : BitVec 5) (c d : Block) (s : State) :
    exec (row pi tp pty rest c d) s = .next (onGroup pi gIgnored s) := by
  unfold unusedRow at hr
  split at hr <;> cases hr <;> rfl

/-- Every group completes, with its type's rule behind the gate and `PiCheck` (R231). -/
theorem exec_decodeGroup (g : BitVec 64) (s : State) :
    exec (decodeGroup g) s = .next (onGroup (gPi g) (ruleOf s.params g) s) := by
  cases hv : g.getLsbD 43 with
  | true => rw [decodeGroup_versionB hv, ruleOf_versionB _ hv]; rfl
  | false =>
    rcases typeCode_cases (gType g) with ht | ht | ht | ht | ⟨row, hr⟩
    · rw [decodeGroup_type0 hv ht, ruleOf_type0 _ hv ht]; rfl
    · have hab : (g.extractLsb' 36 1).getLsbD 0 = g.getLsbD 36 := bit_extract g 36 0 (by omega)
      rw [decodeGroup_type2 hv ht, ruleOf_type2 _ hv ht, ← hab]; rfl
    · rw [decodeGroup_type4 hv ht, ruleOf_type4 _ hv ht]; rfl
    · rw [decodeGroup_type8 hv ht, ruleOf_type8 _ hv ht]; rfl
    · rw [decodeGroup_unused hv hr, exec_unused hr, ruleOf_unused _ hv hr]

/-- The blocks of `A ++ B ++ C ++ D` (R127, R130). -/
theorem gPi_append (ab cd : Word) : gPi (ab ++ cd) = blockHigh ab := extract_upper ab cd (by omega)

theorem ruleOf_append (c : Config) (ab cd : Word) :
    ruleOf c (ab ++ cd) = groupRule c (blockLow ab) (blockHigh cd) (blockLow cd) := by
  simp (disch := omega) only [ruleOf, blockHigh, blockLow, extract_upper, extract_lower, Nat.reduceSub]

/-- Settles O38. -/
theorem groupRunsItsType : Obligations.GroupRunsItsType := by
  intro s ab cd
  refine ⟨_, rfl, ?_⟩
  rw [exec_decodeGroup, gPi_append, ruleOf_append]

end Sys2Proof.Machine
end

section
/-! PROOFS. The f32 words of the ports (30_encoding.md R123, R145 to R149): the value of a word, and the word of a real,
which is the nearest. A word is its sign and its low 31 bits; these are a binary exponent and a significand, `gridBits`,
whose value is a multiple of one unit in the last place. -/

namespace Sys2Proof

/-! ## The fields of a word -/

/-- The word without its sign. -/
def lowBits (w : Word) : Nat := w.toNat % 2147483648

theorem f32Exp_eq (w : Word) : f32Exp w = lowBits w / 8388608 := by
  simp only [f32Exp, lowBits, BitVec.extractLsb'_toNat, Nat.shiftRight_eq_div_pow]
  omega

theorem f32Frac_eq (w : Word) : f32Frac w = lowBits w % 8388608 := by
  simp only [f32Frac, lowBits, BitVec.extractLsb'_toNat, Nat.shiftRight_eq_div_pow]
  omega

theorem f32Finite_iff (w : Word) : f32Finite w = true ↔ lowBits w < 2139095040 := by
  have hlow : lowBits w < 2147483648 := Nat.mod_lt _ (by omega)
  rw [f32Finite, bne_iff_ne, f32Exp_eq]
  omega

theorem sign_iff (w : Word) : w.getLsbD 31 = true ↔ 2147483648 ≤ w.toNat := by
  have := w.isLt
  rw [← BitVec.msb_eq_getLsbD_last, BitVec.msb_eq_decide]
  simp

theorem even_iff (w : Word) : w.getLsbD 0 = false ↔ lowBits w % 2 = 0 := by
  rw [lowBits, BitVec.getLsbD, Nat.testBit_zero, decide_eq_false_iff_not]
  omega

/-! ## The value of a word (R123) -/

/-- The magnitude of the low 31 bits: subnormal, or with the hidden bit. -/
noncomputable def magReal (b : Nat) : ℝ :=
  if b / 8388608 = 0 then ((b % 8388608 : Nat) : ℝ) * 2 ^ (-149 : Int)
  else (2 ^ 23 + ((b % 8388608 : Nat) : ℝ)) * 2 ^ (((b / 8388608 : Nat) : Int) - 150)

theorem f32Magnitude_eq (w : Word) : ((f32Magnitude w : Rat) : ℝ) = magReal (lowBits w) := by
  unfold f32Magnitude magReal
  rw [← f32Exp_eq, ← f32Frac_eq]
  split_ifs with h0 h150
  · rw [Rat.mkRat_eq_div, natPow_eq]
    push_cast
    rw [zpow_neg, div_eq_mul_inv]
    norm_cast
  · rw [Rat.mkRat_eq_div, natPow_eq, show ((f32Exp w : Nat) : Int) - 150 = ((f32Exp w - 150 : Nat) : Int) by omega,
      zpow_natCast]
    push_cast
    norm_num
  · rw [Rat.mkRat_eq_div, natPow_eq, show ((f32Exp w : Nat) : Int) - 150 = -((150 - f32Exp w : Nat) : Int) by omega,
      zpow_neg, zpow_natCast, ← div_eq_mul_inv]
    push_cast
    norm_num

theorem toReal_f32Real (w : Word) :
    (Machine.f32Real w).toReal = (if w.getLsbD 31 then -1 else 1) * magReal (lowBits w) := by
  rw [Machine.f32Real, toReal_rat, f32Value, ← f32Magnitude_eq]
  split_ifs <;> simp

/-! ## Exponent and significand -/

/-- The low 31 bits of `n` units at the binary exponent `e`; the hidden bit of `n` carries into the exponent field. -/
def gridBits (e : Int) (n : Nat) : Nat := (e + 126).toNat * 8388608 + n

theorem gridBits_parity (e : Int) (n : Nat) : gridBits e n % 2 = n % 2 := by
  unfold gridBits
  omega

theorem significand_pos {e : Int} {n : Nat} (hb : 0 < gridBits e n) (h : 8388608 ≤ n ∨ e = -126) : 0 < n := by
  unfold gridBits at hb
  omega

/-- A rounded significand of 2^24 is the next exponent's 2^23, at the same value. -/
theorem magReal_gridBits {e : Int} {n : Nat} (he : -126 ≤ e) (hn : n ≤ 16777216) (h : 8388608 ≤ n ∨ e = -126) :
    magReal (gridBits e n) = n * 2 ^ (e - 23) := by
  obtain ⟨k, rfl⟩ : ∃ k : Nat, e = k - 126 := ⟨(e + 126).toNat, by omega⟩
  have hk : gridBits (k - 126) n = k * 8388608 + n := by unfold gridBits; congr 2; omega
  rw [hk, magReal]
  rcases Nat.lt_or_ge n 8388608 with hlt | hge
  · obtain rfl : k = 0 := by omega
    rw [if_pos (by omega), show (0 * 8388608 + n) % 8388608 = n by omega]
    norm_num
  · rw [if_neg (by omega)]
    rcases Nat.lt_or_ge n 16777216 with hlt | hge'
    · rw [show (k * 8388608 + n) / 8388608 = k + 1 by omega, show (k * 8388608 + n) % 8388608 = n - 8388608 by omega,
        Nat.cast_sub hge, show ((k + 1 : Nat) : Int) - 150 = k - 126 - 23 by omega]
      norm_num
    · obtain rfl : n = 16777216 := by omega
      rw [show (k * 8388608 + 16777216) / 8388608 = k + 2 by omega,
        show (k * 8388608 + 16777216) % 8388608 = 0 by omega,
        show ((k + 2 : Nat) : Int) - 150 = 1 + (k - 126 - 23) by omega, zpow_add₀ (by norm_num)]
      norm_num
      ring

theorem exists_gridBits (b : Nat) :
    ∃ (e : Int) (n : Nat), -126 ≤ e ∧ n < 16777216 ∧ (8388608 ≤ n ∨ e = -126) ∧ gridBits e n = b := by
  unfold gridBits
  by_cases h : b / 8388608 = 0
  · exact ⟨-126, b, by omega, by omega, by omega, by omega⟩
  · exact ⟨(b / 8388608 : Nat) - 127, 8388608 + b % 8388608, by omega, by omega, by omega, by omega⟩

/-! ## The exponent of a real -/

/-- The exponent at which a positive real is rounded: its own, or that of the subnormals. -/
noncomputable def binade (m : ℝ) : Int := max (Int.log 2 m) (-126)

/-- A positive real in units in the last place. -/
noncomputable def ulps (m : ℝ) : ℝ := m / 2 ^ (binade m - 23)

theorem f32BitsReal_eq (m : ℝ) : f32BitsReal m = min (gridBits (binade m) (roundEvenReal (ulps m))) 2139095040 := rfl

theorem unit_pos (e : Int) : (0 : ℝ) < 2 ^ (e - 23) := by positivity

theorem ulps_mul (m : ℝ) : ulps m * 2 ^ (binade m - 23) = m := div_mul_cancel₀ m (unit_pos _).ne'

theorem le_binade (m : ℝ) : -126 ≤ binade m := le_max_right _ _

/-- `2 ^ a` in units of the exponent `e`. -/
theorem zpow_unit (a e : Int) : (2 : ℝ) ^ a = 2 ^ (a - e + 23) * 2 ^ (e - 23) := by
  rw [← zpow_add₀ (by norm_num)]
  congr 1
  ring

theorem ulps_lt (m : ℝ) : ulps m < 16777216 := by
  have hlog : m < (2 : ℝ) ^ (Int.log 2 m + 1) := by
    exact_mod_cast Int.lt_zpow_succ_log_self (b := 2) (by norm_num) m
  have hle : (2 : ℝ) ^ (Int.log 2 m + 1) ≤ 2 ^ (binade m + 1) :=
    zpow_le_zpow_right₀ (by norm_num) (by have := le_max_left (Int.log 2 m) (-126); unfold binade; omega)
  rw [ulps, div_lt_iff₀ (unit_pos _)]
  calc m < 2 ^ (binade m + 1) := hlog.trans_le hle
    _ = 16777216 * 2 ^ (binade m - 23) := by
      rw [zpow_unit _ (binade m), show binade m + 1 - binade m + 23 = (24 : Nat) by push_cast; ring, zpow_natCast]
      norm_num

theorem le_ulps {m : ℝ} (hm : 0 < m) (h : binade m ≠ -126) : 8388608 ≤ ulps m := by
  have he : binade m = Int.log 2 m := by unfold binade at h ⊢; omega
  have hlog : (2 : ℝ) ^ binade m ≤ m := by
    rw [he]
    exact_mod_cast Int.zpow_log_le_self (b := 2) (by norm_num) hm
  rw [ulps, le_div_iff₀ (unit_pos _)]
  calc (8388608 : ℝ) * 2 ^ (binade m - 23) = 2 ^ binade m := by
        rw [zpow_unit (binade m) (binade m), show binade m - binade m + 23 = (23 : Nat) by push_cast; ring, zpow_natCast]
        norm_num
    _ ≤ m := hlog

/-- The exponent of a value on the grid is the grid's. -/
theorem binade_grid {e : Int} {n : Nat} (he : -126 ≤ e) (h0 : 0 < n) (hn : n < 16777216) (h : 8388608 ≤ n ∨ e = -126) :
    binade (n * 2 ^ (e - 23)) = e := by
  have hpos : (0 : ℝ) < n * 2 ^ (e - 23) := mul_pos (by exact_mod_cast h0) (unit_pos e)
  have hup : Int.log 2 ((n : ℝ) * 2 ^ (e - 23)) < e + 1 := by
    rw [← Int.lt_zpow_iff_log_lt (by norm_num) hpos]
    have hc : (n : ℝ) < 16777216 := by exact_mod_cast hn
    calc (n : ℝ) * 2 ^ (e - 23) < 16777216 * 2 ^ (e - 23) := by have := unit_pos e; gcongr
      _ = ((2 : Nat) : ℝ) ^ (e + 1) := by
        rw [Nat.cast_ofNat, zpow_unit (e + 1) e, show e + 1 - e + 23 = (24 : Nat) by push_cast; ring, zpow_natCast]
        norm_num
  unfold binade
  rcases h with h | rfl
  · have hlo : e ≤ Int.log 2 ((n : ℝ) * 2 ^ (e - 23)) := by
      rw [← Int.zpow_le_iff_le_log (by norm_num) hpos]
      have hc : (8388608 : ℝ) ≤ n := by exact_mod_cast h
      calc ((2 : Nat) : ℝ) ^ e = 8388608 * 2 ^ (e - 23) := by
            rw [Nat.cast_ofNat, zpow_unit e e, show e - e + 23 = (23 : Nat) by push_cast; ring, zpow_natCast]
            norm_num
        _ ≤ n * 2 ^ (e - 23) := by have := unit_pos e; gcongr
    omega
  · omega

/-- A word's magnitude is rounded to the word. -/
theorem f32BitsReal_magReal {b : Nat} (h0 : 0 < b) (hb : b < 2139095040) : f32BitsReal (magReal b) = b := by
  obtain ⟨e, n, he, hn, h, rfl⟩ := exists_gridBits b
  rw [f32BitsReal_eq, magReal_gridBits he hn.le h, ulps, binade_grid he (significand_pos h0 h) hn h,
    mul_div_cancel_right₀ _ (unit_pos e).ne', roundEvenReal_natCast]
  omega

/-! ## The nearest word -/

/-- No integer is nearer than the rounded one, and it is even where another is as near. -/
theorem roundEvenReal_nearest {y : ℝ} (hy : 0 ≤ y) (k : Int) :
    |(roundEvenReal y : ℝ) - y| ≤ |(k : ℝ) - y| ∧
      (|(roundEvenReal y : ℝ) - y| = |(k : ℝ) - y| → (k : ℝ) ≠ roundEvenReal y → roundEvenReal y % 2 = 0) := by
  obtain ⟨hhalf, heven⟩ := roundEvenReal_spec hy
  by_cases hk : k = roundEvenReal y
  · subst hk
    exact ⟨by simp, fun _ hne => absurd (by simp) hne⟩
  · have hsep : (1 : ℝ) ≤ |(k : ℝ) - roundEvenReal y| := by
      have : (1 : Int) ≤ |k - roundEvenReal y| := Int.one_le_abs (sub_ne_zero.mpr hk)
      exact_mod_cast this
    have htri : |(k : ℝ) - roundEvenReal y| ≤ |(k : ℝ) - y| + |(roundEvenReal y : ℝ) - y| := by
      rw [abs_sub_comm (roundEvenReal y : ℝ) y]
      exact abs_sub_le _ _ _
    exact ⟨by linarith, fun heq _ => heven (by linarith)⟩

theorem roundEvenReal_lt {y : ℝ} {k : Nat} (hy : 0 ≤ y) (h : y < k - 1 / 2) : roundEvenReal y < k := by
  have := (abs_le.mp (roundEvenReal_spec hy).1).2
  exact_mod_cast (by linarith : (roundEvenReal y : ℝ) < k)

theorem le_roundEvenReal {y : ℝ} {k : Nat} (hy : 0 ≤ y) (h : k ≤ y) : k ≤ roundEvenReal y := by
  have := (abs_le.mp (roundEvenReal_spec hy).1).1
  have : (k : ℝ) < roundEvenReal y + 1 := by linarith
  exact Nat.lt_succ_iff.mp (by exact_mod_cast this)

theorem magReal_nonneg (b : Nat) : 0 ≤ magReal b := by
  unfold magReal
  split <;> positivity

/-- A magnitude is a whole number of units, or it lies below the exponent's first value. -/
theorem magReal_units (b : Nat) (e : Int) :
    (∃ k : Nat, magReal b = k * 2 ^ (e - 23)) ∨ (e ≠ -126 ∧ magReal b < 8388608 * 2 ^ (e - 23)) := by
  obtain ⟨e', n, he', hn, h, rfl⟩ := exists_gridBits b
  rw [magReal_gridBits he' hn.le h]
  rcases le_or_gt e e' with hle | hlt
  · refine .inl ⟨n * 2 ^ (e' - e).toNat, ?_⟩
    have hk : (2 : ℝ) ^ (e' - 23) = 2 ^ (e' - e).toNat * 2 ^ (e - 23) := by
      rw [← zpow_natCast, ← zpow_add₀ (by norm_num)]
      congr 1
      omega
    rw [hk]
    push_cast
    ring
  · refine .inr ⟨by omega, ?_⟩
    have hc : (n : ℝ) < 16777216 := by exact_mod_cast hn
    calc (n : ℝ) * 2 ^ (e' - 23) < 16777216 * 2 ^ (e' - 23) := by have := unit_pos e'; gcongr
      _ = 8388608 * 2 ^ (e' + 1 - 23) := by
        rw [show e' + 1 - 23 = 1 + (e' - 23) by ring, zpow_add₀ (by norm_num)]
        norm_num
        ring
      _ ≤ 8388608 * 2 ^ (e - 23) := by
        gcongr
        · norm_num
        · omega

section
variable {m : ℝ} (hm : 0 < m)
include hm

theorem ulps_pos : 0 < ulps m := div_pos hm (unit_pos _)

theorem rounded_le : roundEvenReal (ulps m) ≤ 16777216 := by
  have hlt : ulps m < (16777217 : Nat) - 1 / 2 := by have := ulps_lt m; push_cast; linarith
  exact Nat.lt_succ_iff.mp (roundEvenReal_lt (ulps_pos hm).le hlt)

theorem rounded_ge : 8388608 ≤ roundEvenReal (ulps m) ∨ binade m = -126 := by
  by_cases h : binade m = -126
  · exact .inr h
  · exact .inl (le_roundEvenReal (ulps_pos hm).le (by exact_mod_cast le_ulps hm h))

/-- Below the overflow threshold the rounded bits are finite (R148). -/
theorem gridBits_rounded_lt (hlt : m < 2 ^ 128 - 2 ^ 103) :
    gridBits (binade m) (roundEvenReal (ulps m)) < 2139095040 := by
  have hn := rounded_le hm
  have he := le_binade m
  have htop : binade m ≤ 127 := by
    have hlog : Int.log 2 m < 128 := by
      rw [← Int.lt_zpow_iff_log_lt (by norm_num) hm]
      calc m < 2 ^ 128 - 2 ^ 103 := hlt
        _ < ((2 : Nat) : ℝ) ^ (128 : Int) := by norm_num
    unfold binade
    omega
  rcases eq_or_ne (binade m) 127 with h127 | hne
  · have hy : ulps m < (16777216 : Nat) - 1 / 2 := by
      rw [ulps, div_lt_iff₀ (unit_pos _), h127]
      norm_num
      linarith
    have := roundEvenReal_lt (ulps_pos hm).le hy
    unfold gridBits
    omega
  · unfold gridBits
    omega

theorem f32BitsReal_rounded (hlt : m < 2 ^ 128 - 2 ^ 103) :
    f32BitsReal m = gridBits (binade m) (roundEvenReal (ulps m)) :=
  min_eq_left (gridBits_rounded_lt hm hlt).le

/-- No magnitude, of either sign, is nearer than the rounded one; the even one where two are as near (R148). -/
theorem f32BitsReal_nearest (hlt : m < 2 ^ 128 - 2 ^ 103) {r : ℝ} {b : Nat} (hr : r = magReal b ∨ r = -magReal b) :
    |magReal (f32BitsReal m) - m| ≤ |r - m| ∧
      (|magReal (f32BitsReal m) - m| = |r - m| → r ≠ magReal (f32BitsReal m) → f32BitsReal m % 2 = 0) := by
  rw [f32BitsReal_rounded hm hlt, gridBits_parity, magReal_gridBits (le_binade m) (rounded_le hm) (rounded_ge hm)]
  have hu := unit_pos (binade m)
  have hy := (ulps_pos hm).le
  have hdist (x : ℝ) : |x * 2 ^ (binade m - 23) - m| = |x - ulps m| * 2 ^ (binade m - 23) := by
    rw [← abs_of_pos hu, ← abs_mul, abs_of_pos hu, sub_mul, ulps_mul]
  rw [hdist]
  have hr' : (∃ k : Int, r = k * 2 ^ (binade m - 23)) ∨ (binade m ≠ -126 ∧ r < 8388608 * 2 ^ (binade m - 23)) := by
    rcases magReal_units b (binade m) with ⟨k, hk⟩ | ⟨hne, hb⟩
    · rcases hr with rfl | rfl
      · exact .inl ⟨k, by rw [hk]; push_cast; ring⟩
      · exact .inl ⟨-k, by rw [hk]; push_cast; ring⟩
    · have := magReal_nonneg b
      rcases hr with rfl | rfl
      · exact .inr ⟨hne, hb⟩
      · exact .inr ⟨hne, by linarith⟩
  rcases hr' with ⟨k, rfl⟩ | ⟨hne, hbelow⟩
  · obtain ⟨hle, heven⟩ := roundEvenReal_nearest hy k
    rw [hdist]
    refine ⟨mul_le_mul_of_nonneg_right hle hu.le, fun heq hne => heven (mul_right_cancel₀ hu.ne' heq) fun h => hne ?_⟩
    rw [h]
  · have hge := le_ulps hm hne
    have hfirst : |(roundEvenReal (ulps m) : ℝ) - ulps m| ≤ ulps m - 8388608 := by
      have := (roundEvenReal_nearest hy 8388608).1
      rwa [abs_sub_comm ((8388608 : Int) : ℝ), Int.cast_ofNat, abs_of_nonneg (sub_nonneg.mpr hge)] at this
    have hstrict : |(roundEvenReal (ulps m) : ℝ) - ulps m| * 2 ^ (binade m - 23) < |r - m| :=
      calc |(roundEvenReal (ulps m) : ℝ) - ulps m| * 2 ^ (binade m - 23)
          ≤ (ulps m - 8388608) * 2 ^ (binade m - 23) := mul_le_mul_of_nonneg_right hfirst hu.le
        _ = m - 8388608 * 2 ^ (binade m - 23) := by rw [sub_mul, ulps_mul]
        _ < m - r := by linarith
        _ ≤ |r - m| := by rw [abs_sub_comm]; exact le_abs_self _
    exact ⟨hstrict.le, fun heq => absurd heq hstrict.ne⟩

end

/-! ## The word of a real (R148) -/

theorem f32BitsReal_le (m : ℝ) : f32BitsReal m ≤ 2139095040 := min_le_right _ _

/-- What a negative and a positive real leave as: the sign, and the bits of the magnitude. -/
theorem f32OfReal_of_pos {x : ℝ} (hx : 0 < x) :
    (f32OfReal x).getLsbD 31 = false ∧ lowBits (f32OfReal x) = f32BitsReal x := by
  have hle := f32BitsReal_le x
  have hw : (f32OfReal x).toNat = f32BitsReal x := by
    rw [f32OfReal, if_neg hx.ne', if_neg hx.not_gt, BitVec.toNat_ofNat]
    omega
  rw [Bool.eq_false_iff, ne_eq, sign_iff, lowBits, hw]
  omega

theorem f32OfReal_of_neg {x : ℝ} (hx : x < 0) :
    (f32OfReal x).getLsbD 31 = true ∧ lowBits (f32OfReal x) = f32BitsReal (-x) := by
  have hle := f32BitsReal_le (-x)
  have hw : (f32OfReal x).toNat = 2147483648 + f32BitsReal (-x) := by
    rw [f32OfReal, if_neg hx.ne, if_pos hx, BitVec.toNat_ofNat]
    omega
  rw [sign_iff, lowBits, hw]
  omega

theorem word_ext {v w : Word} (hs : v.getLsbD 31 = w.getLsbD 31) (hb : lowBits v = lowBits w) : v = w := by
  have hiff := (sign_iff v).symm.trans ((Bool.coe_iff_coe.mpr hs).trans (sign_iff w))
  have := v.isLt
  have := w.isLt
  unfold lowBits at hb
  exact BitVec.eq_of_toNat_eq (by omega)

theorem magReal_pos {b : Nat} (h : 0 < b) : 0 < magReal b := by
  obtain ⟨e, n, he, hn, h', rfl⟩ := exists_gridBits b
  rw [magReal_gridBits he hn.le h']
  exact mul_pos (by exact_mod_cast significand_pos h h') (unit_pos e)

/-- The value of a word leaves as that word, but for -0 (R148). -/
theorem f32OfReal_toReal {w : Word} (hf : f32Finite w = true) (hw : w ≠ 0x80000000#32) :
    f32OfReal (Machine.f32Real w).toReal = w := by
  rw [f32Finite_iff] at hf
  rw [toReal_f32Real]
  rcases Nat.eq_zero_or_pos (lowBits w) with h0 | hpos
  · have hzero : w = 0#32 := by
      cases hs : w.getLsbD 31 with
      | true => exact absurd (word_ext hs h0) hw
      | false => exact word_ext hs h0
    rw [hzero]
    simp [f32OfReal, magReal, lowBits]
  · have hm := magReal_pos hpos
    cases hs : w.getLsbD 31 with
    | true =>
      rw [if_pos rfl, neg_one_mul]
      obtain ⟨hs', hb⟩ := f32OfReal_of_neg (neg_lt_zero.mpr hm)
      rw [neg_neg, f32BitsReal_magReal hpos hf] at hb
      exact word_ext (hs'.trans hs.symm) hb
    | false =>
      rw [if_neg Bool.false_ne_true, one_mul]
      obtain ⟨hs', hb⟩ := f32OfReal_of_pos hm
      rw [f32BitsReal_magReal hpos hf] at hb
      exact word_ext (hs'.trans hs.symm) hb

/-- The value of any word is a magnitude or its negative, and so is its negative. -/
theorem toReal_f32Real_cases (w : Word) :
    (Machine.f32Real w).toReal = magReal (lowBits w) ∨ (Machine.f32Real w).toReal = -magReal (lowBits w) := by
  rw [toReal_f32Real]
  split
  · exact .inr (neg_one_mul _)
  · exact .inl (one_mul _)

/-- Below the overflow threshold a real leaves as a finite word to which none is nearer, the even one where two are as
near (R148). -/
theorem f32OfReal_nearest {x : ℝ} (hx : |x| < 2 ^ 128 - 2 ^ 103) :
    f32Finite (f32OfReal x) = true ∧ ∀ w : Word,
      |(Machine.f32Real (f32OfReal x)).toReal - x| ≤ |(Machine.f32Real w).toReal - x| ∧
      (|(Machine.f32Real (f32OfReal x)).toReal - x| = |(Machine.f32Real w).toReal - x| →
        (Machine.f32Real w).toReal ≠ (Machine.f32Real (f32OfReal x)).toReal →
        (f32OfReal x).getLsbD 0 = false) := by
  rcases lt_trichotomy x 0 with hneg | rfl | hpos
  · obtain ⟨hs, hb⟩ := f32OfReal_of_neg hneg
    have hm : 0 < -x := neg_pos.mpr hneg
    rw [abs_of_neg hneg] at hx
    rw [f32Finite_iff, even_iff, toReal_f32Real (f32OfReal x), hs, hb, if_pos rfl, neg_one_mul]
    refine ⟨by rw [f32BitsReal_rounded hm hx]; exact gridBits_rounded_lt hm hx, fun w => ?_⟩
    have hflip (a : ℝ) : |-a - x| = |a - -x| := by rw [← abs_neg]; congr 1; ring
    have hw : -(Machine.f32Real w).toReal = magReal (lowBits w) ∨ -(Machine.f32Real w).toReal = -magReal (lowBits w) :=
      (toReal_f32Real_cases w).elim (fun h => .inr (congrArg _ h)) fun h => .inl (by rw [h, neg_neg])
    obtain ⟨hle, heven⟩ := f32BitsReal_nearest hm hx hw
    rw [hflip, ← neg_neg (Machine.f32Real w).toReal, hflip]
    exact ⟨hle, fun heq hne => heven heq fun h => hne (by rw [h])⟩
  · have h0 : (Machine.f32Real (f32OfReal 0)).toReal = 0 := by
      simp [f32OfReal, toReal_f32Real, magReal, lowBits]
    rw [h0]
    refine ⟨by simp [f32OfReal, f32Finite_iff, lowBits], fun w => ⟨by simp, fun heq hne => ?_⟩⟩
    simp only [sub_zero, abs_zero] at heq
    exact absurd (abs_eq_zero.mp heq.symm) hne
  · obtain ⟨hs, hb⟩ := f32OfReal_of_pos hpos
    rw [abs_of_pos hpos] at hx
    rw [f32Finite_iff, even_iff, toReal_f32Real (f32OfReal x), hs, hb, if_neg Bool.false_ne_true, one_mul]
    exact ⟨by rw [f32BitsReal_rounded hpos hx]; exact gridBits_rounded_lt hpos hx,
      fun w => f32BitsReal_nearest hpos hx (toReal_f32Real_cases w)⟩

end Sys2Proof

namespace Sys2Proof.Machine

/-! ## The words of the outputs (R145, R147 to R149) -/

/-- Character `j` of a word of four (20_memory.md R88). -/
theorem extract_packed (a b c d : Byte) {j : Nat} (hj : j < 4) :
    [a, b, c, d][j]? = some ((a ++ b ++ c ++ d).extractLsb' (24 - 8 * j) 8) := by
  match j, hj with
  | 0, _ => simp (disch := omega) only [extract_upper, extract_whole, Nat.mul_zero, Nat.sub_zero, Nat.reduceSub]; rfl
  | 1, _ => simp (disch := omega) only [extract_upper, extract_lower, extract_whole, Nat.reduceMul, Nat.reduceSub]; rfl
  | 2, _ => simp (disch := omega) only [extract_upper, extract_lower, extract_whole, Nat.reduceMul, Nat.reduceSub]; rfl
  | 3, _ => simp (disch := omega) only [extract_lower, extract_whole, Nat.reduceMul, Nat.reduceSub]; rfl

/-- A text of whole words is packed four characters a word, in order (R145). -/
theorem packChars_spec : ∀ text : List Byte, text.length % 4 = 0 →
    4 * (packChars text).length = text.length ∧
    ∀ k j, (hk : k < (packChars text).length) → j < 4 →
      text[4 * k + j]? = some ((packChars text)[k].extractLsb' (24 - 8 * j) 8)
  | [], _ => ⟨rfl, fun _ _ hk => absurd hk (Nat.not_lt_zero _)⟩
  | [_], h => absurd h (by simp)
  | [_, _], h => absurd h (by simp)
  | [_, _, _], h => absurd h (by simp)
  | a :: b :: c :: d :: rest, h => by
    obtain ⟨hlen, hchar⟩ := packChars_spec rest (by simp only [List.length_cons] at h; omega)
    refine ⟨by simp only [packChars, List.length_cons]; omega, fun k j hk hj => ?_⟩
    cases k with
    | zero =>
      rw [Nat.mul_zero, Nat.zero_add]
      exact (List.getElem?_append_left (l₁ := [a, b, c, d]) (l₂ := rest) hj).trans (extract_packed a b c d hj)
    | succ k =>
      rw [show 4 * (k + 1) + j = 4 * k + j + 4 by ring]
      exact hchar k j (Nat.lt_of_succ_lt_succ hk) hj

/-- A response's samples leave as the words nearest to them (R147, R148). -/
theorem response_words (c : Config) (r : Response) :
    r.words c = r.status.word :: (r.counts ++ r.samples.map fun x => f32OfReal (c.round x).toReal) := by
  simp only [Response.words, f32Word_eq]

theorem rbRecord_words (c : Config) (m : RdsMode) (z : Cplx) :
    RbRecord.words c ⟨m, z⟩ =
      [header 0xA0#8 m.code, f32OfReal (c.round z.re).toReal, f32OfReal (c.round z.im).toReal] := by
  simp only [RbRecord.words, f32Word_eq]

/-- R123: exponent field 0xFF is no value, and what the other patterns stand for. -/
theorem f32_operand_value (w : Word) : (f32Finite w = false ↔ w.extractLsb' 23 8 = 0xFF#8) ∧
    (f32Real w).toReal = (if w.getLsbD 31 then -1 else 1) *
      (if w.extractLsb' 23 8 = 0#8 then ((w.extractLsb' 0 23).toNat : ℝ) * 2 ^ (-149 : Int)
       else (2 ^ 23 + ((w.extractLsb' 0 23).toNat : ℝ)) * 2 ^ (((w.extractLsb' 23 8).toNat : Int) - 150)) := by
  have hfield (n : BitVec 8) : w.extractLsb' 23 8 = n ↔ f32Exp w = n.toNat := BitVec.toNat_inj.symm
  constructor
  · rw [hfield, f32Finite, bne_eq_false_iff_eq]
    rfl
  · rw [toReal_f32Real, magReal, ← f32Exp_eq, ← f32Frac_eq]
    simp only [hfield]
    rfl

/-- Settles O4: the tables word by word, then the values of the operands and the words nearest to the outputs. -/
theorem writtenWordsDecode : Obligations.WrittenWordsDecode := by
  refine ⟨rfl, rfl, rfl, rfl, rfl, rfl, rfl, rfl, f32_operand_value, ?_, ?_, ?_, ⟨rfl, rfl, rfl, rfl⟩, response_words, ?_,
    ⟨rfl, rfl, fun _ => rfl⟩, fun _ => f32OfReal_toReal, ?_⟩
  · decide
  · exact ⟨rfl, rfl, fun _ _ => rfl, fun _ => rfl⟩
  · intro text h
    obtain ⟨hlen, hchar⟩ := packChars_spec text h
    exact ⟨packChars text, hlen, hchar, rfl, rfl, rfl, rfl⟩
  · intro c z m h hh
    rw [rbRecord_words, hh]
    cases m <;> rfl
  · rintro x v rfl hx
    obtain ⟨hfin, hnear⟩ := f32OfReal_nearest hx
    exact ⟨hfin, fun w _ => hnear w⟩

end Sys2Proof.Machine
end

section
/-! PROOFS. The formulas of the datapath's parts (41_demodulator.md R173 to R203), with `rnd` the identity (00_scope.md
R12): filters, peak and gain, discriminator, pilot tracker, noise meter, de-emphasis and the output pair. -/

namespace Sys2Proof

/-! ## A rounded operation denotes the operation where `rnd` is the identity (R12) -/

section
variable {c : Config} (h : c.rnd = .exact) (a b : RNum)
include h

@[simp] theorem Config.add_toReal : (c.add a b).toReal = a.toReal + b.toReal := by rw [Config.add_exact h, toReal_add]
@[simp] theorem Config.sub_toReal : (c.sub a b).toReal = a.toReal - b.toReal := by rw [Config.sub_exact h, toReal_sub]
@[simp] theorem Config.mul_toReal : (c.mul a b).toReal = a.toReal * b.toReal := by rw [Config.mul_exact h, toReal_mul]
@[simp] theorem Config.div_toReal : (c.div a b).toReal = a.toReal / b.toReal := by rw [Config.div_exact h, toReal_div]
@[simp] theorem Config.neg_toReal : (c.neg a).toReal = -a.toReal := by rw [Config.neg_exact h, toReal_neg]
@[simp] theorem Config.cos_toReal : (c.cos a).toReal = Real.cos a.toReal := by rw [Config.cos_exact h, toReal_cos]
@[simp] theorem Config.sin_toReal : (c.sin a).toReal = Real.sin a.toReal := by rw [Config.sin_exact h, toReal_sin]
@[simp] theorem Config.tenPow_toReal : (c.tenPow a).toReal = (10 : ℝ) ^ a.toReal := by
  rw [Config.tenPow_exact h, toReal_tenPow]
@[simp] theorem Config.modTurn_toReal : (c.modTurn a).toReal = turnReal a.toReal := by
  rw [Config.modTurn_exact h, toReal_modTurn]

end

/-- `mod 2π` (R14): the angle of `[0, 2π)` that differs by whole turns. -/
theorem turnReal_spec (x : ℝ) :
    0 ≤ turnReal x ∧ turnReal x < 2 * Real.pi ∧ ∃ k : Int, turnReal x = x - 2 * Real.pi * k :=
  ⟨turnReal_nonneg x, turnReal_lt x, _, rfl⟩

/-! ## Filters (R173, R188) -/

/-- The dot product of coefficients and delay line, over the pairs there are. -/
theorem toReal_firReal {c : Config} (h : c.rnd = .exact) (hs xs : List RNum) :
    (firReal c hs xs).toReal = ((hs.zip xs).map fun p => p.1.toReal * p.2.toReal).sum := by
  induction hs generalizing xs with
  | nil => simp [firReal]
  | cons k ks ih =>
    cases xs with
    | nil => simp [firReal]
    | cons x xs => simp [firReal, h, ih]

section
variable (c : Config) (hs : List RNum)

/-- A FIR over pairs filters each lane by itself (R13). -/
theorem firCplx_lanes (xs : List Cplx) :
    firCplx c hs xs = ⟨firReal c hs (xs.map Cplx.re), firReal c hs (xs.map Cplx.im)⟩ := by
  induction hs generalizing xs with
  | nil => rfl
  | cons k ks ih =>
    cases xs with
    | nil => rfl
    | cons x xs => rw [firCplx, ih]; rfl

/-- A FIR over frames filters each lane by itself (R13). -/
theorem firFrame_lanes (xs : List Frame) :
    firFrame c hs xs = ⟨firReal c hs (xs.map Frame.l), firReal c hs (xs.map Frame.r)⟩ := by
  induction hs generalizing xs with
  | nil => rfl
  | cons k ks ih =>
    cases xs with
    | nil => rfl
    | cons x xs => rw [firFrame, ih]; rfl

end

/-- The dot product with one lane of a delay line of pairs. -/
theorem toReal_firReal_map {α : Type} {c : Config} (h : c.rnd = .exact) (lane : α → RNum) (hs : List RNum)
    (xs : List α) :
    (firReal c hs (xs.map lane)).toReal = ((hs.zip xs).map fun p => p.1.toReal * (lane p.2).toReal).sum := by
  rw [toReal_firReal h, List.zip_map_right, List.map_map]
  rfl

namespace Machine

/-- Settles O51. -/
theorem firIsTheDotProduct : Obligations.FirIsTheDotProduct := by
  intro c h
  refine ⟨toReal_firReal h, fun hs xs => ?_, fun hs xs => ?_⟩
  · rw [firCplx_lanes]
    exact ⟨toReal_firReal_map h _ hs xs, toReal_firReal_map h _ hs xs⟩
  · rw [firFrame_lanes]
    exact ⟨toReal_firReal_map h _ hs xs, toReal_firReal_map h _ hs xs⟩

/-! ## Peak and gain (R176, R177) -/

/-- R177: the target gain from the peak, a peak of zero giving the floor. -/
theorem toReal_gainTarget {c : Config} (h : c.rnd = .exact) (peak : RNum) :
    (gainTarget c peak).toReal =
      max (if 0 < peak.toReal then c.maxDev.toReal / c.normDev.toReal / peak.toReal else c.gainFloor.toReal)
        c.gainFloor.toReal := by
  have hpos : (RNum.rat 0).lt peak = true ↔ 0 < peak.toReal := by rw [lt_iff, toReal_rat, Rat.cast_zero]
  simp only [gainTarget, hpos, toReal_max, apply_ite RNum.toReal, Config.div_toReal h]

/-- Settles O52. -/
theorem gainFollowsThePeak : Obligations.GainFollowsThePeak := by
  refine fun c => ⟨?_, fun u => ⟨rfl, fun h => ?_⟩⟩
  · rintro a u v rfl
    have hcases := peakTrack_cases c a u
    exact ⟨toReal_max _ _, fun hn => (hcases.resolve_right fun hend => hn hend.1).2,
      fun hn => (hcases.resolve_left fun hin => hin.1 hn).2⟩
  · rw [toReal_gainUpdate h, toReal_gainTarget h]

/-- Stage 4 keeps a gain at or above the floor there: R177's average is of two such values. -/
theorem gainFloor_le_peakTrack {c : Config} (hp : RealParams c) (h : c.rnd = .exact) {u : Demod}
    (hg : c.gainFloor.toReal ≤ u.gainAvg.toReal) (a : RNum) :
    c.gainFloor.toReal ≤ (peakTrack c a u).gainAvg.toReal := by
  rcases peakTrack_cases c a u with ⟨-, he⟩ | ⟨-, he⟩ <;> rw [he]
  · exact hg
  · rw [toReal_gainUpdate h]
    have hold := mul_le_mul_of_nonneg_left hg hp.emaOld
    have hnew := mul_le_mul_of_nonneg_left (gainTarget_ge c (RNum.max u.peak a)) hp.emaNew
    calc c.gainFloor.toReal
        = c.emaOld.toReal * c.gainFloor.toReal + c.emaNew.toReal * c.gainFloor.toReal := by
          rw [← add_mul, hp.emaSum, one_mul]
      _ ≤ _ := add_le_add hold hnew

/-! ## Discriminator (R178, R179, R200) -/

/-- Settles O55: the reference answers 0 exactly where the power `|z|²` is 0. -/
theorem discriminatorFormula : Obligations.DiscriminatorFormula := by
  intro c h
  refine ⟨by simp [scaleK, h], fun z zp hr => by rw [fmDemod, hr], fun k z zp => ?_⟩
  have hzero : (z.normSq c).eqv (.rat 0) = true ↔ z.re.toReal ^ 2 + z.im.toReal ^ 2 = 0 := by
    rw [eqv_iff, toReal_normSq h, toReal_rat, Rat.cast_zero]
  simp only [refFmDemod, hzero, apply_ite RNum.toReal, Config.div_toReal h, Config.sub_toReal h, Config.mul_toReal h,
    toReal_normSq h, toReal_rat, Rat.cast_zero]

/-! ## Pilot tracker (R180, R181, R201) -/

theorem toReal_pilotMargin {c : Config} (h : c.rnd = .exact) :
    (pilotMargin c).toReal = (10 : ℝ) ^ (c.pilotMarginDb.toReal / 20) := by
  simp [pilotMargin, h]

/-- R181's strict comparison is that of the real numbers. -/
theorem pilotFound_iff {c : Config} (h : c.rnd = .exact) (pt : PilotState) :
    pilotFound c (pilotLevel c pt) (noiseFloor c pt) = true ↔ pilotAbove c pt := by
  rw [pilotFound, lt_iff, Config.mul_toReal h, toReal_pilotMargin h, pilotAbove]

theorem stereoSelected_iff (mode : Mode) (found : Bool) :
    stereoSelected mode found = true ↔ mode = .stereo ∧ found = true := by
  rw [stereoSelected, Bool.and_eq_true, decide_eq_true_eq]

/-- Settles O54: R181's test, then R201's step field by field. -/
theorem stereoNeedsThePilot : Obligations.StereoNeedsThePilot := by
  refine ⟨fun c cr v u h => ?_, fun c h hr => ⟨?_, ?_, by simp [omega0, h]⟩⟩
  · exact (stereoSelected_iff _ _).trans (and_congr_right fun _ => pilotFound_iff h _)
  · rintro pt t d dl p q e ht rfl rfl rfl rfl
    have href : t = refPilotStep c pt d := by rw [ht, pilotStep, hr]
    subst href
    refine ⟨rfl, ?_, ?_, ?_, ?_, ?_, ?_, ?_⟩
    · simp [refPilotStep, shiftIn, h]
    · simp [refPilotStep, shiftIn, h]
    · simp [refPilotStep, shiftIn, h]
    · have hphi : (refPilotStep c pt d).phi.toReal = turnReal (pt.phi.toReal + (refPilotStep c pt d).omega.toReal +
          c.pllAlpha.toReal * (-(firReal c c.hPilot ((d :: pt.dl).take c.hPilot.length)).toReal *
            Real.sin pt.phi.toReal)) := by
        simp [refPilotStep, shiftIn, h]
      rw [hphi]
      exact turnReal_spec _
    · rw [pilotLevel, hr]
    · rw [noiseFloor, hr]
    · rw [pilotPhase, hr]
  · rw [pilotInit, hr]

/-! ## De-emphasis (R185) -/

/-- With `FM_RATE · tau + 1` not 0 the coefficient is R185's quotient. -/
theorem toReal_deemphAlpha {c : Config} (h : c.rnd = .exact) {d : Deemph}
    (hm : c.fmRate * (deemphTau c d).toReal + 1 ≠ 0) :
    (deemphAlpha c d).toReal = 1 / (c.fmRate * (deemphTau c d).toReal + 1) := by
  have hdiv : (c.add (c.mul (RNum.ofNat c.fmRate) (deemphTau c d)) (.rat 1)).toReal =
      c.fmRate * (deemphTau c d).toReal + 1 := by simp [h]
  have hne : ¬ (c.add (c.mul (RNum.ofNat c.fmRate) (deemphTau c d)) (.rat 1)).eqv (.rat 0) = true := by
    rw [eqv_iff, hdiv, toReal_rat, Rat.cast_zero]
    exact hm
  rw [deemphAlpha, if_neg hne, Config.div_toReal h, hdiv, toReal_rat, Rat.cast_one]

theorem toReal_deemphStep {c : Config} (h : c.rnd = .exact) (alpha y x : RNum) :
    (deemphStep c alpha y x).toReal = y.toReal + alpha.toReal * (x.toReal - y.toReal) := by
  simp [deemphStep, h]

/-- From 0 the distance to a constant input shrinks by `1 - alpha` a step. -/
theorem toReal_deemphStep_iterate {c : Config} (h : c.rnd = .exact) (alpha x : RNum) (n : Nat) :
    ((deemphStep c alpha · x)^[n] (.rat 0)).toReal = x.toReal * (1 - (1 - alpha.toReal) ^ n) := by
  induction n with
  | zero => simp
  | succ n ih =>
    rw [Function.iterate_succ_apply', toReal_deemphStep h, ih]
    ring

/-- Settles O56: the divisor `FM_RATE · tau + 1` is above 1. -/
theorem deemphasisApproachesItsInput : Obligations.DeemphasisApproachesItsInput := by
  refine ⟨fun c => ⟨rfl, rfl, rfl⟩, ?_, fun c d h hrate htau => ?_, fun c alpha x n h =>
    toReal_deemphStep_iterate h alpha x n⟩
  · norm_num [deemphTau]
  · have hrate' : (0 : ℝ) < c.fmRate := Nat.cast_pos.mpr hrate
    have hone : 1 < c.fmRate * (deemphTau c d).toReal + 1 := lt_add_of_pos_left 1 (mul_pos hrate' htau)
    have hpos := zero_lt_one.trans hone
    have halpha := toReal_deemphAlpha h hpos.ne'
    exact ⟨halpha ▸ one_div_pos.mpr hpos, halpha ▸ (div_lt_one hpos).mpr hone, halpha⟩

/-! ## The output pair (R182 to R186) -/

theorem toReal_diffRaw {c : Config} (h : c.rnd = .exact) (pt : PilotState) (d : RNum) :
    (diffRaw c pt d).toReal =
      c.gDiff.toReal * Real.cos (2 * ((pilotPhase c pt).toReal + c.pilotDelay.toReal)) * d.toReal := by
  simp [diffRaw, mixPhase, h]

/-- Settles O57: the matrix row by row, and the two branches of stages 6 and 7. -/
theorem matrixPairs : Obligations.MatrixPairs := by
  refine ⟨fun c s d h => ?_, fun c pt d h => toReal_diffRaw h pt d, ?_, ?_⟩
  · simp [matrix, h]
  · rintro c cr d deS deD u hs rfl rfl
    rcases decodePair_cases c cr d u with ⟨-, he⟩ | ⟨hm, -⟩
    · exact he
    · exact nomatch hs.symm.trans hm
  · rintro c cr d deS u hm rfl
    rcases decodePair_cases c cr d u with ⟨hs, -⟩ | ⟨-, he⟩
    · exact nomatch hs.symm.trans hm
    · exact he

/-! ## Squelch (R189, R202) -/

theorem squelched_iff (en : Bool) (noise level : RNum) :
    squelched en noise level = true ↔ en = true ∧ level.toReal < noise.toReal := by
  rw [squelched, Bool.and_eq_true, lt_iff]

/-- Settles O58: R189's test, then R202's step and initial state. -/
theorem squelchMutesStrictlyAbove : Obligations.SquelchMutesStrictlyAbove := by
  refine ⟨fun c cr u f => ?_, fun c h hr => ⟨fun nm t d ht => ?_, by rw [noiseInit, hr]⟩⟩
  · simp only [squelch, squelched_iff]
  · have href : t = refNoiseStep c nm d := by rw [ht, noiseStep, hr]
    subst href
    exact ⟨rfl, by simp [refNoiseStep, h], by rw [noiseLevel, hr]⟩

end Machine

end Sys2Proof
end

section
/-! PROOFS. `SAMPLE` (41_demodulator.md R170 to R193): when it runs, what it does to each unit, and the registers an
FM-rate sample leaves, stage by stage. -/

namespace Sys2Proof.Machine

/-! ## When a sample runs (R170, R373) -/

theorem cplxOperand_of_finite {i q : Word} (hi : f32Finite i = true) (hq : f32Finite q = true) :
    cplxOperand i q = some (f32Sample i q) := by
  simp only [cplxOperand, f32Operand, hi, hq, if_true, f32Sample, f32Real]

theorem cplxOperand_of_nonFinite {i q : Word} (h : f32Finite i = false ∨ f32Finite q = false) :
    cplxOperand i q = none := by
  rcases h with hi | hq
  · simp [cplxOperand, f32Operand, hi]
  · simp [cplxOperand, f32Operand, hq]

section
variable {s : State} {i q : Word}

/-- While RUNNING a sample of two values is processed. -/
theorem exec_sample (hi : f32Finite i = true) (hq : f32Finite q = true) (hr : s.eng.run = .running) :
    exec (.sample i q) s = .next (sampleStep (f32Sample i q) s) := by
  simp only [exec, execSample, cplxOperand_of_finite hi hq, hr, if_true]

/-- Any other is dropped. -/
theorem exec_sample_dropped (h : s.eng.run ≠ .running ∨ f32Finite i = false ∨ f32Finite q = false) :
    exec (.sample i q) s = .next s := by
  rcases h with hr | hf
  · simp only [exec, execSample, hr, if_false]
    split <;> rfl
  · simp only [exec, execSample, cplxOperand_of_nonFinite hf]

theorem exec_sample_cases (i q : Word) (s : State) :
    exec (.sample i q) s = .next s ∨ exec (.sample i q) s = .next (sampleStep (f32Sample i q) s) := by
  by_cases h : f32Finite i = true ∧ f32Finite q = true ∧ s.eng.run = .running
  · obtain ⟨hi, hq, hr⟩ := h
    exact .inr (exec_sample hi hq hr)
  · simp only [not_and_or, Bool.not_eq_true] at h
    exact .inl (exec_sample_dropped (by tauto))

theorem exec_scanfeed (hi : f32Finite i = true) (hq : f32Finite q = true) :
    exec (.scanfeed i q) s = .next (scanFeed (f32Sample i q) s) := by
  simp only [exec, execScanfeed, cplxOperand_of_finite hi hq]

/-- Settles O48. -/
theorem sampleWithinTheDecimation : Obligations.SampleWithinTheDecimation := by
  refine ⟨fun s i q h => exec_sample_dropped h, fun s i q hi hq hr hp => ?_⟩
  rw [exec_sample hi hq hr]
  rcases sampleStep_cases (f32Sample i q) s with ⟨-, he⟩ | ⟨hdue, -⟩
  · rw [he]; rfl
  · exact absurd hdue hp

/-! ## The scanner, the engine and the events (R175, R263) -/

theorem scanFeed_idle (h : s.scan.scanning = false) (z : Cplx) : scanFeed z s = s := if_pos h

/-- The diversion feeds the scanner, which takes no notice outside a scan. -/
theorem scanDivert_fst (v : Cplx) (s : State) : (scanDivert v s).1 = scanFeed v s := by
  rcases scanDivert_cases v s with ⟨h, he⟩ | ⟨-, he⟩ <;> rw [he]
  rw [scanFeed_idle h]

/-- What a sample can do to the scanner, the engine and the events: store one element of the block, and end the scan and
its seek with one event. -/
structure ScanStep (s t : State) : Prop where
  eng : t.eng = { s.eng with timerArmed := t.eng.timerArmed, seekActive := t.eng.seekActive }
  threshold : t.scan.threshold = s.scan.threshold
  token : t.scan.token = s.scan.token
  blk : Memory.wf Cplx.zero s.scan.blk = true →
    ∀ a, a ≠ s.scan.blkIdx → blockAt t.scan.blk a = blockAt s.scan.blk a
  evq : ∃ es, t.out.evq = s.out.evq ++ es ∧ es.length ≤ 1
  idle : s.scan.scanning = false → t.scan = s.scan ∧ t.eng = s.eng ∧ t.out.evq = s.out.evq

/-- Only these three parts of the state matter. -/
theorem ScanStep.congr {t u : State} (h : ScanStep s t) (hs : u.scan = t.scan) (he : u.eng = t.eng)
    (hv : u.out.evq = t.out.evq) : ScanStep s u := by
  obtain ⟨heng, hthr, htok, hblk, hevq, hidle⟩ := h
  rw [← hs] at hthr htok hblk
  rw [← he] at heng
  rw [← hv] at hevq
  rw [← hs, ← he, ← hv] at hidle
  exact ⟨heng, hthr, htok, hblk, hevq, hidle⟩

theorem scanStep_refl (s : State) : ScanStep s s :=
  ⟨rfl, rfl, rfl, fun _ _ _ => rfl, ⟨[], (List.append_nil _).symm, Nat.zero_le _⟩, fun _ => ⟨rfl, rfl, rfl⟩⟩

/-- During a scan: the block takes the sample, and what follows keeps it and adds at most one event. -/
theorem scanStep_of_stored {c : Config} {z : Cplx} {t : State} {es : List Event} (hsc : s.scan.scanning = true)
    (heng : t.eng = { s.eng with timerArmed := t.eng.timerArmed, seekActive := t.eng.seekActive })
    (hscan : t.scan = { blockStored c z s.scan with scanning := t.scan.scanning, cand := t.scan.cand })
    (hevq : t.out.evq = s.out.evq ++ es) (hes : es.length ≤ 1) : ScanStep s t := by
  refine ⟨heng, by rw [hscan]; rfl, by rw [hscan]; rfl, fun hwf a ha => ?_, ⟨es, hevq, hes⟩,
    fun hidle => nomatch hidle.symm.trans hsc⟩
  rw [hscan]
  exact read_write_other hwf ha z

theorem scanStep_scanFeed (z : Cplx) (s : State) : ScanStep s (scanFeed z s) := by
  rcases scanFeed_cases z s with ⟨-, h⟩ | ⟨hsc, -, h⟩ | ⟨hsc, -, h⟩ <;> rw [h]
  · exact scanStep_refl s
  · exact scanStep_of_stored (es := []) hsc rfl rfl (List.append_nil _).symm (Nat.zero_le _)
  · rcases evaluate_cases (s.withScan (blockStored s.params z s.scan)) with ⟨-, e⟩ | ⟨-, -, e⟩ | ⟨-, -, e⟩ <;> rw [e]
    · exact scanStep_of_stored (es := []) hsc rfl rfl (List.append_nil _).symm (Nat.zero_le _)
    · exact scanStep_of_stored hsc rfl rfl rfl le_rfl
    · exact scanStep_of_stored (es := []) hsc rfl rfl (List.append_nil _).symm (Nat.zero_le _)

/-! ## The ring buffer and the RB records (R190, R191) -/

theorem emitFrame_arb (f : Option Frame) (s : State) :
    (emitFrame f s).arb = f.elim s.arb fun x => arbWrite s.params [x.l, x.r] s.arb := by
  cases f <;> rfl

theorem emitRecord_rbq (b : Option RbRecord) (s : State) : (emitRecord b s).out.rbq = s.out.rbq ++ b.toList := by
  cases b with
  | none => exact (List.append_nil _).symm
  | some x => rfl

/-- A write leaves every address of STORE as it was but the `writeCount` ones from `WR` on (R290). -/
theorem sampleAt_arbWrite_other {c : Config} {b : Arb} (hwf : Memory.wf (.rat 0) b.store = true) (vs : List RNum)
    {a : Nat} (ha : ∀ k, k < writeCount c b vs.length → a ≠ (b.wr + k) % c.arbCap) :
    sampleAt (arbWrite c vs b).store a = sampleAt b.store a :=
  read_writeWrap_other hwf _ fun k hk => ha k (hk.trans_le (List.length_take_le _ _))

/-! ## An FM-rate sample (R172) -/

/-- What stages 4 to 9 answer for the FM-rate sample that `SAMPLE i q` completes. -/
def sampleOut (s : State) (i q : Word) : DemodOut :=
  demodStages s.params s.cr (demodSample s i q) (inputDecimate s.params (f32Sample i q) s.dem).1

/-- What an FM-rate sample does to each unit: the datapath's registers are those of stages 4 to 9, the scanner is fed, the
frame is written and the record appended where one is due. -/
theorem sampleStep_due_units (hp : (s.dem.inPh + 1) % s.params.rIn = 0) :
    (sampleStep (f32Sample i q) s).dem = (sampleOut s i q).dem ∧
    (sampleStep (f32Sample i q) s).scan = (scanFeed (scaledSample s i q) s).scan ∧
    (sampleStep (f32Sample i q) s).eng = (scanFeed (scaledSample s i q) s).eng ∧
    (sampleStep (f32Sample i q) s).out.evq = (scanFeed (scaledSample s i q) s).out.evq ∧
    (sampleStep (f32Sample i q) s).arb =
      (sampleOut s i q).frame.elim s.arb (fun x => arbWrite s.params [x.l, x.r] s.arb) ∧
    (sampleStep (f32Sample i q) s).out.rbq = s.out.rbq ++ (sampleOut s i q).rb.toList := by
  obtain ⟨hpar, -, -, -, harb, -, -, hrbq, -⟩ := scanFeed_frame (scaledSample s i q) s
  rw [sampleStep_due hp, scanDivert_fst]
  simp [emitFrame_arb, emitRecord_rbq, hpar, harb, hrbq, sampleOut]

/-- What any sample does to the other units: nothing before the decimation stage completes. -/
theorem sampleStep_units (i q : Word) (s : State) : ScanStep s (sampleStep (f32Sample i q) s) ∧
    (∃ f : Option Frame, (sampleStep (f32Sample i q) s).arb =
      f.elim s.arb fun x => arbWrite s.params [x.l, x.r] s.arb) ∧
    ∃ b : Option RbRecord, (sampleStep (f32Sample i q) s).out.rbq = s.out.rbq ++ b.toList := by
  rcases sampleStep_cases (f32Sample i q) s with ⟨-, he⟩ | ⟨hp, -⟩
  · rw [he]
    exact ⟨(scanStep_refl s).congr rfl rfl rfl, ⟨none, rfl⟩, ⟨none, (List.append_nil _).symm⟩⟩
  · obtain ⟨-, hscan, heng, hevq, harb, hrbq⟩ := sampleStep_due_units (i := i) (q := q) hp
    exact ⟨(scanStep_scanFeed _ s).congr hscan heng hevq, ⟨_, harb⟩, ⟨_, hrbq⟩⟩

/-- Settles O49. -/
theorem sampleCompletesAndItsFrame : Obligations.SampleCompletesAndItsFrame := by
  intro s i q hi hq hr
  obtain ⟨hpar, hcr, hrds, hinq, hport, hfpq, hrsq⟩ := sampleStep_frame (f32Sample i q) s
  obtain ⟨hscan, ⟨f, harb⟩, b, hrbq⟩ := sampleStep_units i q s
  refine ⟨_, exec_sample hi hq hr, hpar, hcr, hrds, hscan.eng, ?_, hscan.threshold, hscan.token, hfpq, hrsq, hinq, hport,
    fun hwf a ha => ?_, hscan.blk, hscan.idle, hscan.evq, ⟨_, hrbq, Option.length_toList_le⟩⟩
  · rw [harb]
    cases f <;> rfl
  · rw [harb]
    cases f with
    | none => rfl
    | some x => exact sampleAt_arbWrite_other hwf [x.l, x.r] ha

/-! ## Stages 1 to 4 (R172 to R177) -/

/-- Stage 4 reads none of the registers of stage 1. -/
theorem peakTrack_inputDecimate (c : Config) (a : RNum) (x : Cplx) (u : Demod) :
    (peakTrack c a (inputDecimate c x u).1).peak = (peakTrack c a u).peak ∧
    (peakTrack c a (inputDecimate c x u).1).peakCnt = (peakTrack c a u).peakCnt ∧
    (peakTrack c a (inputDecimate c x u).1).gainAvg = (peakTrack c a u).gainAvg := by
  by_cases h : u.peakCnt + 1 = (c.peakWindow : Nat)
  · simp [peakTrack, inputDecimate, h, gainUpdate]
  · simp [peakTrack, inputDecimate, h]

/-- A silent sample does not raise a peak that is not negative. -/
theorem peakTrack_zero_le {c : Config} (h : c.rnd = .exact) {u : Demod} (hu : 0 ≤ u.peak.toReal) :
    (peakTrack c (Cplx.zero.abs c) u).peak.toReal ≤ u.peak.toReal := by
  have hzero : (Cplx.zero.abs c).toReal = 0 := by simp [toReal_abs_cplx h]
  rcases peakTrack_cases c (Cplx.zero.abs c) u with ⟨-, he⟩ | ⟨-, he⟩ <;> rw [he]
  · simp [hzero, hu]
  · simpa [gainUpdate] using hu

theorem demodSample_scanning (h : s.scan.scanning = true) : demodSample s i q = Cplx.zero := if_pos h

theorem demodSample_idle (h : s.scan.scanning = false) : demodSample s i q = scaledSample s i q :=
  if_neg (by simp [h])

/-- R174: the filtered sample times `ATT`. -/
theorem toReal_scaledSample (h : s.params.rnd = .exact) :
    (scaledSample s i q).re.toReal = s.cr.att.toNat *
      (firCplx s.params s.params.hIn ((f32Sample i q :: s.dem.inDl).take s.params.hIn.length)).re.toReal ∧
    (scaledSample s i q).im.toReal = s.cr.att.toNat *
      (firCplx s.params s.params.hIn ((f32Sample i q :: s.dem.inDl).take s.params.hIn.length)).im.toReal := by
  simp [scaledSample, u32Real, h]

/-- The registers stages 1 to 5 leave: the input line, the memory, and stage 4's peak, count and gain. -/
theorem sampleOut_front (hp : (s.dem.inPh + 1) % s.params.rIn = 0) :
    (sampleOut s i q).dem.inDl = (f32Sample i q :: s.dem.inDl).take s.params.hIn.length ∧
    (sampleOut s i q).dem.inPh = 0 ∧ (sampleOut s i q).dem.zPrev = demodSample s i q ∧
    (sampleOut s i q).dem.peak = (peakTrack s.params ((demodSample s i q).abs s.params) s.dem).peak ∧
    (sampleOut s i q).dem.peakCnt = (peakTrack s.params ((demodSample s i q).abs s.params) s.dem).peakCnt ∧
    (sampleOut s i q).dem.gainAvg = (peakTrack s.params ((demodSample s i q).abs s.params) s.dem).gainAvg := by
  obtain ⟨hdl, hph, hpeak, hcnt, hgain, hz, -⟩ :=
    demodStages_regs (c := s.params) (cr := s.cr) (v := demodSample s i q)
      (u := (inputDecimate s.params (f32Sample i q) s.dem).1) rfl rfl rfl
  obtain ⟨epeak, ecnt, egain⟩ :=
    peakTrack_inputDecimate s.params ((demodSample s i q).abs s.params) (f32Sample i q) s.dem
  exact ⟨hdl, hph.trans hp, hz, hpeak.trans epeak, hcnt.trans ecnt, hgain.trans egain⟩

end

/-- The state after an FM-rate sample is `sampleStep`'s. -/
theorem eq_sampleStep {s t : State} {i q : Word} (hi : f32Finite i = true) (hq : f32Finite q = true)
    (hr : s.eng.run = .running) (ht : exec (.sample i q) s = .next t) : t = sampleStep (f32Sample i q) s := by
  rw [exec_sample hi hq hr] at ht
  exact (Host.Outcome.next.inj ht).symm

/-- Settles O50. -/
theorem scanningSilencesTheDemodulator : Obligations.ScanningSilencesTheDemodulator := by
  intro s t i q hi hq hr hp ht
  obtain rfl := eq_sampleStep hi hq hr ht
  obtain ⟨hdem, hscan, heng, hevq, -⟩ := sampleStep_due_units (i := i) (q := q) hp
  obtain ⟨hdl, hph, hz, hpeak, hcnt, hgain⟩ := sampleOut_front (i := i) (q := q) hp
  rw [hdem, hscan, heng, hevq]
  refine ⟨fun hsc => ⟨?_, fun h hpos => ?_, rfl, rfl, rfl⟩, fun hsc => ?_, ⟨hdl, hph⟩, ?_, fun x y hx hy =>
    exec_scanfeed hx hy⟩
  · rw [hz, demodSample_scanning hsc]
  · rw [hpeak, demodSample_scanning hsc]
    exact peakTrack_zero_le h hpos
  · rw [hz, demodSample_idle hsc, scanFeed_idle hsc]
    exact ⟨rfl, rfl, rfl, rfl, toReal_scaledSample⟩
  · rintro u rfl
    exact ⟨hpeak, hcnt, hgain⟩

/-- Settles O53: only stage 4 of an FM-rate sample touches the gain. -/
theorem gainNeverFallsBelowTheFloor : Obligations.GainNeverFallsBelowTheFloor := by
  intro s t i q hparams h hg ht
  rcases exec_sample_cases i q s with he | he
  · rw [he] at ht
    cases ht
    exact hg
  · rw [he] at ht
    cases ht
    rcases sampleStep_cases (f32Sample i q) s with ⟨-, e⟩ | ⟨hp, -⟩
    · rw [e]
      exact hg
    · obtain ⟨hdem, -⟩ := sampleStep_due_units (i := i) (q := q) hp
      obtain ⟨-, -, -, -, -, hgain⟩ := sampleOut_front (i := i) (q := q) hp
      rw [hdem, hgain]
      exact gainFloor_le_peakTrack hparams h hg _

/-! ## Stages 5 to 8 (R179 to R190) -/

/-- Settles O59. -/
theorem frameOnEveryAudioPeriod : Obligations.FrameOnEveryAudioPeriod := by
  intro s t i q hi hq hr hp ht
  obtain rfl := eq_sampleStep hi hq hr ht
  obtain ⟨hdem, -, -, -, harb, -⟩ := sampleStep_due_units (i := i) (q := q) hp
  obtain ⟨-, -, -, -, -, -, hnm, hpt, hst, hdeS, hdeD, hdl, hph, hframe, -⟩ :=
    demodStages_regs (c := s.params) (cr := s.cr) (v := demodSample s i q)
      (u := (inputDecimate s.params (f32Sample i q) s.dem).1) rfl rfl rfl
  rw [hdem, harb]
  refine ⟨?_, hph, fun hn => ?_, ?_⟩
  · rintro d alpha pair rfl rfl rfl
    exact ⟨hnm, hpt, hst, hdeS, hdeD, hdl⟩
  · have hnone : (sampleOut s i q).frame = none := hframe.trans (if_neg hn)
    rw [hnone]
    rfl
  · rintro hdue f rfl
    have hsome := hframe.trans (if_pos hdue)
    rw [sampleOut, hsome]
    rfl

/-! ## Stage 9 (R191, R192, R203) -/

/-- R191: the record is due on exactly every `R_RDS`-th call. -/
theorem frontStep_value (c : Config) (rf : FrontState) (stereo : Bool) (d psi3 : RNum) :
    ((rf.rdsPh + 1) % (c.rRds : Nat) ≠ 0 → (frontStep c rf stereo d psi3).2 = none) ∧
    ((rf.rdsPh + 1) % (c.rRds : Nat) = 0 → ∃ b, (frontStep c rf stereo d psi3).2 = some b) := by
  have hsome := frontStep_isSome c rf stereo d psi3
  refine ⟨fun hn => ?_, fun hdue => ?_⟩
  · rwa [decide_eq_false hn, Option.isSome_eq_false_iff, Option.isNone_iff_eq_none] at hsome
  · rwa [decide_eq_true hdue, Option.isSome_iff_exists] at hsome

theorem toReal_omegaRds {c : Config} (h : c.rnd = .exact) :
    (omegaRds c).toReal = 2 * Real.pi * 3 * c.pilotFreq.toReal / c.fmRate := by
  simp [omegaRds, h]

/-- The value R203 filters: the signal mixed down, or its analytic signal turned back by the oscillator. -/
def frontMixed (c : Config) (dlh : List RNum) (nco : RNum) (stereo : Bool) (d psi3 : RNum) : Cplx :=
  if stereo then ⟨c.mul d (c.cos psi3), c.mul (c.neg d) (c.sin psi3)⟩
  else Cplx.mul c ⟨dlh.getD ((c.hHilb.length - 1) / 2) (.rat 0), firReal c c.hHilb dlh⟩ ⟨c.cos nco, c.neg (c.sin nco)⟩

/-- The reference front end's step (R203), field by field. -/
theorem frontStep_reference {c : Config} (hr : c.front = .reference) {rf t : FrontState} {stereo : Bool} {d psi3 : RNum}
    {y : Option Cplx} (ht : frontStep c rf stereo d psi3 = (t, y)) :
    t.dlh = (d :: rf.dlh).take c.hHilb.length ∧ t.nco = c.modTurn (c.add rf.nco (omegaRds c)) ∧
    t.dlr = (frontMixed c t.dlh t.nco stereo d psi3 :: rf.dlr).take c.hRds.length ∧
    y = if t.rdsPh = 0 then some (firCplx c c.hRds t.dlr) else none := by
  rw [frontStep, hr] at ht
  cases ht
  exact ⟨rfl, rfl, rfl, rfl⟩

section
variable {c : Config} (h : c.rnd = .exact) (dlh : List RNum) (nco d psi3 : RNum)
include h

/-- Stereo decode mixes with the third harmonic of the pilot (R192, R203). -/
theorem frontMixed_stereo :
    (frontMixed c dlh nco true d psi3).re.toReal = d.toReal * Real.cos psi3.toReal ∧
    (frontMixed c dlh nco true d psi3).im.toReal = -d.toReal * Real.sin psi3.toReal := by
  simp [frontMixed, h]

/-- Mono decode turns the analytic signal back by the oscillator's angle (R203). -/
theorem frontMixed_mono {a : Cplx}
    (ha : a = ⟨dlh.getD ((c.hHilb.length - 1) / 2) (.rat 0), firReal c c.hHilb dlh⟩) :
    (frontMixed c dlh nco false d psi3).re.toReal =
      a.re.toReal * Real.cos nco.toReal + a.im.toReal * Real.sin nco.toReal ∧
    (frontMixed c dlh nco false d psi3).im.toReal =
      a.im.toReal * Real.cos nco.toReal - a.re.toReal * Real.sin nco.toReal := by
  have hmix : frontMixed c dlh nco false d psi3 = Cplx.mul c a ⟨c.cos nco, c.neg (c.sin nco)⟩ := by
    rw [ha]
    rfl
  rw [hmix, toReal_mul_re h, toReal_mul_im h, Config.neg_toReal h, Config.cos_toReal h, Config.sin_toReal h]
  constructor <;> ring

end

/-- What the front end answers for the FM-rate sample that `SAMPLE i q` completes, if it is called (R191, R192). -/
def frontAnswer (s : State) (i q : Word) : FrontState × Option Cplx :=
  frontStep s.params s.dem.rf (sampleOut s i q).dem.stereoActive (fmDemod s.params (demodSample s i q) s.dem.zPrev)
    (s.params.mul (.rat 3) (mixPhase s.params (sampleOut s i q).dem.pt))

/-- What stage 9 leaves of an FM-rate sample: its state and the record, none where the RDS mode is OFF (R191). -/
theorem sampleOut_record (s : State) (i q : Word) :
    (s.cr.rdsMode = .off → (sampleOut s i q).dem.rf = s.dem.rf ∧ (sampleOut s i q).rb = none) ∧
    (s.cr.rdsMode ≠ .off → (sampleOut s i q).dem.rf = (frontAnswer s i q).1 ∧
      (sampleOut s i q).rb = (frontAnswer s i q).2.map fun b => ⟨s.cr.rdsMode, b⟩) := by
  obtain ⟨-, -, -, -, -, -, -, -, -, -, -, -, -, -, hoff, hon⟩ :=
    demodStages_regs (c := s.params) (cr := s.cr) (v := demodSample s i q)
      (u := (inputDecimate s.params (f32Sample i q) s.dem).1) rfl rfl rfl
  exact ⟨hoff, fun hm => hon hm _ rfl⟩

/-- The front end's count goes on, and its value is due on exactly every `R_RDS`-th call (R191). -/
theorem frontAnswer_spec (s : State) (i q : Word) :
    (frontAnswer s i q).1.rdsPh = (s.dem.rf.rdsPh + 1) % s.params.rRds ∧
    ((s.dem.rf.rdsPh + 1) % (s.params.rRds : Nat) ≠ 0 → (frontAnswer s i q).2 = none) ∧
    ((s.dem.rf.rdsPh + 1) % (s.params.rRds : Nat) = 0 → ∃ b, (frontAnswer s i q).2 = some b) :=
  ⟨frontStep_rdsPh .., frontStep_value ..⟩

/-- The head of a delay line of some length is the value that just entered. -/
theorem headD_take_cons {α : Type} {n : Nat} (hn : 1 ≤ n) (x y : α) (l : List α) : ((x :: l).take n).headD y = x := by
  obtain ⟨m, rfl⟩ := Nat.exists_eq_add_of_le' hn
  rfl

/-- Settles O60: stage 9 within the step, then R203's step and initial state. -/
theorem recordOnEveryEighthCall : Obligations.RecordOnEveryEighthCall := by
  refine ⟨fun s t i q hi hq hr hp ht => ?_, fun c h hr => ⟨?_, by rw [frontInit, hr]⟩⟩
  · obtain rfl := eq_sampleStep hi hq hr ht
    obtain ⟨hdem, -, -, -, -, hrbq⟩ := sampleStep_due_units (i := i) (q := q) hp
    obtain ⟨hoff, hon⟩ := sampleOut_record s i q
    rw [hdem, hrbq]
    refine ⟨rfl, fun hm => ?_, ?_⟩
    · obtain ⟨hrf, hrb⟩ := hoff hm
      rw [hrb]
      exact ⟨List.append_nil _, hrf⟩
    · rintro hm d x rfl rfl
      obtain ⟨hrf, hrb⟩ := hon hm
      obtain ⟨hph, hnone, hsome⟩ := frontAnswer_spec s i q
      rw [hrf, hrb]
      refine ⟨rfl, hph, fun hn => ?_, fun hdue => ?_⟩
      · rw [hnone hn]
        exact List.append_nil _
      · obtain ⟨b, hb⟩ := hsome hdue
        exact ⟨b, hb, by rw [hb]; rfl⟩
  · intro rf t stereo d psi y b a ht hb hlen ha
    obtain ⟨hdlh, hnco, hdlr, hy⟩ := frontStep_reference hr ht
    rw [hdlr, headD_take_cons hlen] at hb
    subst hb
    refine ⟨hdlh, ?_, ?_, ?_, hdlr, hy⟩
    · rw [hnco, Config.modTurn_toReal h, Config.add_toReal h, toReal_omegaRds h]
      exact turnReal_spec _
    · rintro rfl
      exact frontMixed_stereo h _ _ _ _
    · rintro rfl
      exact frontMixed_mono h _ _ _ _ ha

end Sys2Proof.Machine
end

section
/-! PROOFS. What a group does to the RDS unit (42_rds_group_decoder.md R231 to R242): the gate and the PI check, then one
description of each type's rule, of its registers and of its events. -/

namespace Sys2Proof.Machine

/-! ## The gate and the PI check (R231, R232) -/

@[simp] theorem withRds_self (s : State) : s.withRds s.rds = s := rfl

@[simp] theorem emit_nil (s : State) : s.emit [] = s := by
  simp only [State.emit, List.append_nil]
  rfl

/-- Events emitted in two batches, the registers written in between. -/
theorem emit_withRds_emit (s : State) (u : Rds) (es fs : List Event) :
    ((s.emit es).withRds u).emit fs = (s.withRds u).emit (es ++ fs) := by
  simp only [State.emit, State.withOut, State.withRds, List.append_assoc]

/-- `PiCheck` with a new PI, on the machine (R232). -/
def adoptPi (pi : Block) (s : State) : State :=
  (s.withRds { s.rds with pi := some pi, label := [], labelMask := 0#4, text := [], textMask := 0#16 }).emit
    [.labelClear, .textClear]

theorem piCheck_new {pi : Block} {u : Rds} (hp : u.pi ≠ some pi) :
    piCheck pi u = ({ (rdsClear u).1 with pi := some pi }, (rdsClear u).2) := if_neg hp

/-- With a new PI a group is what it is once the PI is adopted (R232). -/
theorem onGroup_newPi {s : State} {pi : Block} (h : GroupsOn s) (hp : s.rds.pi ≠ some pi)
    (rule : Rds → Rds × List Event) : onGroup pi rule s = onGroup pi rule (adoptPi pi s) := by
  have hadopted : GroupsOn (adoptPi pi s) := h
  have hnew : onGroup pi rule s = (s.withRds (rule (piCheck pi s.rds).1).1).emit
      ((piCheck pi s.rds).2 ++ (rule (piCheck pi s.rds).1).2) := if_pos h
  rw [onGroup_tracked hadopted rfl, hnew, piCheck_new hp]
  exact (emit_withRds_emit (s.withRds (adoptPi pi s).rds) _ _ _).symm

/-- With its PI tracked, a group whose rule does nothing changes nothing. -/
theorem onGroup_idle {s : State} {pi : Block} (h : GroupsOn s) (hp : s.rds.pi = some pi) {rule : Rds → Rds × List Event}
    (hr : rule s.rds = (s.rds, [])) : onGroup pi rule s = s := by
  rw [onGroup_tracked h hp, hr, withRds_self, emit_nil]

/-- Settles O39: the gate stands before every type's rule. -/
theorem groupsAreGated : Obligations.GroupsAreGated := by
  intro s g hoff
  rw [exec_decodeGroup, onGroup_off hoff]

/-- Settles O41: `PiCheck` stands before every type's rule. -/
theorem newPiClearsFirst : Obligations.NewPiClearsFirst := by
  intro s g hon hnew
  refine ⟨?_, fun _ => rfl⟩
  rw [exec_decodeGroup, exec_decodeGroup, onGroup_newPi hon hnew]
  rfl

/-- Settles O40: the rules of these rows answer the registers unchanged and no event. -/
theorem ignoredGroupsChangeNothing : Obligations.IgnoredGroupsChangeNothing := by
  intro s pi tp pty rest c d hon hpi
  have hdropped : Host.Outcome.next (onGroup pi gIgnored s) = (.next s : Result) :=
    congrArg _ (onGroup_idle hon hpi rfl)
  have hunused {t : BitVec 4} {row : UnusedRow} (hrow : unusedRow t = some row) :
      exec (row pi tp pty rest c d) s = .next s := (exec_unused hrow ..).trans hdropped
  exact ⟨fun _ => hdropped, hunused (t := 1#4) rfl, hunused (t := 3#4) rfl, hunused (t := 5#4) rfl,
    hunused (t := 6#4) rfl, hunused (t := 7#4) rfl, hunused (t := 9#4) rfl, hunused (t := 10#4) rfl,
    hunused (t := 11#4) rfl, hunused (t := 12#4) rfl, hunused (t := 13#4) rfl, hunused (t := 14#4) rfl,
    hunused (t := 15#4) rfl, fun _ _ _ _ _ _ _ _ => congrArg _ (onGroup_idle hon hpi (g8a_eq ..))⟩

/-- Settles O44: the rule of group 4A emits nothing. -/
theorem clockFieldsAreStored : Obligations.ClockFieldsAreStored := by
  intro s pi tp pty spare day hour minute offset hon hpi
  have hstored : onGroup pi (g4a day hour minute) s = s.withRds (g4a day hour minute s.rds).1 :=
    (onGroup_tracked hon hpi _).trans (emit_nil _)
  exact congrArg _ hstored

/-- Settles O45: the reset asks for neither the RDS mode nor the engine's state, and its opcode is in no port's table. -/
theorem rdsresetClearsTheUnit : Obligations.RdsresetClearsTheUnit := by
  refine fun s => ⟨congrArg Host.Outcome.next (rdsReset_eq s), fun _ => rfl, rfl, fun p hp => ?_⟩
  rw [Bool.eq_false_iff, ne_eq, portAccepts_iff]
  intro hop
  have hcode : (opOf 0x95000000#32).toNat = 0x95 := rfl
  have := mem_acceptedAt_range hp hop
  omega

/-! ## Group 0A (R235) -/

theorem labelChars_eq (u : Rds) : u.labelChars = [charAt u.label 0, charAt u.label 1, charAt u.label 2,
    charAt u.label 3, charAt u.label 4, charAt u.label 5, charAt u.label 6, charAt u.label 7] := rfl

section
variable (idx : BitVec 2) (c0 c1 : Byte) (u : Rds)

theorem g0a_regs : (g0a idx c0 c1 u).1 =
    { u with
      label := labelWritten u idx c0 c1
      labelMask := if labelMaskAfter u.labelMask idx = 0xF#4 then 0#4 else labelMaskAfter u.labelMask idx } := by
  simp only [g0a, labelComplete, decide_eq_true_eq]
  split <;> rfl

/-- The events of a segment, the label in them as the rule leaves it. -/
theorem g0a_events : (g0a idx c0 c1 u).2 =
    (if charAt u.label (2 * idx.toNat) = c0 ∧ charAt u.label (2 * idx.toNat + 1) = c1 then []
     else [.labelChange (g0a idx c0 c1 u).1.labelChars]) ++
    (if labelMaskAfter u.labelMask idx = 0xF#4 then [.labelComplete (g0a idx c0 c1 u).1.labelChars] else []) := by
  have hold : Memory.readList Config.fill u.label (labelAddr idx) 2 =
      [charAt u.label (2 * idx.toNat), charAt u.label (2 * idx.toNat + 1)] := rfl
  rw [g0a_regs]
  simp only [g0a, labelComplete, decide_eq_true_eq, hold, ne_eq, List.cons.injEq, and_true, ite_not]
  split
  · rfl
  · exact (List.append_nil _).symm

theorem g0a_events_length : (g0a idx c0 c1 u).2.length ≤ 2 := by
  rw [g0a_events]
  split <;> split <;> simp

variable {u} in
/-- The label after a segment, at every address (R82, R235). -/
theorem charAt_labelWritten (hwf : Memory.wf Config.fill u.label = true) (a : Nat) :
    charAt (labelWritten u idx c0 c1) a =
      if a = 2 * idx.toNat + 1 then c1 else if a = 2 * idx.toNat then c0 else charAt u.label a := by
  simp only [charAt, labelWritten, labelAddr, Memory.writeList, read_write (wf_write hwf _ _), read_write hwf]

end

/-- The machine after a segment whose PI is tracked (R235). -/
def labelStep (idx : BitVec 2) (c0 c1 : Byte) (s : State) : State :=
  (s.withRds (g0a idx c0 c1 s.rds).1).emit (g0a idx c0 c1 s.rds).2

/-- What a segment asks of the machine: groups are decoded, the PI is tracked, LBL is in its canonical form. -/
structure LabelReady (pi : Block) (s : State) : Prop where
  on : GroupsOn s
  tracked : s.rds.pi = some pi
  label : Memory.wf Config.fill s.rds.label = true

section
variable {pi : Block} {s : State} (idx : BitVec 2) (c0 c1 : Byte)

theorem exec_rdsG0A (h : LabelReady pi s) (tp : BitVec 1) (pty : BitVec 5) (x : BitVec 3) (af : Block) :
    exec (.rdsG0A pi tp pty x idx af c0 c1) s = .next (labelStep idx c0 c1 s) :=
  congrArg _ (onGroup_tracked h.on h.tracked _)

@[simp] theorem labelStep_label : (labelStep idx c0 c1 s).rds.label = labelWritten s.rds idx c0 c1 :=
  congrArg Rds.label (g0a_regs ..)

@[simp] theorem labelStep_labelMask : (labelStep idx c0 c1 s).rds.labelMask =
    if labelMaskAfter s.rds.labelMask idx = 0xF#4 then 0#4 else labelMaskAfter s.rds.labelMask idx :=
  congrArg Rds.labelMask (g0a_regs ..)

/-- The frame of a segment: the label, its mask and the events alone change. -/
theorem labelStep_eq : labelStep idx c0 c1 s =
    { s with
      rds := { s.rds with
        label := (labelStep idx c0 c1 s).rds.label, labelMask := (labelStep idx c0 c1 s).rds.labelMask }
      out := { s.out with evq := (labelStep idx c0 c1 s).out.evq } } := by
  rw [labelStep_label, labelStep_labelMask, labelStep, g0a_regs]
  rfl

theorem LabelReady.segment (h : LabelReady pi s) : LabelReady pi (labelStep idx c0 c1 s) where
  on := h.on
  tracked := (congrArg Rds.pi (g0a_regs ..)).trans h.tracked
  label := by
    rw [labelStep_label]
    exact wf_writeList h.label _ _

theorem charAt_labelStep (h : LabelReady pi s) (a : Nat) : charAt (labelStep idx c0 c1 s).rds.label a =
    if a = 2 * idx.toNat + 1 then c1 else if a = 2 * idx.toNat then c0 else charAt s.rds.label a := by
  rw [labelStep_label, charAt_labelWritten _ _ _ h.label]

/-- A segment reports a complete label exactly where its bit fills the mask. -/
theorem labelStep_completions : (labelStep idx c0 c1 s).out.evq.filter Event.isLabelComplete =
    s.out.evq.filter Event.isLabelComplete ++
      if labelMaskAfter s.rds.labelMask idx = 0xF#4 then [.labelComplete (labelStep idx c0 c1 s).rds.labelChars]
      else [] := by
  have hchange (p : Prop) [Decidable p] (text : List Byte) :
      (if p then [] else [Event.labelChange text]).filter Event.isLabelComplete = [] := by split <;> rfl
  rw [labelStep, emit_evq, g0a_events, List.filter_append, List.filter_append, hchange, List.nil_append]
  split <;> rfl

end

/-- Settles O42. -/
theorem labelSegmentIsStored : Obligations.LabelSegmentIsStored := by
  intro s pi tp pty x idx af c0 c1 hon hpi hwf
  have hready : LabelReady pi s := ⟨hon, hpi, hwf⟩
  refine ⟨labelStep idx c0 c1 s, exec_rdsG0A idx c0 c1 hready .., ?_, ?_, ?_, labelStep_labelMask .., ?_, labelStep_eq ..⟩
  · rw [charAt_labelStep _ _ _ hready, if_neg (by omega), if_pos rfl]
  · rw [charAt_labelStep _ _ _ hready, if_pos rfl]
  · intro a h0 h1
    rw [charAt_labelStep _ _ _ hready, if_neg h1, if_neg h0]
  · rw [List.append_assoc]
    exact congrArg (s.out.evq ++ ·) (g0a_events ..)

/-- Settles O46: segments 0 to 3 leave the masks 1, 3 and 7 and then fill it, whatever it was. -/
theorem fourSegmentsCompleteTheLabel : Obligations.FourSegmentsCompleteTheLabel := by
  intro s pi af tp pty x a b c d e f g h hon hpi hwf
  have r0 : LabelReady pi s := ⟨hon, hpi, hwf⟩
  have r1 := r0.segment 0#2 a b
  have r2 := r1.segment 1#2 c d
  have r3 := r2.segment 2#2 e f
  have m1 : labelMaskAfter s.rds.labelMask 0#2 = 1#4 := by rw [labelMaskAfter, if_pos rfl]; rfl
  have m2 : labelMaskAfter 1#4 1#2 = 3#4 := rfl
  have m3 : labelMaskAfter 3#4 2#2 = 7#4 := rfl
  have m4 : labelMaskAfter 7#4 3#2 = 0xF#4 := rfl
  have hchars : (labelStep 3#2 g h (labelStep 2#2 e f (labelStep 1#2 c d (labelStep 0#2 a b s)))).rds.labelChars =
      [a, b, c, d, e, f, g, h] := by
    rw [labelChars_eq]
    simp only [charAt_labelStep _ _ _ r3, charAt_labelStep _ _ _ r2, charAt_labelStep _ _ _ r1, charAt_labelStep _ _ _ r0]
    rfl
  refine ⟨_, _, _, _, exec_rdsG0A 0#2 a b r0 .., exec_rdsG0A 1#2 c d r1 .., exec_rdsG0A 2#2 e f r2 ..,
    exec_rdsG0A 3#2 g h r3 .., hchars, ?_, ?_⟩
  · simp [m1, m2, m3, m4]
  · simp [labelStep_completions, hchars, m1, m2, m3, m4]

/-! ## Group 2A (R236) -/

theorem textChars_eq (u : Rds) : u.textChars = (List.range 64).map (charAt u.text) := by
  simp only [Rds.textChars, Memory.readList, Nat.zero_add]
  rfl

theorem abFlipped_eq (last : Option Bool) (ab : Bool) : abFlipped last ab = decide (last = some (!ab)) := by
  cases last with
  | none => rfl
  | some b => cases b <;> cases ab <;> rfl

/-- The text buffer a fragment is written on (R236). -/
def textBase (ab : Bool) (u : Rds) : List Host.Cell := if abFlipped u.lastAb ab then [] else u.text

/-- The mask a fragment's bit is set in (R236). -/
def textBaseMask (ab : Bool) (u : Rds) : BitVec 16 := if abFlipped u.lastAb ab then 0#16 else u.textMask

theorem textRestart_eq (ab : Bool) (u : Rds) : textRestart ab u =
    ({ u with textMask := textBaseMask ab u, text := textBase ab u },
      if abFlipped u.lastAb ab then [.textClear] else []) := by
  simp only [textRestart, textBase, textBaseMask]
  split <;> rfl

section
variable (c : Config) (ab : Bool) (idx : BitVec 4) (t0 t1 t2 t3 : Byte) (u : Rds)

/-- TEXT with the fragment written, before a completion empties it (R236). -/
def textStored : List Host.Cell := Memory.writeList Config.fill (textBase ab u) (textAddr idx) [t0, t1, t2, t3]

/-- The fragment completes the text: a terminator among its characters, or the last mask bit (R236). -/
def textEnds : Bool :=
  decide (t0 = c.textEnd) || decide (t1 = c.textEnd) || decide (t2 = c.textEnd) || decide (t3 = c.textEnd) ||
    decide (textMaskAfter (textBaseMask ab u) idx = 0xFFFF#16)

theorem g2a_eq : g2a c ab idx t0 t1 t2 t3 u =
    ({ u with
       lastAb := some ab
       text := if textEnds c ab idx t0 t1 t2 t3 u then [] else textStored ab idx t0 t1 t2 t3 u
       textMask := if textEnds c ab idx t0 t1 t2 t3 u then 0#16 else textMaskAfter (textBaseMask ab u) idx },
      (if abFlipped u.lastAb ab then [.textClear] else []) ++
      [.textChange ((List.range 64).map (charAt (textStored ab idx t0 t1 t2 t3 u)))] ++
      if textEnds c ab idx t0 t1 t2 t3 u
      then [.textComplete ((List.range 64).map (charAt (textStored ab idx t0 t1 t2 t3 u)))] else []) := by
  have hends : (t0 = c.textEnd ∨ t1 = c.textEnd ∨ t2 = c.textEnd ∨ t3 = c.textEnd ∨
      textFull (textMaskAfter (textBaseMask ab u) idx) = true) ↔ textEnds c ab idx t0 t1 t2 t3 u = true := by
    simp only [textEnds, textFull, Bool.or_eq_true, decide_eq_true_eq, or_assoc]
  simp only [g2a, textRestart_eq, hends, textChars_eq, textWritten, textStored]
  split
  · simp only [List.append_assoc, List.singleton_append]
  · simp only [List.append_nil]

theorem g2a_events_length : (g2a c ab idx t0 t1 t2 t3 u).2.length ≤ 3 := by
  rw [g2a_eq]
  split <;> split <;> simp

variable {u} in
/-- The text with the fragment written, at every address (R83, R236). -/
theorem charAt_textStored (hwf : Memory.wf Config.fill u.text = true) (a : Nat) :
    charAt (textStored ab idx t0 t1 t2 t3 u) a =
      if a = 4 * idx.toNat + 3 then t3 else if a = 4 * idx.toNat + 2 then t2
      else if a = 4 * idx.toNat + 1 then t1 else if a = 4 * idx.toNat then t0
      else if abFlipped u.lastAb ab then Config.fill else charAt u.text a := by
  have hbase : Memory.wf Config.fill (textBase ab u) = true := by
    unfold textBase
    split
    · rfl
    · exact hwf
  have hread : Memory.read Config.fill (textBase ab u) a =
      if abFlipped u.lastAb ab then Config.fill else charAt u.text a := by
    unfold textBase
    split <;> rfl
  have h0 := wf_write hbase (4 * idx.toNat) t0
  have h1 := wf_write h0 (4 * idx.toNat + 1) t1
  have h2 := wf_write h1 (4 * idx.toNat + 2) t2
  rw [← hread]
  simp only [charAt, textStored, textAddr, Memory.writeList, Nat.add_assoc, Nat.reduceAdd, read_write h2, read_write h1,
    read_write h0, read_write hbase]

end

/-- Settles O43: the fragment is written on `textBase`, and a completion follows its change event. -/
theorem textFragmentIsStored : Obligations.TextFragmentIsStored := by
  intro s pi tp pty ab idx t0 t1 t2 t3 flipped mask complete hon hpi hwf hflip hmask hcomplete
  rw [← abFlipped_eq] at hflip
  have hends : complete = textEnds s.params (ab.getLsbD 0) idx t0 t1 t2 t3 s.rds := by
    rw [hcomplete, hmask, hflip]
    rfl
  have hexec : exec (.rdsG2A pi tp pty ab idx t0 t1 t2 t3) s = .next (onGroup pi _ s) := rfl
  rw [onGroup_tracked hon hpi, g2a_eq, ← hends, ← hflip] at hexec
  have hchar := charAt_textStored (ab.getLsbD 0) idx t0 t1 t2 t3 hwf
  rw [← hflip] at hchar
  refine ⟨_, textStored (ab.getLsbD 0) idx t0 t1 t2 t3 s.rds, hexec, ?_, ?_, ?_, ?_, ?_, ?_, ?_, rfl, ?_, rfl⟩
  · rw [hchar, if_neg (by omega), if_neg (by omega), if_neg (by omega), if_pos rfl]
  · rw [hchar, if_neg (by omega), if_neg (by omega), if_pos rfl]
  · rw [hchar, if_neg (by omega), if_pos rfl]
  · rw [hchar, if_pos rfl]
  · intro a ha
    rw [hchar, if_neg (by omega), if_neg (by omega), if_neg (by omega), if_neg (by omega)]
    rfl
  · intro a
    cases complete <;> rfl
  · rw [hmask, hflip]
    rfl
  · simp only [emit_evq, withRds_out, List.append_assoc]

/-! ## How many events a group emits (R242) -/

theorem piCheck_events_length (pi : Block) (u : Rds) : (piCheck pi u).2.length ≤ 2 := by
  unfold piCheck
  split
  · exact Nat.zero_le _
  · exact le_rfl

theorem groupRule_events_length (c : Config) (b cc d : Block) (u : Rds) : (groupRule c b cc d u).2.length ≤ 3 := by
  unfold groupRule
  split
  · exact Nat.zero_le _
  · split
    · exact (g0a_events_length ..).trans (by decide)
    · exact g2a_events_length ..
    · exact Nat.zero_le _
    · rw [g8a_eq]; exact Nat.zero_le _
    · exact Nat.zero_le _

/-- Settles O47: two events of `PiCheck` and three of the type's rule. -/
theorem groupEmitsAtMostFive : Obligations.GroupEmitsAtMostFive := by
  intro s t ab cd hexec
  obtain rfl : onGroup (blockHigh ab) (groupRule s.params (blockLow ab) (blockHigh cd) (blockLow cd)) s = t :=
    Host.Outcome.next.inj hexec
  rcases onGroup_cases (blockHigh ab) (groupRule s.params (blockLow ab) (blockHigh cd) (blockLow cd)) s with
    ⟨-, -, e⟩ | ⟨-, e⟩ <;> rw [e]
  · refine ⟨_, emit_evq .., ?_⟩
    rw [List.length_append]
    exact Nat.add_le_add (piCheck_events_length ..) (groupRule_events_length ..)
  · exact ⟨[], (List.append_nil _).symm, Nat.zero_le _⟩

end Sys2Proof.Machine
end

section
/-! PROOFS. The SCAN unit (43_station_scanner.md R260 to R271): the session's operations, what one fed sample does within
a block and at its end, the candidates and the winner, and the spectrum and its ratio with `rnd` the identity
(00_scope.md R12). -/

namespace Sys2Proof.Machine

/-! ## The session (R260 to R262) -/

theorem f32Operand_of_finite {w : Word} (h : f32Finite w = true) : f32Operand w = some (f32Real w) := if_pos h

theorem f32Operand_of_nonFinite {w : Word} (h : f32Finite w = false) : f32Operand w = none := if_neg (by simp [h])

theorem exec_scanstart {thr : Word} (h : f32Finite thr = true) (token : Word) (s : State) :
    exec (.scanstart thr token) s = .next (s.withScan (scanStart (f32Real thr) token s.scan)) := by
  simp only [exec, execScanstart, f32Operand_of_finite h]

theorem exec_scanstart_refused {thr : Word} (h : f32Finite thr = false) (token : Word) (s : State) :
    exec (.scanstart thr token) s = .next (s.refuse .inside .errArg) := by
  simp only [exec, execScanstart, f32Operand_of_nonFinite h]

/-- The words of `SCANSTART` are read back (R128). -/
theorem decodeOp_scanstart {thr : Word} (h : f32Finite thr = true) (token : Word) :
    decodeOp [0x91000000#32, thr, token] = .ok (.scanstart thr token) :=
  decodeInvertsEncode (.scanstart thr token) h

/-- The opcodes of R128 belong to the internal path alone. -/
theorem portAccepts_internal_false {p : Port} {h : Word} {n : Nat} (hp : p ≠ .inside)
    (hh : headerInfo h = some (n, [.inside])) : portAccepts p h = false :=
  Bool.eq_false_iff.mpr fun ha => hp (portAccepts_internal hh ha)

/-- Settles O23. -/
theorem scanSessionOpensAndCloses : Obligations.ScanSessionOpensAndCloses :=
  ⟨fun s _ token h => exec_scanstart h token s, fun s _ token h => exec_scanstart_refused h token s, fun _ => rfl,
    fun _ token h => decodeOp_scanstart h token, rfl,
    fun _ hp => ⟨portAccepts_internal_false hp rfl, portAccepts_internal_false hp rfl⟩⟩

/-- Settles O24. -/
theorem scanqAnswersScanning : Obligations.ScanqAnswersScanning := fun _ => rfl

/-! ## One fed sample (R263) -/

section
variable {s : State} {i q : Word}

theorem exec_scanfeed_dropped (h : f32Finite i = false ∨ f32Finite q = false) : exec (.scanfeed i q) s = .next s := by
  simp only [exec, execScanfeed, cplxOperand_of_nonFinite h]

/-- Within a block the sample is stored and the index advances. -/
theorem scanFeed_within (hsc : s.scan.scanning = true) (hidx : s.scan.blkIdx + 1 ≠ s.params.nFft) (z : Cplx) :
    scanFeed z s = s.withScan { s.scan with blk := blockWith s z, blkIdx := s.scan.blkIdx + 1 } := by
  rcases scanFeed_cases z s with ⟨hidle, -⟩ | ⟨-, -, he⟩ | ⟨-, hend, -⟩
  · exact absurd (hsc.symm.trans hidle) (by simp)
  · rw [he, blockStored, if_neg hidx]; rfl
  · exact absurd hend hidx

/-- The machine with the last sample of a block stored, about to be evaluated. -/
def blockEnded (s : State) (z : Cplx) : State := s.withScan { s.scan with blk := blockWith s z, blkIdx := 0 }

/-- At a block's end the sample is stored, the index wraps, and the block is evaluated. -/
theorem scanFeed_blockEnd (hsc : s.scan.scanning = true) (hend : s.scan.blkIdx + 1 = s.params.nFft) (z : Cplx) :
    scanFeed z s = evaluate (blockEnded s z) := by
  rcases scanFeed_cases z s with ⟨hidle, -⟩ | ⟨-, hidx, -⟩ | ⟨-, -, he⟩
  · exact absurd (hsc.symm.trans hidle) (by simp)
  · exact absurd hend hidx
  · rw [he, blockStored, if_pos hend]; rfl

/-- Settles O25. -/
theorem scanfeedStoresTheSample : Obligations.ScanfeedStoresTheSample := by
  refine ⟨fun s i q h => exec_scanfeed_dropped h, fun s i q hi hq hwf => ?_⟩
  rw [exec_scanfeed hi hq]
  refine ⟨fun hsc => by rw [scanFeed_idle hsc], fun hsc hidx => ⟨_, rfl, ?_⟩⟩
  rw [scanFeed_within hsc hidx]
  exact ⟨read_write_same hwf _ _, fun a ha => read_write_other hwf ha _, rfl⟩

/-! ## The end of a block (R264) -/

theorem evaluate_above (h : s.scan.threshold.toReal < (ratioDb s.params s.scan.blk).toReal) :
    evaluate s =
      s.withScan { s.scan with cand := accumulate s.params s.eng.freq (ratioDb s.params s.scan.blk) s.scan.cand } :=
  if_pos ((lt_iff _ _).mpr h)

theorem evaluate_finish (h : (ratioDb s.params s.scan.blk).toReal ≤ s.scan.threshold.toReal)
    (hc : s.scan.cand ≠ []) :
    evaluate s = scanComplete (winner s.params s.scan.cand) s.scan.token (s.withScan (finishScan s.scan)) := by
  rw [evaluate, (lt_eq_false_iff _ _).mpr h]
  exact if_pos hc

theorem evaluate_none (h : (ratioDb s.params s.scan.blk).toReal ≤ s.scan.threshold.toReal) (hc : s.scan.cand = []) :
    evaluate s = s := by
  rw [evaluate, (lt_eq_false_iff _ _).mpr h]
  exact if_neg (not_not.mpr hc)

end

/-- Settles O26: the three cases of `Evaluate`, on the state whose block has just been completed. -/
theorem blockEndThreeWay : Obligations.BlockEndThreeWay := by
  intro s i q hi hq hsc hend
  rw [exec_scanfeed hi hq, scanFeed_blockEnd hsc hend]
  refine ⟨fun h => ?_, fun h hc => ?_, fun h hc => ?_⟩
  · rw [evaluate_above (s := blockEnded s (f32Sample i q)) h]; rfl
  · rw [evaluate_finish (s := blockEnded s (f32Sample i q)) h hc]; rfl
  · rw [evaluate_none (s := blockEnded s (f32Sample i q)) h hc]; rfl

/-! ## The candidates (R267, R268) -/

/-- `Accumulate` leaves every candidate but the last as it is. -/
theorem accumulate_append (c : Config) (f : Word) (r : RNum) (l : List Candidate) (x : Candidate) :
    accumulate c f r (l ++ [x]) = l ++ accumulate c f r [x] := by
  induction l with
  | nil => rfl
  | cons y l ih =>
    cases l with
    | nil => rfl
    | cons z l => exact congrArg (y :: ·) ih

/-- Settles O27. -/
theorem accumulateComparesTheLast : Obligations.AccumulateComparesTheLast := by
  refine fun c f r h => ⟨rfl, fun l x => ⟨fun hf => ?_, fun hf => ?_⟩⟩
  · refine ⟨⟨x.freq, c.add x.sum r, x.count + 1⟩, ?_, hf, Config.add_toReal h _ _, rfl⟩
    rw [accumulate_append, accumulate, if_pos hf]
  · rw [accumulate_append, accumulate, if_neg hf, List.append_assoc]
    rfl

theorem winnerIndex_odd (c : Config) {cand : List Candidate} (h : cand.length % 2 = 1) :
    winnerIndex c cand = (cand.length - 1) / 2 := if_pos h

theorem winnerIndex_even (c : Config) {cand : List Candidate} (h : cand.length % 2 = 0) :
    winnerIndex c cand =
      if (averageAt c cand (cand.length / 2 - 1)).lt (averageAt c cand (cand.length / 2)) then cand.length / 2
      else cand.length / 2 - 1 := if_neg (by omega)

theorem toReal_averageAt {c : Config} (h : c.rnd = .exact) (cand : List Candidate) (k : Nat) :
    (averageAt c cand k).toReal = (cand.getD k default).sum.toReal / (cand.getD k default).count := by
  simp only [averageAt, Config.div_toReal h, toReal_ofNat]

/-- Settles O28: of two middle candidates the comparison of the averages decides, a tie going to the earlier. -/
theorem winnerIsTheMiddle : Obligations.WinnerIsTheMiddle := by
  refine fun c cand _ => ⟨fun hodd => ?_, fun heven => ?_, fun h k => toReal_averageAt h cand k⟩
  · rw [winner, winnerIndex_odd c hodd]
  · rw [winner, winnerIndex_even c heven]
    simp only [lt_iff]
    split <;> rfl

/-! ## The transform (R265) -/

section
variable {c : Config} (h : c.rnd = .exact)
include h

/-- A sum of complex values is taken lane by lane. -/
theorem toReal_foldr_add (f : Nat → Cplx) (l : List Nat) :
    (l.foldr (fun n acc => Cplx.add c (f n) acc) Cplx.zero).re.toReal = (l.map fun n => (f n).re.toReal).sum ∧
    (l.foldr (fun n acc => Cplx.add c (f n) acc) Cplx.zero).im.toReal = (l.map fun n => (f n).im.toReal).sum := by
  induction l with
  | nil => simp
  | cons n l ih =>
    obtain ⟨hre, him⟩ := ih
    simp [h, hre, him]

/-- `exp (-iθ)` turns a sample by the angle `θ = 2π·k·n / N_FFT` backwards. -/
theorem toReal_dftTerm (blk : List (Nat × Cplx)) (k n : Nat) :
    (dftTerm c blk k n).re.toReal =
      (blockAt blk n).re.toReal * Real.cos (2 * Real.pi * k * n / c.nFft) +
      (blockAt blk n).im.toReal * Real.sin (2 * Real.pi * k * n / c.nFft) ∧
    (dftTerm c blk k n).im.toReal =
      (blockAt blk n).im.toReal * Real.cos (2 * Real.pi * k * n / c.nFft) -
      (blockAt blk n).re.toReal * Real.sin (2 * Real.pi * k * n / c.nFft) := by
  simp only [dftTerm, Cplx.cis, toReal_mul_re h, toReal_mul_im h, Config.cos_toReal h, Config.sin_toReal h,
    toReal_dftAngle h, Real.cos_neg, Real.sin_neg]
  constructor <;> ring

end

/-- Settles O29: the sum of the terms, each of which is the sample turned backwards. -/
theorem dftIsTheTransform : Obligations.DftIsTheTransform := by
  intro c blk k h
  simp only [dftBin, toReal_foldr_add h, toReal_dftTerm h, and_self]

/-! ## The ratio (R264, R266) -/

section
variable {c : Config} (h : c.rnd = .exact)
include h

theorem toReal_sumReal (xs : List RNum) : (sumReal c xs).toReal = (xs.map RNum.toReal).sum := by
  induction xs with
  | nil => simp [sumReal]
  | cons x xs ih => rw [sumReal, Config.add_toReal h, ih, List.map_cons, List.sum_cons]

theorem toReal_meanMagnitude (blk : List (Nat × Cplx)) (bins : List Nat) :
    (meanMagnitude c blk bins).toReal =
      (bins.map fun k => Real.sqrt ((dftBin c blk k).re.toReal ^ 2 + (dftBin c blk k).im.toReal ^ 2)).sum /
        bins.length := by
  simp only [meanMagnitude, Config.div_toReal h, toReal_ofNat, toReal_sumReal h, List.map_map, Function.comp_def,
    toReal_abs_cplx h, sq]

/-- The reference `LogMag` is `20 · log10`, of `LOG_FLOOR` where the argument is smaller (R266). -/
theorem toReal_logMag_reference (hr : c.logMag = .reference) (x : RNum) :
    (logMag c x).toReal = 20 * Real.logb 10 (max x.toReal c.logFloor.toReal) := by
  simp [logMag, hr, decibels, h, Config.log10_exact h]

end

/-! ## The bins of a mean (R265) -/

/-- Two bins for each `j` from `lo` to `hi`: the form of `SIG` and of `NOISE`. -/
def bandBins (lo hi : Nat) (a b : Nat → Nat) : List Nat :=
  (List.range (hi + 1 - lo)).flatMap fun j => [a (lo + j), b (lo + j)]

theorem sigBins_eq (c : Config) : sigBins c = bandBins c.sigLo c.sigHi id (c.nFft - ·) := rfl

theorem noiseBins_eq (c : Config) :
    noiseBins c = bandBins c.noiseLo c.noiseHi (c.nFft / 2 - ·) (c.nFft / 2 + ·) := rfl

theorem mem_bandBins {lo hi : Nat} {a b : Nat → Nat} {k : Nat} :
    k ∈ bandBins lo hi a b ↔ ∃ j, lo ≤ j ∧ j ≤ hi ∧ (k = a j ∨ k = b j) := by
  simp only [bandBins, List.mem_flatMap, List.mem_range, List.mem_cons, List.not_mem_nil, or_false]
  constructor
  · rintro ⟨j, hj, hk⟩
    exact ⟨lo + j, by omega, by omega, hk⟩
  · rintro ⟨j, hlo, hhi, hk⟩
    refine ⟨j - lo, by omega, ?_⟩
    rwa [Nat.add_sub_of_le hlo]

/-- No bin is listed twice where the two bins of an index differ and are bins of no other index. -/
theorem nodup_bandBins {lo hi : Nat} {a b : Nat → Nat} (hne : ∀ j ≤ hi, lo ≤ j → a j ≠ b j)
    (hdisj : ∀ i j, lo ≤ i → i < j → j ≤ hi → a i ≠ a j ∧ a i ≠ b j ∧ b i ≠ a j ∧ b i ≠ b j) :
    (bandBins lo hi a b).Nodup := by
  rw [bandBins, List.nodup_flatMap]
  constructor
  · intro j hj
    have hj := List.mem_range.mp hj
    simpa using hne (lo + j) (by omega) (by omega)
  · refine List.pairwise_lt_range.imp_of_mem fun {i j} _ hj hij => ?_
    have hj := List.mem_range.mp hj
    obtain ⟨haa, hab, hba, hbb⟩ := hdisj (lo + i) (lo + j) (by omega) (by omega) (by omega)
    simp [Function.onFun, haa.symm, hab.symm, hba.symm, hbb.symm]

/-- The positive bins of `SIG` lie below `N_FFT / 2`, their partners above. -/
theorem nodup_sigBins {c : Config} (h : Config.sizesOk c = true) : (sigBins c).Nodup := by
  obtain ⟨-, -, -, -, -, -, -, -, -, hsep, -, -⟩ := sizesOk_cases h
  rw [sigBins_eq]
  refine nodup_bandBins (fun j hj hlo => ?_) (fun i j hlo hij hj => ?_) <;> simp only [id] <;> omega

/-- The bins of `NOISE` lie on the two sides of `N_FFT / 2`. -/
theorem nodup_noiseBins {c : Config} (h : Config.sizesOk c = true) : (noiseBins c).Nodup := by
  obtain ⟨-, -, -, -, -, -, -, hlo, -, hsep, -, -⟩ := sizesOk_cases h
  rw [noiseBins_eq]
  refine nodup_bandBins (fun j hj hj' => ?_) (fun i j hi hij hj => ?_) <;> omega

/-- Settles O30. -/
theorem ratioIsADifferenceOfLogs : Obligations.RatioIsADifferenceOfLogs := by
  refine ⟨fun c blk hr h => ⟨?_, toReal_meanMagnitude h blk⟩, fun c k => ⟨?_, ?_⟩, fun c h =>
    ⟨nodup_sigBins h, nodup_noiseBins h⟩⟩
  · rw [ratioDb, Config.sub_toReal h, toReal_logMag_reference h hr, toReal_logMag_reference h hr]
  · rw [sigBins_eq]; exact mem_bandBins
  · rw [noiseBins_eq]; exact mem_bandBins

end Sys2Proof.Machine
end

section
/-! PROOFS. The ring buffer (44_audio_ring_buffer.md R290 to R299): what each operation answers, what a write stores and
a pop reads, and the states the readers go through. -/

namespace Sys2Proof.Machine

/-! ## What a write stores and a pop reads (R290, R291) -/

/-- The samples of a write are values all together or not at all (R373). -/
theorem f32Operands_eq (ws : List Word) :
    f32Operands ws = if ws.all f32Finite then some (ws.map f32Real) else none := by
  induction ws with
  | nil => rfl
  | cons w ws ih =>
    rw [f32Operands, ih, List.all_cons]
    cases hw : f32Finite w with
    | false => rw [f32Operand_of_nonFinite hw]; rfl
    | true =>
      rw [f32Operand_of_finite hw, Bool.true_and]
      cases ws.all f32Finite <;> rfl

section
variable {c : Config} {a : Arb} {vs : List RNum}

/-- The address `k` past `WR` reads the `k`-th sample, where it fits. -/
theorem sampleAt_arbWrite_at (hwf : Memory.wf (.rat 0) a.store = true) {k : Nat} (hk : k < vs.length)
    (hfits : k < writeCount c a vs.length) :
    sampleAt (arbWrite c vs a).store ((a.wr + k) % c.arbCap) = vs[k] := by
  obtain ⟨hn, hcap, -⟩ := writeCount_le c a vs.length
  have hlen : (vs.take (writeCount c a vs.length)).length = writeCount c a vs.length := List.length_take_of_le hn
  have hread := read_writeWrap_at hwf (a := a.wr) (vs.take (writeCount c a vs.length)) (cap := c.arbCap) (k := k)
    (by omega) (by omega)
  exact hread.trans List.getElem_take

/-- With whole frames offered to a buffer of whole frames, what fits is stored to the last sample. -/
theorem writeCount_of_inv (hp : Config.sizesOk c = true) (h : ArbInv c a) {n : Nat} (hn : n % 2 = 0) :
    writeCount c a n = min n (c.arbCap - a.occ) :=
  writeCount_eq hn (sizesOk_cases hp).1 h.occEven

/-- An empty buffer takes all that its capacity holds. -/
theorem writeCount_of_empty (hp : Config.sizesOk c = true) (h : ArbInv c a) (hempty : a.occ = 0) {n : Nat}
    (hn : n % 2 = 0) (hfits : n ≤ c.arbCap) : writeCount c a n = n := by
  rw [writeCount_of_inv hp h hn, hempty, Nat.sub_zero, Nat.min_eq_left hfits]

/-- What is written to an empty buffer is popped again, in order. -/
theorem popData_arbWrite (hp : Config.sizesOk c = true) (h : ArbInv c a) (hempty : a.occ = 0)
    (heven : vs.length % 2 = 0) (hfits : vs.length ≤ c.arbCap) : popData c vs.length (arbWrite c vs a) = vs := by
  have hcount := writeCount_of_empty hp h hempty heven hfits
  have hplace : a.wr = a.rd := by
    rw [h.wrPlace, hempty, Nat.add_zero, Nat.mod_eq_of_lt h.rdLt]
  refine List.ext_getElem (by simp [popData, Memory.readWrap]) fun k hk hk' => ?_
  have hat := sampleAt_arbWrite_at (c := c) h.store.1 hk' (by rw [hcount]; exact hk')
  rw [hplace] at hat
  simp only [popData, Memory.readWrap, List.getElem_map, List.getElem_range]
  exact hat

end

/-! ## `WRITE` (R290) -/

section
variable {s : State} {ws : List Word}

theorem exec_write_odd (h : ws.length % 2 = 1) : exec (.write ws) s = .next (s.refuse .inside .errArg) := if_pos h

theorem exec_write_dropped (he : ws.length % 2 = 0) (hf : ws.all f32Finite = false) : exec (.write ws) s = .next s := by
  have hodd : ¬ ws.length % 2 = 1 := by omega
  simp [exec, execWrite, hodd, f32Operands_eq, hf]

theorem exec_write (he : ws.length % 2 = 0) (hf : ws.all f32Finite = true) :
    exec (.write ws) s = .next ((s.withArb (arbWrite s.params (ws.map f32Real) s.arb)).respond
      ⟨.inside, none, .ok, [BitVec.ofNat 32 (writeCount s.params s.arb ws.length)], []⟩) := by
  have hodd : ¬ ws.length % 2 = 1 := by omega
  rw [exec, execWrite, if_neg hodd, f32Operands_eq, if_pos hf, ← List.length_map (f := f32Real)]

end

/-- Settles O31. -/
theorem writeStoresWhatFits : Obligations.WriteStoresWhatFits := by
  refine ⟨fun s ws => ⟨exec_write_odd, exec_write_dropped⟩, fun s ws hp h hf he => ?_⟩
  have hlen : (ws.map f32Real).length = ws.length := List.length_map _
  have hcount := writeCount_of_inv hp h he
  refine ⟨_, exec_write he hf, fun k hk hroom => ?_, fun a ha => ?_, ?_⟩
  · have hat := sampleAt_arbWrite_at (c := s.params) (vs := ws.map f32Real) h.store.1 (k := k) (by omega)
      (by rw [hlen]; omega)
    exact hat.trans (List.getElem_map _)
  · refine sampleAt_arbWrite_other h.store.1 _ fun k hk => ?_
    rw [hlen] at hk
    exact ha k (by omega) (by omega)
  · rw [← hcount, ← hlen]
    rfl

/-! ## `READ` (R292) -/

theorem readerIdOk_iff (s : State) (r : BitVec 16) : readerIdOk s.params r = true ↔ validReader s r :=
  decide_eq_true_iff

section
variable {s : State} {r : BitVec 16} {frames : Word}

theorem readerIdOk_of_invalid (h : ¬ validReader s r) : readerIdOk s.params r = false :=
  Bool.eq_false_iff.mpr fun hok => h ((readerIdOk_iff s r).mp hok)

theorem exec_read_refused (h : ¬ validReader s r ∨ s.arb.reader r ≠ .idle) :
    exec (.read r frames) s = .next (s.refuse .ap .errArg) := by
  rcases h with hr | hbusy
  · exact if_pos (readerIdOk_of_invalid hr)
  · simp only [exec, execRead, if_pos hbusy, ite_self]

/-- An idle reader's read: nothing asked, data present, or none. -/
theorem exec_read (hr : validReader s r) (hidle : s.arb.reader r = .idle) :
    exec (.read r frames) s =
      if frames = 0#32 then .next (s.respond (dataResponse r 0 []))
      else if 0 < s.arb.occ then .next (deliverFrames r frames s)
      else .next (s.withArb (s.arb.setReader r (.blocked frames))) := by
  simp only [exec, execRead, (readerIdOk_iff s r).mpr hr, hidle, ne_eq, not_true_eq_false, Bool.true_eq_false, if_false]

theorem exec_read_data (hr : validReader s r) (hidle : s.arb.reader r = .idle) (hf : frames ≠ 0#32)
    (hocc : 0 < s.arb.occ) : exec (.read r frames) s = .next (deliverFrames r frames s) := by
  rw [exec_read hr hidle, if_neg hf, if_pos hocc]

end

/-- Settles O32. -/
theorem readDeliversTheOldestFrames : Obligations.ReadDeliversTheOldestFrames := by
  refine ⟨fun s r frames h => exec_read_refused h, fun s r frames hr hidle => ⟨fun hf => ?_, fun hf hocc => ?_,
    fun hf hocc => ?_, decodeInvertsEncode (.read r frames) rfl⟩⟩
  · rw [exec_read hr hidle, if_pos hf]; rfl
  · rw [exec_read_data hr hidle hf hocc]; rfl
  · rw [exec_read hr hidle, if_neg hf, if_neg (by omega)]; rfl

/-- Settles O33: the write fills an empty buffer from `RD` on, and the read pops all of it. -/
theorem writtenFramesAreReadBack : Obligations.WrittenFramesAreReadBack := by
  intro s t ws r frames hp h hempty hr hidle hf he hpos hcap hframes hwrite
  rw [exec_write he hf] at hwrite
  cases hwrite
  have hlen : (ws.map f32Real).length = ws.length := List.length_map _
  have hocc : (arbWrite s.params (ws.map f32Real) s.arb).occ = ws.length := by
    simp only [arbWrite, hlen, writeCount_of_empty hp h hempty he hcap, hempty, Nat.zero_add]
  have hready : framesReady (arbWrite s.params (ws.map f32Real) s.arb) frames = ws.length / 2 := by
    rw [framesReady, hocc]
    omega
  have hwhole : 2 * (ws.length / 2) = ws.length := by omega
  have hasked : frames ≠ 0#32 := by
    rintro rfl
    rw [BitVec.toNat_zero] at hframes
    omega
  have hpop := popData_arbWrite (vs := ws.map f32Real) hp h hempty (by omega) (by omega)
  rw [hlen] at hpop
  refine ⟨_, exec_read_data hr hidle hasked (hocc ▸ hpos), ?_, ?_⟩
  · simp only [deliverFrames_cases, respond_arb, withArb_arb, arbPop, hready, hocc, hwhole, Nat.sub_self]
  · simp only [deliverFrames_cases, respond_rsq, withArb_out, respond_arb, withArb_arb, respond_params, withArb_params,
      hready, hwhole, hpop, dataResponse]

/-! ## `WAKE` and `TIMEOUT` (R293, R294, R296) -/

section
variable {s : State} {r : BitVec 16}

theorem exec_wake_refused (h : ¬ validReader s r) : exec (.wake r) s = .next (s.refuse .ap .errArg) :=
  if_pos (readerIdOk_of_invalid h)

theorem exec_wake_blocked (hr : validReader s r) {n : Word} (hb : s.arb.reader r = .blocked n) :
    exec (.wake r) s =
      if 0 < s.arb.occ then .next ((deliverFrames r n s).withArb ((deliverFrames r n s).arb.setReader r .idle))
      else .next s := by
  simp only [exec, execWake, (readerIdOk_iff s r).mpr hr, hb, Bool.true_eq_false, if_false]

theorem exec_wake_cancelled (hr : validReader s r) (hc : s.arb.reader r = .cancelled) :
    exec (.wake r) s = .next ((s.withArb (s.arb.setReader r .idle)).respond ⟨.ap, some r, .cancelled, [], []⟩) := by
  simp only [exec, execWake, (readerIdOk_iff s r).mpr hr, hc, Bool.true_eq_false, if_false]

theorem exec_wake_idle (hr : validReader s r) (hi : s.arb.reader r = .idle) : exec (.wake r) s = .next s := by
  simp only [exec, execWake, (readerIdOk_iff s r).mpr hr, hi, Bool.true_eq_false, if_false]

/-- Port TK carries no response, so a refusal there changes nothing (R385). -/
theorem exec_timeout_refused (h : ¬ validReader s r) : exec (.timeout r) s = .next s :=
  if_pos (readerIdOk_of_invalid h)

theorem exec_timeout_blocked (hr : validReader s r) {n : Word} (hb : s.arb.reader r = .blocked n) :
    exec (.timeout r) s =
      if s.arb.occ = 0 then .next ((s.withArb (s.arb.setReader r .idle)).respond (dataResponse r 0 []))
      else .next s := by
  simp only [exec, execTimeout, (readerIdOk_iff s r).mpr hr, hb, Bool.true_eq_false, if_false]

theorem exec_timeout_notBlocked (hr : validReader s r) (h : s.arb.reader r = .idle ∨ s.arb.reader r = .cancelled) :
    exec (.timeout r) s = .next s := by
  rcases h with h | h <;>
    simp only [exec, execTimeout, (readerIdOk_iff s r).mpr hr, h, Bool.true_eq_false, if_false]

end

/-- Settles O34. -/
theorem wakeEndsAnOutstandingRead : Obligations.WakeEndsAnOutstandingRead := by
  refine ⟨fun s r h => exec_wake_refused h, fun s r hr => ⟨fun n hb hocc => ?_, fun hc => exec_wake_cancelled hr hc,
    fun n hb hocc => ?_, fun hi => exec_wake_idle hr hi, decodeInvertsEncode (.wake r) rfl⟩⟩
  · rw [exec_wake_blocked hr hb, if_pos hocc]; rfl
  · rw [exec_wake_blocked hr hb, if_neg (by omega)]

/-- Settles O35. -/
theorem timeoutEndsABlockedRead : Obligations.TimeoutEndsABlockedRead := by
  refine ⟨fun s r h => exec_timeout_refused h, fun s r hr => ⟨fun n hb hocc => ?_, fun n hb hocc => ?_,
    fun h => exec_timeout_notBlocked hr h, decodeInvertsEncode (.timeout r) rfl⟩⟩
  · rw [exec_timeout_blocked hr hb, if_pos hocc]; rfl
  · rw [exec_timeout_blocked hr hb, if_neg (by omega)]

/-! ## `CANCEL`, `WAITING` and `FLUSH` (R295, R297, R298) -/

/-- A second `CANCEL` finds no blocked reader. -/
theorem cancelReader_cancelReader (x : Reader) : cancelReader (cancelReader x) = cancelReader x := by
  cases x <;> rfl

theorem reader_map_cancelReader (a : Arb) (r : BitVec 16) :
    ({ a with readers := a.readers.map cancelReader } : Arb).reader r = cancelReader (a.reader r) :=
  List.getD_map a.readers .idle cancelReader

/-- The operations the control port and the audio port both accept (R126). -/
theorem portAccepts_shared {h : Word} {n : Nat} (hh : headerInfo h = some (n, [.ap, .cp])) (p : Port) :
    portAccepts p h = true ↔ p = .cp ∨ p = .ap := by
  rw [portAccepts, hh]
  simp [or_comm]

/-- Settles O36. -/
theorem cancelMarksBlockedReaders : Obligations.CancelMarksBlockedReaders := by
  intro s
  refine ⟨_, rfl, List.length_map _, fun r => ?_, rfl, fun u hu => ?_, decodeInvertsEncode .cancel rfl,
    portAccepts_shared rfl⟩
  · have hafter := reader_map_cancelReader s.arb r
    refine ⟨fun n hb => ?_, fun hi => ?_, fun hc => ?_⟩
    · exact hafter.trans (congrArg cancelReader hb)
    · exact hafter.trans (congrArg cancelReader hi)
    · exact hafter.trans (congrArg cancelReader hc)
  · cases hu
    simp only [respondStatus_arb, withArb_arb, List.map_map, Function.comp_def, cancelReader_cancelReader]

/-- Settles O37. -/
theorem waitingCountsAndFlushEmpties : Obligations.WaitingCountsAndFlushEmpties := fun _ =>
  ⟨rfl, rfl, decodeInvertsEncode .waiting rfl, decodeInvertsEncode .flush rfl, portAccepts_shared rfl⟩

end Sys2Proof.Machine
end

section
/-! PROOFS. The ENG unit (45_engine_control.md R320 to R346): run control and frequency, the six setters, `Advance`, and
the seek session. Each operation's meaning is said once, in the updates of the state; the statements are those equations
with the updates written out. -/

namespace Sys2Proof.Machine

/-! ## Advance (R342) -/

section
variable {f step lo hi : Word}

theorem advance_above (h : (hi.toNat : Int) < f.toNat + step.toInt) : advance f step lo hi = lo := if_pos h

/-- With a range, what falls below it is not above it, whichever bound is tested first. -/
theorem advance_below (hr : lo.toNat ≤ hi.toNat) (h : (f.toNat : Int) + step.toInt < lo.toNat) :
    advance f step lo hi = hi := by
  have hnot : ¬ (hi.toNat : Int) < f.toNat + step.toInt := by omega
  exact (if_neg hnot).trans (if_pos h)

/-- A sum between the bounds is between 0 and `2^32`, so the word holds it. -/
theorem advance_within (hlo : (lo.toNat : Int) ≤ f.toNat + step.toInt) (hhi : (f.toNat : Int) + step.toInt ≤ hi.toNat) :
    ((advance f step lo hi).toNat : Int) = f.toNat + step.toInt := by
  have hadv : advance f step lo hi = BitVec.ofInt 32 (f.toNat + step.toInt) :=
    (if_neg (not_lt.mpr hhi)).trans (if_neg (not_lt.mpr hlo))
  have hword := hi.isLt
  rw [hadv, BitVec.toNat_ofInt]
  omega

end

/-- Settles O19. -/
theorem advanceWrapsInItsRange : Obligations.AdvanceWrapsInItsRange := fun f step lo hi hr =>
  ⟨advance_above, advance_below hr, advance_within, advance_range f step lo hi hr⟩

/-! ## Run control (R323, R324) -/

section
variable {s : State}

theorem exec_start (h : s.eng.run ≠ .running) :
    exec .start s = .next (((s.request .start).withEng { s.eng with run := .running }).respondStatus .cp .ok) := if_pos h

theorem exec_start_running (h : s.eng.run = .running) : exec .start s = .next (s.respondStatus .cp .ok) :=
  if_neg (not_not.mpr h)

theorem exec_stop (h : s.eng.run = .running) :
    exec .stop s = .next (((s.request .stop).withEng { s.eng with run := .paused }).respondStatus .cp .ok) := if_pos h

theorem exec_stop_notRunning (h : s.eng.run ≠ .running) : exec .stop s = .next (s.respondStatus .cp .ok) := if_neg h

end

/-- Settles O13. -/
theorem startRunsTheEngine : Obligations.StartRunsTheEngine := fun _ =>
  ⟨exec_start, exec_start_running, decodeInvertsEncode .start rfl⟩

/-- Settles O14. -/
theorem stopPausesTheEngine : Obligations.StopPausesTheEngine := fun _ =>
  ⟨exec_stop, exec_stop_notRunning, decodeInvertsEncode .stop rfl⟩

/-! ## Frequency (R322, R325, R326, R346) -/

/-- The machine on another frequency, its RDS unit cleared: one request, and the change's event before the two of the
reset. -/
def retuned (f : Word) (s : State) : State :=
  (((s.withEng { s.eng with freq := f }).request (.setFreq f)).withRds
    { s.rds with pi := none, label := [], labelMask := 0#4, text := [], textMask := 0#16 }).emit
      [.freqChanged f, .labelClear, .textClear]

/-- What `TUNE` and `CANCELSEEK` share: a frequency change, then the RDS reset. -/
theorem rdsReset_setFreq (f : Word) (s : State) : rdsReset (setFreq f s) = retuned f s := by
  rw [rdsReset_eq, setFreq_cases, emit_withRds_emit]
  rfl

theorem exec_tune (f : Word) (s : State) :
    exec (.tune f) s = .next ((retuned f s).respondStatus .cp .ok) :=
  congrArg (fun t => Host.Outcome.next (State.respondStatus t .cp .ok)) (rdsReset_setFreq f s)

theorem exec_getfreq (s : State) : exec .getfreq s = .next (s.respond ⟨.cp, none, .ok, [s.eng.freq], []⟩) := rfl

/-- `TUNE` leaves the requested frequency in FREQ. -/
theorem freq_of_exec_tune {f : Word} {s t : State} (h : exec (.tune f) s = .next t) : t.eng.freq = f := by
  rw [exec_tune] at h
  cases h
  rfl

theorem exec_freqchg (f : Word) (s : State) :
    exec (.freqchg f) s = .next ((s.withEng { s.eng with freq := f }).emit [.freqChanged f]) := rfl

/-- Settles O15. -/
theorem tuneSetsFrequencyAndClearsRds : Obligations.TuneSetsFrequencyAndClearsRds := fun s f =>
  ⟨exec_tune f s, fun _ => rfl, decodeInvertsEncode (.tune f) rfl⟩

/-- Settles O16. -/
theorem getfreqAnswersTheFrequency : Obligations.GetfreqAnswersTheFrequency := by
  refine ⟨exec_getfreq, fun s t f h => ?_, decodeInvertsEncode .getfreq rfl⟩
  have hfreq := freq_of_exec_tune h
  rw [exec_getfreq, hfreq]
  rfl

/-- Settles O22. -/
theorem freqchgFollowsTheSource : Obligations.FreqchgFollowsTheSource := fun s f =>
  ⟨exec_freqchg f s, decodeInvertsEncode (.freqchg f) rfl⟩

/-! ## The setters (R331 to R336) -/

theorem exec_setsquelch {level : Word} (h : f32Finite level = true) (en : Bool) (s : State) :
    exec (.setsquelch en level) s =
      .next ((s.withCr { s.cr with sqEn := en, sqLevel := f32Real level }).respondStatus .cp .ok) := by
  simp only [exec, execSetsquelch, f32Operand_of_finite h]

theorem exec_setsquelch_refused {level : Word} (h : f32Finite level = false) (en : Bool) (s : State) :
    exec (.setsquelch en level) s = .next (s.refuse .cp .errArg) := by
  simp only [exec, execSetsquelch, f32Operand_of_nonFinite h]

/-- Settles O17: only the squelch level has a form that is refused; the words are those the encoder makes. -/
theorem settersWriteTheirRegister : Obligations.SettersWriteTheirRegister :=
  ⟨fun s => ⟨fun _ => rfl, fun _ => rfl, fun _ => rfl, fun en _ h => exec_setsquelch h en s,
      fun en _ h => exec_setsquelch_refused h en s, fun _ => rfl, fun _ => rfl⟩,
    decodeInvertsEncode (.setmode .mono) rfl, decodeInvertsEncode (.setmode .stereo) rfl,
    decodeInvertsEncode (.setchan .stereo) rfl, decodeInvertsEncode (.setchan .left) rfl,
    decodeInvertsEncode (.setchan .right) rfl, decodeInvertsEncode (.setchan .sum) rfl,
    decodeInvertsEncode (.setchan .diff) rfl, decodeInvertsEncode (.setdeemph .flat) rfl,
    decodeInvertsEncode (.setdeemph .t50) rfl, decodeInvertsEncode (.setdeemph .t75) rfl,
    fun level h => ⟨decodeInvertsEncode (.setsquelch false level) h, decodeInvertsEncode (.setsquelch true level) h⟩,
    fun level => decodeInvertsEncode (.setgain level) rfl, decodeInvertsEncode (.setrdsmode .off) rfl,
    decodeInvertsEncode (.setrdsmode .v1) rfl, decodeInvertsEncode (.setrdsmode .v2) rfl⟩

/-! ## The seek session (R340, R341, R343) -/

section
variable {s : State} {thr lo hi : Word}

theorem exec_seek (hf : f32Finite thr = true) (hr : lo.toNat ≤ hi.toNat) (step interval token : Word) :
    exec (.seek thr lo hi step interval token) s =
      .next ((seekRun (f32Real thr) lo hi step interval token s).respondStatus .cp .ok) := by
  have hrange : ¬ u32Value hi < u32Value lo := by simpa [u32Value] using hr
  simp only [exec, execSeek, f32Operand_of_finite hf, if_neg hrange]

/-- Both tests of `SEEK` refuse with the same status, so their order does not show. -/
theorem exec_seek_refused (h : f32Finite thr = false ∨ hi.toNat < lo.toNat) (step interval token : Word) :
    exec (.seek thr lo hi step interval token) s = .next (s.refuse .cp .errArg) := by
  cases hf : f32Finite thr with
  | false => simp only [exec, execSeek, f32Operand_of_nonFinite hf]
  | true =>
    have hrange : u32Value hi < u32Value lo := by simpa [u32Value, hf] using h
    simp only [exec, execSeek, f32Operand_of_finite hf, if_pos hrange]

theorem exec_tick_unarmed (h : s.eng.timerArmed = false) : exec .tick s = .next s := if_pos h

theorem exec_tick_retired (h : s.eng.timerArmed = true) (hd : s.eng.seekActive = false ∨ s.scan.scanning = false) :
    exec .tick s = .next (s.withEng { s.eng with timerArmed := false }) :=
  (if_neg (by simp [h])).trans (if_pos hd)

theorem exec_tick_advances (h : s.eng.timerArmed = true) (ha : s.eng.seekActive = true) (hs : s.scan.scanning = true) :
    exec .tick s = .next (setFreq (advance s.eng.freq s.eng.seekStep s.eng.seekMin s.eng.seekMax) s) :=
  (if_neg (by simp [h])).trans (if_neg (by simp [ha, hs]))

/-- The timer, the seek and the scan session are closed, and the machine is on the pre-seek frequency (R343). -/
theorem exec_cancelseek (h : s.eng.seekActive = true) :
    exec .cancelseek s = .next ((retuned s.eng.seekPre
      ((s.withEng { s.eng with timerArmed := false, seekActive := false }).withScan (scanStop s.scan))).respondStatus
        .cp .ok) := by
  rw [← rdsReset_setFreq]
  exact execCancelseek_active h

theorem exec_cancelseek_idle (h : s.eng.seekActive = false) :
    exec .cancelseek s = .next (s.respondStatus .cp .ok) := if_neg (by simp [h])

end

/-- Settles O18. -/
theorem seekOpensASession : Obligations.SeekOpensASession := by
  intro s thr lo hi step interval token
  refine ⟨fun hf hr => ?_, fun h => exec_seek_refused h step interval token,
    fun hf => decodeInvertsEncode (.seek thr lo hi step interval token) hf⟩
  rw [exec_seek hf hr, seekRun_eq]
  rfl

/-- Settles O20. -/
theorem tickAdvancesTheFrequency : Obligations.TickAdvancesTheFrequency := fun _ =>
  ⟨exec_tick_advances, exec_tick_retired, exec_tick_unarmed, decodeInvertsEncode .tick rfl⟩

/-- Settles O21. -/
theorem cancelseekRestoresTheFrequency : Obligations.CancelseekRestoresTheFrequency := fun _ =>
  ⟨exec_cancelseek, exec_cancelseek_idle, decodeInvertsEncode .cancelseek rfl⟩

end Sys2Proof.Machine
end

section
/-! PROOFS. Faults (60_exceptions.md R370 to R374): no step stops the machine, and construction answers the lowest
failing code or the reset state. The first is a case split along `exec`, each case closed by the equation that says what
the operation answers there; the second goes through the three checks, each read as the condition of its rule. -/

namespace Sys2Proof.Machine

/-! ## Every operation completes (R370) -/

theorem completes_next (t : State) : Completes (.next t) := ⟨t, rfl⟩

theorem completes_of_eq {r : Result} {t : State} (h : r = .next t) : Completes r := ⟨t, h⟩

theorem completes_ite {P : Prop} [Decidable P] {r r' : Result} (h : Completes r) (h' : Completes r') :
    Completes (if P then r else r') := by
  split
  · exact h
  · exact h'

section
variable (s : State)

/-- A reader id or a busy reader that `READ` does not take is refused, and an idle reader's read is answered or blocks. -/
theorem exec_read_completes (r : BitVec 16) (frames : Word) : Completes (exec (.read r frames) s) := by
  by_cases h : validReader s r ∧ s.arb.reader r = .idle
  · obtain ⟨hr, hidle⟩ := h
    rw [exec_read hr hidle]
    exact completes_ite (completes_next _) (completes_ite (completes_next _) (completes_next _))
  · exact completes_of_eq (exec_read_refused (not_and_or.mp h))

/-- `WAKE` has an answer for each state of the reader (R293, R294, R373). -/
theorem exec_wake_completes (r : BitVec 16) : Completes (exec (.wake r) s) := by
  by_cases hr : validReader s r
  · cases hx : s.arb.reader r with
    | idle => exact completes_of_eq (exec_wake_idle hr hx)
    | cancelled => exact completes_of_eq (exec_wake_cancelled hr hx)
    | blocked n =>
      rw [exec_wake_blocked hr hx]
      exact completes_ite (completes_next _) (completes_next _)
  · exact completes_of_eq (exec_wake_refused hr)

/-- `TIMEOUT` has an answer for each state of the reader (R296, R373). -/
theorem exec_timeout_completes (r : BitVec 16) : Completes (exec (.timeout r) s) := by
  by_cases hr : validReader s r
  · cases hx : s.arb.reader r with
    | idle => exact completes_of_eq (exec_timeout_notBlocked hr (.inl hx))
    | cancelled => exact completes_of_eq (exec_timeout_notBlocked hr (.inr hx))
    | blocked n =>
      rw [exec_timeout_blocked hr hx]
      exact completes_ite (completes_next _) (completes_next _)
  · exact completes_of_eq (exec_timeout_refused hr)

theorem exec_write_completes (ws : List Word) : Completes (exec (.write ws) s) := by
  rcases Nat.mod_two_eq_zero_or_one ws.length with he | ho
  · cases hf : ws.all f32Finite with
    | false => exact completes_of_eq (exec_write_dropped he hf)
    | true => exact completes_of_eq (exec_write he hf)
  · exact completes_of_eq (exec_write_odd ho)

theorem exec_setsquelch_completes (en : Bool) (level : Word) : Completes (exec (.setsquelch en level) s) := by
  cases hf : f32Finite level with
  | false => exact completes_of_eq (exec_setsquelch_refused hf en s)
  | true => exact completes_of_eq (exec_setsquelch hf en s)

theorem exec_scanstart_completes (thr token : Word) : Completes (exec (.scanstart thr token) s) := by
  cases hf : f32Finite thr with
  | false => exact completes_of_eq (exec_scanstart_refused hf token s)
  | true => exact completes_of_eq (exec_scanstart hf token s)

theorem exec_scanfeed_completes (i q : Word) : Completes (exec (.scanfeed i q) s) := by
  by_cases h : f32Finite i = true ∧ f32Finite q = true
  · exact completes_of_eq (exec_scanfeed h.1 h.2)
  · simp only [not_and_or, Bool.not_eq_true] at h
    exact completes_of_eq (exec_scanfeed_dropped h)

/-- A threshold that is no value and an inverted range are refused; any other seek runs (R340). -/
theorem exec_seek_completes (thr lo hi step interval token : Word) :
    Completes (exec (.seek thr lo hi step interval token) s) := by
  by_cases h : f32Finite thr = true ∧ lo.toNat ≤ hi.toNat
  · exact completes_of_eq (exec_seek h.1 h.2 step interval token)
  · simp only [not_and_or, Bool.not_eq_true, not_le] at h
    exact completes_of_eq (exec_seek_refused h step interval token)

/-- No operation answers a fault or lacks a meaning. -/
theorem exec_completes (i : Instr) : Completes (exec i s) := by
  cases i with
  | start | stop | cancelseek => exact completes_ite (completes_next _) (completes_next _)
  | tick => exact completes_ite (completes_next _) (completes_ite (completes_next _) (completes_next _))
  | seek thr lo hi step interval token => exact exec_seek_completes s thr lo hi step interval token
  | setsquelch en level => exact exec_setsquelch_completes s en level
  | read r frames => exact exec_read_completes s r frames
  | wake r => exact exec_wake_completes s r
  | timeout r => exact exec_timeout_completes s r
  | write ws => exact exec_write_completes s ws
  | scanstart thr token => exact exec_scanstart_completes s thr token
  | scanfeed i q => exact exec_scanfeed_completes s i q
  | sample i q => exact (exec_sample_cases i q s).elim completes_of_eq completes_of_eq
  | tune | getfreq | freqchg | setmode | setchan | setdeemph | setgain | setrdsmode | waiting | cancel | flush
  | scanstop | scanq | rdsreset | group | rdsGB | rdsG0A | rdsG1A | rdsG2A | rdsG3A | rdsG4A | rdsG5A | rdsG6A | rdsG7A
  | rdsG8A | rdsG9A | rdsG10A | rdsG11A | rdsG12A | rdsG13A | rdsG14A | rdsG15A => exact completes_next _

end

/-- Settles O9: a step that runs no operation only takes or refuses a delivery, and every operation completes. -/
theorem everyStepCompletes : Obligations.EveryStepCompletes := by
  intro s
  unfold step
  cases fetch s with
  | idle t => exact completes_next t
  | rejected p status t =>
    cases status with
    | none => exact completes_next t
    | some st => exact completes_next (t.refuse p st)
  | run i t => exact exec_completes t i

/-! ## Construction (R371, R372) -/

section
variable {c : Config} {b : Bool}

/-- R371, code 1: the rate checks are the conditions on the rates. -/
theorem ratesOk_iff : Config.ratesOk c = true ↔
    0 < c.inputRate ∧ 0 < c.fmRate ∧ 0 < c.audioRate ∧ c.fmRate ∣ c.inputRate ∧ c.audioRate ∣ c.fmRate ∧
      2 ≤ c.fmRate := by
  simp only [Config.ratesOk, Bool.and_eq_true, decide_eq_true_eq, Nat.dvd_iff_mod_eq_zero, and_assoc]

/-- R372: the size checks, with the bands' distance in the integers. -/
theorem sizesOk_iff : Config.sizesOk c = true ↔
    Even c.arbCap ∧ 2 ≤ c.arbCap ∧ Even c.nFft ∧ 8 ≤ c.nFft ∧ 1 ≤ c.maxReaders ∧
      (1 ≤ c.sigLo ∧ c.sigLo ≤ c.sigHi) ∧ (1 ≤ c.noiseLo ∧ c.noiseLo ≤ c.noiseHi) ∧
      (c.sigHi : Int) < (c.nFft : Int) / 2 - c.noiseHi ∧ 1 ≤ c.hIn.length ∧ 1 ≤ c.hAud.length := by
  have hbands : c.sigHi + c.noiseHi < c.nFft / 2 ↔ (c.sigHi : Int) < (c.nFft : Int) / 2 - c.noiseHi := by omega
  simp only [Config.sizesOk, Bool.and_eq_true, decide_eq_true_eq, Nat.even_iff, hbands, and_assoc]

theorem realParams_iff : RealParams c ↔
    0 < c.maxDev.toReal ∧ 0 < c.normDev.toReal ∧ 0 < c.deltaF.toReal ∧ 0 < c.gainFloor.toReal ∧
      c.emaOld.toReal + c.emaNew.toReal = 1 ∧ 0 ≤ c.emaOld.toReal ∧ 0 ≤ c.emaNew.toReal ∧ 0 < c.logFloor.toReal :=
  ⟨fun ⟨h1, h2, h3, h4, h5, h6, h7, h8⟩ => ⟨h1, h2, h3, h4, h5, h6, h7, h8⟩,
    fun ⟨h1, h2, h3, h4, h5, h6, h7, h8⟩ => ⟨h1, h2, h3, h4, h5, h6, h7, h8⟩⟩

/-- R372 bounds both weights of the average by 1 as well; with a sum of 1 and neither negative, that says no more. -/
theorem weights_le_one_iff {x y : ℝ} (hsum : x + y = 1) :
    (0 ≤ x ∧ x ≤ 1) ∧ (0 ≤ y ∧ y ≤ 1) ↔ 0 ≤ x ∧ 0 ≤ y :=
  ⟨fun ⟨⟨hx, _⟩, hy, _⟩ => ⟨hx, hy⟩, fun ⟨hx, hy⟩ => ⟨⟨hx, by linarith⟩, hy, by linarith⟩⟩

theorem construct_rate (h : ¬ Config.ratesOk c = true) : construct c b = .error (.constructionFailure .rate) := by
  simp [construct, Config.failure, h]

theorem construct_source (h : Config.ratesOk c = true) :
    construct c false = .error (.constructionFailure .source) := by
  simp [construct, Config.failure, h]

theorem construct_param (h : Config.ratesOk c = true) (hp : ¬ (Config.sizesOk c = true ∧ RealParams c)) :
    construct c true = .error (.constructionFailure .param) := by
  rw [← realsOk_iff, not_and_or, Bool.not_eq_true, Bool.not_eq_true] at hp
  simp [construct, Config.failure, h, hp]

end

/-- Settles O11: the checks are the conditions of R371 and R372, so each case is one of `construct`'s answers. -/
theorem constructionCodes : Obligations.ConstructionCodes := by
  intro c b rates params hrates hparams
  have hr : rates ↔ Config.ratesOk c = true := by rw [hrates, ratesOk_iff]
  have hp : params ↔ Config.sizesOk c = true ∧ RealParams c := by
    rw [hparams, sizesOk_iff, realParams_iff]
    have hw := weights_le_one_iff (x := c.emaOld.toReal) (y := c.emaNew.toReal)
    tauto
  rw [hr, hp]
  exact ⟨construct_rate, fun h hb => hb ▸ construct_source h, fun h hb hn => hb ▸ construct_param h hn,
    fun h hb hok => (construct_ok_iff c b _).mpr ⟨hb, ⟨h, hok.1, hok.2⟩, rfl⟩, rfl, rfl, rfl⟩

end Sys2Proof.Machine
end


section
/-! PROOFS. Reset (70_reset_and_hazards.md R410, R411): the value of every register. A register's value is the field of
its unit's reset record, by definition; the two that are not fields as they stand are a character of an empty buffer and
`RDS_PH`, which is 0 whichever front end the parameters name. -/

namespace Sys2Proof.Machine

/-- R411: a buffer with no character stored reads as spaces. -/
theorem charAt_nil (a : Nat) : charAt [] a = 0x20#8 := rfl

/-- R30, R411: `RDS_PH` at reset. -/
theorem rdsPh_resetOf (c : Config) : (State.resetOf c).dem.rf.rdsPh = 0 := frontInit_rdsPh c

/-- R31 to R33, R411: both RDS buffers at reset are empty, so each character is a space. -/
theorem chars_resetOf (c : Config) (a : Nat) :
    charAt (State.resetOf c).rds.label a = 0x20#8 ∧ charAt (State.resetOf c).rds.text a = 0x20#8 :=
  ⟨charAt_nil a, charAt_nil a⟩

/-- Settles O12: unit by unit, in the order of R411's table. -/
theorem resetValues : Obligations.ResetValues := fun c =>
  have hlabel (a : Nat) := (chars_resetOf c a).1
  have htext (a : Nat) := (chars_resetOf c a).2
  ⟨rfl, rfl, rdsPh_resetOf c, -- the configuration and datapath registers
    rfl, hlabel, rfl, htext, rfl, rfl, rfl, rfl, rfl, -- RDS
    rfl, rfl, rfl, -- the scanner
    rfl, rfl, rfl, rfl, -- the ring buffer and its readers
    rfl, rfl, rfl, rfl, -- the engine
    rfl, rfl, rfl⟩ -- the queues (R410)

end Sys2Proof.Machine
end
